-- ==== Sys2Proof/Word.lean ====
section
/-! DEFINITION. The bit-vector types of the interface (10_state.md rule R19): bytes, nibbles, 24-bit
addresses, the two length fields, the 2-bit condition code, the 32-bit binary and register values, and the
160-bit canonical request word Q (30_encoding.md rule R47). Types only; bit-field helpers stand in
Machine/Ops.lean. -/

namespace Sys2Proof

/-- A byte, bits 7 down to 0 (R9). -/
abbrev Byte := BitVec 8

/-- Half a byte: a decimal digit or a sign code (R9). -/
abbrev Nibble := BitVec 4

/-- An operand address as a request carries it (R19: `A1`, `A2`, 24 bits). -/
abbrev Addr := BitVec 24

/-- The field `L1`, a true byte count (R19: 9 bits, R48). -/
abbrev Len1 := BitVec 9

/-- The field `L2`, a true byte count (R19: 5 bits, R48). -/
abbrev Len2 := BitVec 5

/-- A condition code (R20: 2 bits). -/
abbrev CondCode := BitVec 2

/-- The field `SH`, the source of SRP's shift amount (R19: 24 bits). -/
abbrev ShiftField := BitVec 24

/-- A 32-bit value: `REG_IN`, `REG_OUT`, `VAL_IN`, `VAL_OUT` (R19, R22, R23). -/
abbrev Word := BitVec 32

/-- The canonical request word Q (R47). -/
abbrev RequestWord := BitVec 160

end Sys2Proof
end

