-- ==== Sys2Proof/Config.lean ====
section
/-! DEFINITION. The implementation parameters (00_scope.md rule R8; 92_eei_decisions.md, "Parameters that
stay open"). The five open ones are the fields of `Config`, an argument of the model that every state carries
and no step changes (assumption log 1); the fixed ones are constants. -/

namespace Sys2Proof

/-- `EDMK_MARK_POLICY` (R8, R88): which start of significance EDMK records. OPEN in the spec. -/
inductive MarkPolicy where
  /-- `EVERY_START`: every mark event is recorded. -/
  | everyStart
  /-- `FIRST_PER_FIELD`: only the first mark event of each field is recorded. -/
  | firstPerField
  deriving DecidableEq, Repr

/-- `OVERLAP_MODE` (R8, R42): what overlapping windows of MVO, PACK, UNPK and EDMK mean. -/
inductive OverlapMode where
  /-- `SEQUENTIAL`: the byte-by-byte order of R41 decides. -/
  | sequential
  /-- `REFUSE`: the request is refused. -/
  | refuse
  deriving DecidableEq, Repr

/-- `SRP_SHIFT_BITS` (R8, R49): the width of SRP's signed shift amount, 5 or 6. -/
inductive ShiftWidth where
  | five
  | six
  deriving DecidableEq, Repr

/-- `MP_ZERO_CHECK_EXC` (R8, R77): the interruption MP's leading-zero check raises. -/
inductive ZeroCheckExc where
  | specification
  | data
  deriving DecidableEq, Repr

/-- The parameters a model takes as arguments (R8). -/
structure Config where
  /-- `MEM_SIZE`, the bytes of the caller's buffer. -/
  memSize : Nat
  markPolicy : MarkPolicy
  overlapMode : OverlapMode
  shiftWidth : ShiftWidth
  mpZeroCheck : ZeroCheckExc
  deriving DecidableEq, Repr

/-- `ADDR_BITS` (R8). -/
def Config.addrBits : Nat := 24

/-- The legal buffer sizes, 1 ≤ MEM_SIZE ≤ 2^24 (R8). -/
def Config.wf (c : Config) : Bool := decide (1 ≤ c.memSize ∧ c.memSize ≤ 2 ^ Config.addrBits)

/-- The parameters of the machine that `State.reset` names: the largest buffer, and the spec's defaults
(R8). `EDMK_MARK_POLICY` has no default in the spec, and `MEM_SIZE` has none.
DESIGN CHOICE (assumption log 2; unsafe): `EVERY_START`, the value 95_test_vectors.md section 0 takes, and 2^24. -/
def Config.initial : Config where
  memSize := 2 ^ Config.addrBits
  markPolicy := .everyStart
  overlapMode := .sequential
  shiftWidth := .five
  mpZeroCheck := .specification

/-- `PACKED_MAX_LEN` (R8): the largest packed operand, in bytes. -/
def Config.packedMaxLen : Nat := 16

/-- `MD_MAX_L2` (R8): the largest multiplier or divisor, in bytes. -/
def Config.mdMaxL2 : Nat := 8

/-- `CVB_LEN` and `CVD_LEN` (R8). -/
def Config.convertLen : Nat := 8

/-- `EDMK_MAX_LEN` (R8): the longest pattern, in bytes. -/
def Config.edmkMaxLen : Nat := 256

end Sys2Proof
end

