-- ==== Sys2Proof/Syntax.lean ====
section
/-! DEFINITION. The syntax: the request record (10_state.md rule R19), the instruction a request stands for
(one constructor per row of opcode_table.json, holding exactly the fields R19 says the operation uses), and the
System/370 source instructions the caller builds requests from (30_encoding.md rules R53 to R56, informative). -/

namespace Sys2Proof

/-- The request record (R19), with the reserved bits 27:0 of its canonical word (R47). -/
structure Request where
  op : BitVec 8
  a1 : Addr
  l1 : Len1
  l2 : Len2
  i3 : Nibble
  ccIn : CondCode
  a2 : Addr
  sh : ShiftField
  regIn : Word
  valIn : Word
  reserved : BitVec 28
  deriving DecidableEq, Repr

/-- A request as an instruction: the operation with the fields it uses (R19, column "used by"). A field an
operation does not use is ignored (R47), so it is no argument here. -/
inductive Instr where
  /-- Add Decimal (R72). -/
  | ap (a1 : Addr) (l1 : Len1) (a2 : Addr) (l2 : Len2) (cc : CondCode)
  /-- Subtract Decimal (R73). -/
  | sp (a1 : Addr) (l1 : Len1) (a2 : Addr) (l2 : Len2) (cc : CondCode)
  /-- Compare Decimal (R74). -/
  | cp (a1 : Addr) (l1 : Len1) (a2 : Addr) (l2 : Len2) (cc : CondCode)
  /-- Zero and Add (R75). -/
  | zap (a1 : Addr) (l1 : Len1) (a2 : Addr) (l2 : Len2) (cc : CondCode)
  /-- Multiply Decimal (R77). -/
  | mp (a1 : Addr) (l1 : Len1) (a2 : Addr) (l2 : Len2) (cc : CondCode)
  /-- Divide Decimal (R78). -/
  | dp (a1 : Addr) (l1 : Len1) (a2 : Addr) (l2 : Len2) (cc : CondCode)
  /-- Edit and Mark (R91). -/
  | edmk (a1 : Addr) (l1 : Len1) (a2 : Addr) (reg : Word) (cc : CondCode)
  /-- Shift and Round Decimal (R94). -/
  | srp (a1 : Addr) (l1 : Len1) (sh : ShiftField) (i3 : Nibble) (cc : CondCode)
  /-- Convert to Binary (R95). -/
  | cvb (a2 : Addr) (cc : CondCode)
  /-- Convert to Decimal (R96). -/
  | cvd (a2 : Addr) (val : Word) (cc : CondCode)
  /-- Move with Offset (R97). -/
  | mvo (a1 : Addr) (l1 : Len1) (a2 : Addr) (l2 : Len2) (cc : CondCode)
  /-- Pack (R98). -/
  | pack (a1 : Addr) (l1 : Len1) (a2 : Addr) (l2 : Len2) (cc : CondCode)
  /-- Unpack (R99). -/
  | unpk (a1 : Addr) (l1 : Len1) (a2 : Addr) (l2 : Len2) (cc : CondCode)
  deriving DecidableEq, Repr

/-- Why a request word stands for no instruction (R52): it gets no response and no interruption code. -/
inductive DecodeReject where
  /-- The OP value is none of the thirteen of R51. -/
  | unknownOp
  /-- Bits 27:0 of Q are not all zero. -/
  | reservedBits
  deriving DecidableEq, Repr

/-- The source instruction formats (R53 to R56). -/
inductive SourceFormat where
  | ssTwo
  | ssOne
  | ssSrp
  | rx
  deriving DecidableEq, Repr

/-- A System/370 storage operand address, base register and 12-bit displacement (R53). -/
structure BaseDisp where
  b : BitVec 4
  d : BitVec 12
  deriving DecidableEq, Repr

/-- A System/370 source instruction by its format (R53 to R56). The length codes are length minus one. -/
inductive SourceInstr where
  /-- SS with two lengths (R53). -/
  | ssTwo (op : BitVec 8) (l1code l2code : BitVec 4) (s1 s2 : BaseDisp)
  /-- SS with one length: EDMK (R54). -/
  | ssOne (op : BitVec 8) (lcode : BitVec 8) (s1 s2 : BaseDisp)
  /-- SS for SRP (R55). -/
  | ssSrp (op : BitVec 8) (l1code : BitVec 4) (i3 : BitVec 4) (s1 s2 : BaseDisp)
  /-- RX: CVB and CVD (R56). -/
  | rx (op : BitVec 8) (r1 x2 : BitVec 4) (s2 : BaseDisp)
  deriving DecidableEq, Repr

/-- What the caller holds that a request is built from (R53 to R56): its sixteen general registers and its
condition code. It is the caller's, no part of the machine's `State` (R6, R17). -/
structure Caller where
  gpr : Vector Word 16
  cc : CondCode
  deriving DecidableEq, Repr

end Sys2Proof
end

