-- ==== Sys2Proof/WellFormed.lean ====
section
/-! DEFINITION. Well-formed instructions: every used length lies in its legal range (30_encoding.md rule R48).
The machine makes the same check for itself (Machine/Ops.lean), so that an ill-formed request is refused. -/

namespace Sys2Proof

/-- The legal values of `L1` of a packed or zoned operand: 1 to 16 (R48). -/
def Len1.isFieldLength (l : Len1) : Bool := decide (1 ≤ l.toNat ∧ l.toNat ≤ Config.packedMaxLen)

/-- The legal values of `L2`: 1 to 16 (R48). -/
def Len2.isFieldLength (l : Len2) : Bool := decide (1 ≤ l.toNat ∧ l.toNat ≤ Config.packedMaxLen)

/-- The legal values of `L1` of an EDMK pattern: 1 to 256 (R48). -/
def Len1.isPatternLength (l : Len1) : Bool := decide (1 ≤ l.toNat ∧ l.toNat ≤ Config.edmkMaxLen)

/-- Every used length is in its range (R48). -/
def Instr.wellFormed : Instr → Bool
  | .ap _ l1 _ l2 _ => l1.isFieldLength && l2.isFieldLength
  | .sp _ l1 _ l2 _ => l1.isFieldLength && l2.isFieldLength
  | .cp _ l1 _ l2 _ => l1.isFieldLength && l2.isFieldLength
  | .zap _ l1 _ l2 _ => l1.isFieldLength && l2.isFieldLength
  | .mp _ l1 _ l2 _ => l1.isFieldLength && l2.isFieldLength
  | .dp _ l1 _ l2 _ => l1.isFieldLength && l2.isFieldLength
  | .edmk _ l1 _ _ _ => l1.isPatternLength
  | .srp _ l1 _ _ _ => l1.isFieldLength
  | .cvb _ _ => true
  | .cvd _ _ _ => true
  | .mvo _ l1 _ l2 _ => l1.isFieldLength && l2.isFieldLength
  | .pack _ l1 _ l2 _ => l1.isFieldLength && l2.isFieldLength
  | .unpk _ l1 _ l2 _ => l1.isFieldLength && l2.isFieldLength

end Sys2Proof
end

