-- ==== Sys2Proof/Decode.lean ====
section
/-! DEFINITION. Decoding and encoding of requests (30_encoding.md rules R47, R51, R52), the caller's translation
of a System/370 instruction into a request (R53 to R57, informative), and the opcode table's words. -/

namespace Sys2Proof

/-! ## The request word Q -/

/-- The fields of a request word (R47). `REG_IN` and `VAL_IN` share bits 59:28: the one a request uses is the
one its operation names (R47), so the record carries the same bits under both names. -/
def Request.ofWord (q : RequestWord) : Request where
  op := q.extractLsb' 152 8
  a1 := q.extractLsb' 128 24
  l1 := q.extractLsb' 119 9
  l2 := q.extractLsb' 114 5
  i3 := q.extractLsb' 110 4
  ccIn := q.extractLsb' 108 2
  a2 := q.extractLsb' 84 24
  sh := q.extractLsb' 60 24
  regIn := q.extractLsb' 28 32
  valIn := q.extractLsb' 28 32
  reserved := q.extractLsb' 0 28

/-- The OP value of CVD, the one operation whose bits 59:28 are `VAL_IN` (R47, R51). -/
def opCvd : BitVec 8 := 0x4E

/-- Bits 59:28 of the request word: `VAL_IN` for CVD, else `REG_IN` (R47). -/
def Request.sharedValue (r : Request) : Word := if r.op = opCvd then r.valIn else r.regIn

/-- The canonical word of a request (R47), its fields from bit 159 down. -/
def Request.toWord (r : Request) : RequestWord :=
  r.op ++ r.a1 ++ r.l1 ++ r.l2 ++ r.i3 ++ r.ccIn ++ r.a2 ++ r.sh ++ r.sharedValue ++ r.reserved

/-- The operation map (R51): each OP value with the instruction its request stands for, rows in the order of
the spec's table. -/
def opTable : List (BitVec 8 × (Request → Instr)) :=
  [ (opCvd, fun r => .cvd r.a2 r.valIn r.ccIn),
    (0x4F, fun r => .cvb r.a2 r.ccIn),
    (0xDF, fun r => .edmk r.a1 r.l1 r.a2 r.regIn r.ccIn),
    (0xF0, fun r => .srp r.a1 r.l1 r.sh r.i3 r.ccIn),
    (0xF1, fun r => .mvo r.a1 r.l1 r.a2 r.l2 r.ccIn),
    (0xF2, fun r => .pack r.a1 r.l1 r.a2 r.l2 r.ccIn),
    (0xF3, fun r => .unpk r.a1 r.l1 r.a2 r.l2 r.ccIn),
    (0xF8, fun r => .zap r.a1 r.l1 r.a2 r.l2 r.ccIn),
    (0xF9, fun r => .cp r.a1 r.l1 r.a2 r.l2 r.ccIn),
    (0xFA, fun r => .ap r.a1 r.l1 r.a2 r.l2 r.ccIn),
    (0xFB, fun r => .sp r.a1 r.l1 r.a2 r.l2 r.ccIn),
    (0xFC, fun r => .mp r.a1 r.l1 r.a2 r.l2 r.ccIn),
    (0xFD, fun r => .dp r.a1 r.l1 r.a2 r.l2 r.ccIn) ]

/-- The instruction a request record stands for (R51, R52). -/
def Request.toInstr (r : Request) : Except DecodeReject Instr :=
  if r.reserved = 0 then
    match opTable.find? (fun row => row.1 == r.op) with
    | some row => .ok (row.2 r)
    | none => .error .unknownOp
  else .error .reservedBits

/-- Decoding a request word: total, rejecting by name (R47, R51, R52). -/
def decode (q : RequestWord) : Except DecodeReject Instr := (Request.ofWord q).toInstr

/-- A request record with the given OP and condition code and every other field zero. -/
def Request.blank (op : BitVec 8) (cc : CondCode) : Request where
  op := op
  a1 := 0
  l1 := 0
  l2 := 0
  i3 := 0
  ccIn := cc
  a2 := 0
  sh := 0
  regIn := 0
  valIn := 0
  reserved := 0

/-- A request of the two-operand shape. -/
def Request.twoFields (op : BitVec 8) (a1 : Addr) (l1 : Len1) (a2 : Addr) (l2 : Len2) (cc : CondCode) : Request :=
  { Request.blank op cc with a1 := a1, l1 := l1, a2 := a2, l2 := l2 }

/-- The request record of an instruction; the fields it does not use are zero. -/
def Instr.toRequest : Instr → Request
  | .ap a1 l1 a2 l2 cc => .twoFields 0xFA a1 l1 a2 l2 cc
  | .sp a1 l1 a2 l2 cc => .twoFields 0xFB a1 l1 a2 l2 cc
  | .cp a1 l1 a2 l2 cc => .twoFields 0xF9 a1 l1 a2 l2 cc
  | .zap a1 l1 a2 l2 cc => .twoFields 0xF8 a1 l1 a2 l2 cc
  | .mp a1 l1 a2 l2 cc => .twoFields 0xFC a1 l1 a2 l2 cc
  | .dp a1 l1 a2 l2 cc => .twoFields 0xFD a1 l1 a2 l2 cc
  | .edmk a1 l1 a2 reg cc => { Request.blank 0xDF cc with a1 := a1, l1 := l1, a2 := a2, regIn := reg }
  | .srp a1 l1 sh i3 cc => { Request.blank 0xF0 cc with a1 := a1, l1 := l1, sh := sh, i3 := i3 }
  | .cvb a2 cc => { Request.blank 0x4F cc with a2 := a2 }
  | .cvd a2 val cc => { Request.blank opCvd cc with a2 := a2, valIn := val }
  | .mvo a1 l1 a2 l2 cc => .twoFields 0xF1 a1 l1 a2 l2 cc
  | .pack a1 l1 a2 l2 cc => .twoFields 0xF2 a1 l1 a2 l2 cc
  | .unpk a1 l1 a2 l2 cc => .twoFields 0xF3 a1 l1 a2 l2 cc

/-- The canonical request word of an instruction (R47, R51). -/
def encode (i : Instr) : RequestWord := i.toRequest.toWord

/-! ## The caller's source instructions (R53 to R57) -/

/-- The instruction length in bytes from the first two bits of the opcode (R57). -/
def sourceLength (op : BitVec 8) : Nat :=
  match (op.extractLsb' 6 2).toNat with
  | 0 => 2
  | 1 => 4
  | 2 => 4
  | _ => 6

/-- The source format of an in-scope opcode (R53 to R56); none for the caller's other instructions. -/
def sourceFormat (op : BitVec 8) : Option SourceFormat :=
  if op = 0x4E ∨ op = 0x4F then some .rx
  else if op = 0xDF then some .ssOne
  else if op = 0xF0 then some .ssSrp
  else if op ∈ [0xF1, 0xF2, 0xF3, 0xF8, 0xF9, 0xFA, 0xFB, 0xFC, 0xFD] then some .ssTwo
  else none

/-- A base and displacement from its two bytes (R53: bits 31:28 and 27:16, or 15:12 and 11:0, of W). -/
def BaseDisp.ofBytes (h l : Byte) : BaseDisp := ⟨h.extractLsb' 4 4, h.extractLsb' 0 4 ++ l⟩

/-- The two bytes of a base and displacement. -/
def BaseDisp.toBytes (s : BaseDisp) : List Byte :=
  [s.b ++ s.d.extractLsb' 8 4, s.d.extractLsb' 0 8]

/-- Reads one source instruction of the formats R53 to R56 and answers it with the bytes after it. -/
def sourceDecode : List Byte → Option (SourceInstr × List Byte)
  | op :: x :: y :: z :: rest =>
    match sourceFormat op with
    | some .rx =>
      some (.rx op (x.extractLsb' 4 4) (x.extractLsb' 0 4) (.ofBytes y z), rest)
    | some .ssOne =>
      match rest with
      | u :: v :: tail => some (.ssOne op x (.ofBytes y z) (.ofBytes u v), tail)
      | _ => none
    | some .ssSrp =>
      match rest with
      | u :: v :: tail =>
        some (.ssSrp op (x.extractLsb' 4 4) (x.extractLsb' 0 4) (.ofBytes y z) (.ofBytes u v), tail)
      | _ => none
    | some .ssTwo =>
      match rest with
      | u :: v :: tail =>
        some (.ssTwo op (x.extractLsb' 4 4) (x.extractLsb' 0 4) (.ofBytes y z) (.ofBytes u v), tail)
      | _ => none
    | none => none
  | _ => none

/-- The opcode byte of a source instruction. -/
def SourceInstr.op : SourceInstr → BitVec 8
  | .ssTwo op _ _ _ _ => op
  | .ssOne op _ _ _ => op
  | .ssSrp op _ _ _ _ => op
  | .rx op _ _ _ => op

/-- The format of a source instruction. -/
def SourceInstr.format : SourceInstr → SourceFormat
  | .ssTwo .. => .ssTwo
  | .ssOne .. => .ssOne
  | .ssSrp .. => .ssSrp
  | .rx .. => .rx

/-- The bytes of a source instruction, first fetched first (R53 to R56). -/
def sourceEncode : SourceInstr → List Byte
  | .ssTwo op c1 c2 s1 s2 => op :: (c1 ++ c2) :: (s1.toBytes ++ s2.toBytes)
  | .ssOne op c s1 s2 => op :: c :: (s1.toBytes ++ s2.toBytes)
  | .ssSrp op c1 i3 s1 s2 => op :: (c1 ++ i3) :: (s1.toBytes ++ s2.toBytes)
  | .rx op r1 x2 s2 => op :: (r1 ++ x2) :: s2.toBytes

/-- General register r of the caller. -/
def Caller.reg (c : Caller) (r : BitVec 4) : Word := c.gpr[r.toNat]'r.isLt

/-- `base(0) = 0`, and `base(r)` is bits 23:0 of general register r (R53). -/
def Caller.base (c : Caller) (r : BitVec 4) : Addr := if r = 0 then 0 else (c.reg r).extractLsb' 0 24

/-- The operand address of a base and displacement, modulo 2^24 (R53). -/
def Caller.address (c : Caller) (s : BaseDisp) : Addr := c.base s.b + s.d.setWidth 24

/-- `L1` or `L2` from a 4-bit length code (R53). -/
def lengthOfCode (w : Nat) {v : Nat} (code : BitVec v) : BitVec w := code.setWidth w + 1

/-- The request a caller builds from a source instruction (R53 to R56). EDMK's `REG_IN` is general register 1
(R54), CVD's `VAL_IN` is general register r1 (R56). -/
def SourceInstr.toRequest (c : Caller) : SourceInstr → Request
  | .ssTwo op c1 c2 s1 s2 =>
    { Request.blank op c.cc with
      a1 := c.address s1, l1 := lengthOfCode 9 c1, a2 := c.address s2, l2 := lengthOfCode 5 c2 }
  | .ssOne op code s1 s2 =>
    { Request.blank op c.cc with
      a1 := c.address s1, l1 := lengthOfCode 9 code, a2 := c.address s2, regIn := c.reg 1 }
  | .ssSrp op c1 i3 s1 s2 =>
    { Request.blank op c.cc with
      a1 := c.address s1, l1 := lengthOfCode 9 c1, i3 := i3, sh := c.address s2 }
  | .rx op r1 x2 s2 =>
    { Request.blank op c.cc with
      a2 := c.base x2 + c.address s2, valIn := if op = opCvd then c.reg r1 else 0 }

/-! ## Words of the opcode table -/

/-- A caller whose registers and condition code are zero. -/
def Caller.zero : Caller := ⟨Vector.replicate 16 0, 0⟩

/-- The first six bytes of an instruction whose bits are w, numbered as opcode_table.json numbers them, the bits
from nbits up taken as zero. -/
def tableBytes (nbits w : Nat) : List Byte :=
  (List.range 6).map fun k => BitVec.ofNat 8 (w % 2 ^ nbits / 2 ^ (8 * k))

/-- The request word of an opcode-table word. The table's rows are the System/370 instructions requests come from
(their `source_fields` are bits of the 4- or 6-byte instruction word), so the word is read as one by the caller's
rules R53 to R56 with zero registers, and becomes the request those rules build (assumption log 3). A first byte
that is no OP value becomes a request with that OP and every other field zero. -/
def tableRequest (nbits w : Nat) : RequestWord :=
  match sourceDecode (tableBytes nbits w) with
  | some (si, _) => (si.toRequest Caller.zero).toWord
  | none => (Request.blank (BitVec.ofNat 8 (w % 2 ^ nbits)) 0).toWord

/-- The instruction the decoder reads from an opcode-table word. -/
def decodeTableWord (nbits w : Nat) : Option Instr :=
  match decode (tableRequest nbits w) with
  | .ok i => some i
  | .error _ => none

end Sys2Proof
end

