-- ==== Sys2Proof/Machine/State.lean ====
section
/-! DEFINITION. The machine's state as plain data (10_state.md): the caller's memory buffer, the pending request,
the response of the last request, and the implementation parameters. The block keeps nothing else (R15 to R18,
R30): no register file, no program counter, no condition-code register, no mode. -/

namespace Sys2Proof.Machine

/-- An interruption code (R21, R100): an enumeration, as R100 allows; the 16-bit values are
`InterruptionCode.code`. -/
inductive InterruptionCode where
  /-- No interruption. -/
  | none
  /-- SPECIFICATION: raised by MP and DP (R102). -/
  | specification
  /-- DATA: raised by AP, SP, CP, ZAP, MP, DP, EDMK, SRP and CVB (R101). -/
  | data
  /-- FIXED_POINT_DIVIDE: raised by CVB (R104). -/
  | fixedPointDivide
  /-- DECIMAL_DIVIDE: raised by DP (R103). -/
  | decimalDivide
  deriving DecidableEq, Repr

/-- A response (R20 to R24). An output the operation does not define is absent (R24). -/
structure Response where
  /-- `IC` (R21). -/
  ic : InterruptionCode
  /-- `CC_OUT` (R20). -/
  cc : CondCode
  /-- `REG_OUT` (R22), present for EDMK only (R24). -/
  regOut : Option Word
  /-- `VAL_OUT` (R23), present for CVB without DATA only (R24). -/
  valOut : Option Word
  deriving DecidableEq, Repr

/-- The memory buffer: the bytes that are not zero, by rising address. An unlisted address reads as zero. -/
abbrev Memory := List Host.Cell

/-- The canonical form: addresses strictly rising and no listed byte zero, so that equal buffers are equal data. -/
def Memory.wf : Memory → Bool
  | [] => true
  | (a, v) :: rest => v != 0 && rest.all (fun c => decide (a < c.1)) && Memory.wf rest

/-- The machine's state (R15: memory and a pending request or none), with the response on the interface (R20 to
R24) and the parameters (R8). -/
structure State where
  /-- The parameters of this machine, fixed while it runs (R8; assumption log 1). -/
  cfg : Config
  /-- The caller's memory buffer, addresses 0 to MEM_SIZE − 1 (R32). -/
  mem : Memory
  /-- The pending request, as its canonical word Q (R15, R47). -/
  request : Option RequestWord
  /-- The response of the last request that got one; none is defined after reset (R31, R116). -/
  response : Option Response
  deriving DecidableEq, Repr

/-- The stops with a fault: there are none. Nobody raises one: every interruption is a response (R100), and no
behaviour of the block is a fault or stuck (93_implementation_defined.md, Part 1). -/
inductive Fault
  deriving DecidableEq, Repr

/-- The refusals: requests outside the interface (R109), which get no response. Each is safe: the machine stops
where the spec gives the request no meaning. -/
inductive Refusal where
  /-- Raised by `exec`'s arm of an instruction with no meaning yet; no arm raises it. Safe. -/
  | notModelled (mnemonic : String)
  /-- Raised by `step`: the request's OP is none of the thirteen (R52). Safe. -/
  | unknownOperation
  /-- Raised by `step`: bits 27:0 of Q are not zero (R52). Safe. -/
  | reservedBitsNonzero
  /-- Raised by every operation with a length: a used length is outside its range (R48). Safe. -/
  | lengthOutOfRange
  /-- Raised by every operation: a window leaves the buffer (R33). Safe. -/
  | windowOutsideBuffer
  /-- Raised by MVO, PACK, UNPK and EDMK under `OVERLAP_MODE = REFUSE`: the windows overlap (R42). Safe. -/
  | overlappingWindows
  deriving DecidableEq, Repr

/-- What one request ends in. -/
abbrev Result := Host.Outcome State Fault Refusal

/-- The machine with the given parameters, right after reset: no request pending, no response defined (R31, R116).
Reset does not touch the buffer, which is the caller's (R116); here it lists nothing (assumption log 4). -/
def State.resetWith (cfg : Config) : State where
  cfg := cfg
  mem := []
  request := .none
  response := .none

/-- The machine right after reset (R116), with the parameters `Config.initial`. -/
def State.reset : State := State.resetWith Config.initial

end Sys2Proof.Machine
end

