-- ==== Sys2Proof/Machine/Ops.lean ====
section
/-! DEFINITION. The named operations: bit fields, bytes of memory, the checks that refuse a request, the
response that ends one, the exception, and what the outside does between requests. -/

namespace Sys2Proof.Machine

/-! ## Nibbles (R9) -/

/-- The high nibble of a byte, `b[7:4]`. -/
def hiNib (b : Byte) : Nibble := b.extractLsb' 4 4

/-- The low nibble of a byte, `b[3:0]`. -/
def loNib (b : Byte) : Nibble := b.extractLsb' 0 4

/-- The byte built from a high and a low nibble (R9). -/
def mkByte (h l : Nibble) : Byte := h ++ l

/-! ## Memory (R10, R32, R38) -/

/-- The byte at an address; an unlisted address reads as zero (assumption log 4). -/
def Memory.read : Memory → Nat → Byte
  | [], _ => 0
  | (k, v) :: rest, a => if k = a then v else Memory.read rest a

/-- Lists a nonzero byte at its address, in place of what is listed there. -/
def Memory.insert : Memory → Nat → Byte → Memory
  | [], a, v => [(a, v)]
  | (k, b) :: rest, a, v =>
    if a < k then (a, v) :: (k, b) :: rest
    else if a = k then (a, v) :: rest
    else (k, b) :: Memory.insert rest a v

/-- Stores one byte, keeping the canonical form: a zero byte is not listed. -/
def Memory.write (m : Memory) (a : Nat) (v : Byte) : Memory :=
  if v = 0 then m.filter (fun c => c.1 != a) else m.insert a v

/-- `MemRead(a, n)`: single-byte reads in increasing address order (R10, R38). -/
def Memory.readBytes (m : Memory) : Nat → Nat → List Byte
  | _, 0 => []
  | a, n + 1 => m.read a :: m.readBytes (a + 1) n

/-- `MemWrite`: single-byte writes in increasing address order (R10, R38). -/
def Memory.writeBytes (m : Memory) : Nat → List Byte → Memory
  | _, [] => m
  | a, b :: bs => Memory.writeBytes (m.write a b) (a + 1) bs

/-! ## Requests outside the interface (R109) -/

/-- `L1` of a packed or zoned operand lies in 1..16 (R48). -/
def fieldLen1 (l : Len1) : Bool := decide (1 ≤ l.toNat ∧ l.toNat ≤ 16)

/-- `L2` lies in 1..16 (R48). -/
def fieldLen2 (l : Len2) : Bool := decide (1 ≤ l.toNat ∧ l.toNat ≤ 16)

/-- `L1` of an EDMK pattern lies in 1..256 (R48). -/
def patternLen (l : Len1) : Bool := decide (1 ≤ l.toNat ∧ l.toNat ≤ 256)

/-- The window [a, a+n) lies in the buffer and does not wrap (R33). -/
def inBuffer (s : State) (a : Addr) (n : Nat) : Bool := decide (a.toNat + n ≤ s.cfg.memSize)

/-- The windows [a, a+n) and [b, b+m) have an address in common. -/
def windowsMeet (a : Addr) (n : Nat) (b : Addr) (m : Nat) : Bool :=
  decide (a.toNat < b.toNat + m ∧ b.toNat < a.toNat + n ∧ 0 < n ∧ 0 < m)

/-- The check of a request with two packed or zoned operands (R33, R48). -/
def refusalTwoFields (s : State) (a1 : Addr) (l1 : Len1) (a2 : Addr) (l2 : Len2) : Option Refusal :=
  if !(fieldLen1 l1 && fieldLen2 l2) then some .lengthOutOfRange
  else if !(inBuffer s a1 l1.toNat && inBuffer s a2 l2.toNat) then some .windowOutsideBuffer
  else none

/-- The check of MVO, PACK and UNPK: as two fields, and apart under `OVERLAP_MODE = REFUSE` (R42). -/
def refusalMove (s : State) (a1 : Addr) (l1 : Len1) (a2 : Addr) (l2 : Len2) : Option Refusal :=
  match refusalTwoFields s a1 l1 a2 l2 with
  | some r => some r
  | none =>
    if s.cfg.overlapMode = .refuse ∧ windowsMeet a1 l1.toNat a2 l2.toNat then some .overlappingWindows
    else none

/-- The check of SRP, which has one operand in memory (R34). -/
def refusalOneField (s : State) (a1 : Addr) (l1 : Len1) : Option Refusal :=
  if !fieldLen1 l1 then some .lengthOutOfRange
  else if !inBuffer s a1 l1.toNat then some .windowOutsideBuffer
  else none

/-- The check of EDMK before it runs: its pattern, and under `OVERLAP_MODE = REFUSE` the pattern apart from the
largest source window [A2, A2+L1) (R91). The source window [A2, A2+m) is checked as it is consumed (R83), and here
for m = 0, A2 ≤ MEM_SIZE (R33; assumption log 6). -/
def refusalEdit (s : State) (a1 : Addr) (l1 : Len1) (a2 : Addr) : Option Refusal :=
  if !patternLen l1 then some .lengthOutOfRange
  else if !(inBuffer s a1 l1.toNat && inBuffer s a2 0) then some .windowOutsideBuffer
  else if s.cfg.overlapMode = .refuse ∧ windowsMeet a1 l1.toNat a2 l1.toNat then some .overlappingWindows
  else none

/-- The check of CVB and CVD, whose operand is the 8 bytes at A2 (R34, R48). -/
def refusalConvert (s : State) (a2 : Addr) : Option Refusal :=
  if !inBuffer s a2 8 then some .windowOutsideBuffer else none

/-- Refusals come before every other check (R108, R109). -/
def unlessRefused (r : Option Refusal) (k : Result) : Result :=
  match r with
  | some why => .refused why
  | none => k

/-! ## Ending a request -/

/-- The 16-bit value of an interruption code (R100). -/
def InterruptionCode.code : InterruptionCode → BitVec 16
  | .none => 0x0000
  | .specification => 0x0006
  | .data => 0x0007
  | .fixedPointDivide => 0x0009
  | .decimalDivide => 0x000B

/-- Ends a request with its memory and response (R11: `return`). -/
def State.respond (s : State) (mem : Memory) (r : Response) : State := { s with mem := mem, response := some r }

/-- Normal completion with no value on REG_OUT or VAL_OUT (R11, R24). -/
def complete (s : State) (mem : Memory) (cc : CondCode) : Result := .next (s.respond mem ⟨.none, cc, .none, .none⟩)

/-- TAKING AN EXCEPTION (R11: `raise`; R105, R110): the response carries the code and the unchanged condition
code. Nothing is saved, no mode is switched and no control is transferred; delivery is the caller's. The memory is
what the request has made of it (R106), the register and the value what it carries (R90, R104). There is no return
from one (R111). -/
def raiseWith (s : State) (mem : Memory) (ic : InterruptionCode) (ccIn : CondCode) (regOut valOut : Option Word) :
    Result :=
  .next (s.respond mem ⟨ic, ccIn, regOut, valOut⟩)

/-- A suppressing exception (R106): no memory effect and no value carried. -/
def raise (s : State) (ic : InterruptionCode) (ccIn : CondCode) : Result := raiseWith s s.mem ic ccIn .none .none

/-! ## Between requests (the caller's side) -/

/-- The caller issues a request (R15, R112: only between requests). -/
def State.submit (s : State) (q : RequestWord) : State := { s with request := some q }

/-- The request leaves the port: it is no longer pending when it runs. -/
def State.takeRequest (s : State) : State := { s with request := none }

/-- A reset between requests (R116, R117): no request pending, no response defined, everything else as it was. -/
def State.afterReset (s : State) : State := { s with request := none, response := none }

/-- The caller stores a byte of its buffer between requests (R43: the caller owns the buffer). -/
def State.callerStore (s : State) (a : Nat) (v : Byte) : State :=
  if a < s.cfg.memSize then { s with mem := s.mem.write a v } else s

end Sys2Proof.Machine
end

