-- ==== Sys2Proof/Machine/Operands.lean ====
section
/-! DEFINITION. The operand forms: the packed-decimal codec (40_codec.md: validity, decode, encode, the unpack
primitive), the zone nibble and SRP's shift amount. -/

namespace Sys2Proof.Machine

/-! ## Sign codes and digits (R59, R60) -/

/-- The plus sign codes 10, 12, 14, 15 (R59). -/
def plusSign (s : Nibble) : Bool := s == 10 || s == 12 || s == 14 || s == 15

/-- The minus sign codes 11, 13 (R59). -/
def minusSign (s : Nibble) : Bool := s == 11 || s == 13

/-- A valid sign code (R59). -/
def validSign (s : Nibble) : Bool := plusSign s || minusSign s

/-- The preferred plus sign code, C (R59). -/
def plusCode : Nibble := 12

/-- The preferred minus sign code, D (R59). -/
def minusCode : Nibble := 13

/-- Nibble p of a field, 0 the high nibble of its first byte (R60). -/
def nib (field : List Byte) (p : Nat) : Nibble :=
  if p % 2 = 0 then hiNib (field.getD (p / 2) 0) else loNib (field.getD (p / 2) 0)

/-- The sign nibble of a field: the low nibble of its last byte (R35, R59). -/
def signNib (field : List Byte) : Nibble := loNib (field.getD (field.length - 1) 0)

/-- The digit capacity 2L − 1 of an L-byte field (R14, R60). -/
def capacity (len : Nat) : Nat := 2 * len - 1

/-! ## Validation and decode (R61, R62) -/

/-- Every digit position holds 0..9 and the sign code is valid (R61). DEDUCED (assumption log 16): with L = 1 the one digit
position is checked too, as R61's loop 0..2L−2, R60 and V-CD-8 have it, and not as R61's corner case has it ("L = 1 has no
digit position, so only the sign is checked"). -/
def fieldValid (field : List Byte) : Bool :=
  (List.range (capacity field.length)).all (fun p => decide ((nib field p).toNat ≤ 9)) && validSign (signNib field)

/-- The magnitude: the sum of nib(p) · 10^(2L−2−p) over the digit positions (R62). -/
def fieldMagnitude (field : List Byte) : Nat :=
  ((List.range (capacity field.length)).map
    fun p => (nib field p).toNat * 10 ^ (capacity field.length - 1 - p)).sum

/-- The signed value of a field (R62). -/
def fieldValue (field : List Byte) : Int :=
  if minusSign (signNib field) then -(fieldMagnitude field : Int) else (fieldMagnitude field : Int)

/-- `is_valid(A, L)` (R61). -/
def packedIsValid (m : Memory) (a len : Nat) : Bool := fieldValid (m.readBytes a len)

/-- `decode(A, L)`: the value, or none where decode fails with DATA (R62). -/
def packedDecode (m : Memory) (a len : Nat) : Option Int :=
  if packedIsValid m a len then some (fieldValue (m.readBytes a len)) else none

/-! ## Encode (R64) -/

/-- Nibble p of a field of `len` bytes that holds the digits of t right-aligned, and the sign code (R64). -/
def packNib (t : Nat) (sign : Nibble) (len p : Nat) : Nibble :=
  if p < capacity len then BitVec.ofNat 4 (t / 10 ^ (capacity len - 1 - p) % 10) else sign

/-- The field of `len` bytes with the digits of t right-aligned and the sign code (R64). -/
def packField (t : Nat) (sign : Nibble) (len : Nat) : List Byte :=
  (List.range len).map fun b => mkByte (packNib t sign len (2 * b)) (packNib t sign len (2 * b + 1))

/-- The preferred sign code of a value: D for a negative one, else C (R64, R66). -/
def preferredSign (v : Int) : Nibble := if v < 0 then minusCode else plusCode

/-- Encode's overflow flag: the magnitude has more digits than the field (R64, R65). -/
def encodeOverflow (v : Int) (len : Nat) : Bool := decide (10 ^ capacity len ≤ v.natAbs)

/-- The bytes `encode(v, A, L)` writes: the low-order digits that fit, and the sign of v itself (R64). -/
def encodeField (v : Int) (len : Nat) : List Byte :=
  packField (v.natAbs % 10 ^ capacity len) (preferredSign v) len

/-- `encode(v, A, L)`: the memory with all L bytes written (R64). -/
def packedEncode (m : Memory) (v : Int) (a len : Nat) : Memory := m.writeBytes a (encodeField v len)

/-! ## The unpack primitive (R68) -/

/-- The loop of `unpack`: n zoned bytes and m packed bytes are left, `pend` is the high nibble still to place. -/
def unpackLoop (ap az : Nat) (fill : Nibble) : (n m : Nat) → (pend : Option Nibble) → Memory → Memory
  | 0, _, _, mem => mem
  | n + 1, m, some d, mem => unpackLoop ap az fill n m none (mem.write (az + n) (mkByte fill d))
  | n + 1, m + 1, none, mem =>
    unpackLoop ap az fill n m (some (hiNib (mem.read (ap + m))))
      (mem.write (az + n) (mkByte fill (loNib (mem.read (ap + m)))))
  | n + 1, 0, none, mem => unpackLoop ap az fill n 0 none (mem.write (az + n) (mkByte fill 0))

/-- `unpack(Ap, Lp, Az, Lz, fill, keep)`: the memory after it, and the source's sign nibble (R68). The kept sign
goes to the rightmost zoned byte (90_conflicts.md C2). -/
def unpackZoned (mem : Memory) (ap lp az lz : Nat) (fill : Nibble) (keep : Bool) : Memory × Nibble :=
  let b := mem.read (ap + (lp - 1))
  let first := mem.write (az + (lz - 1)) (mkByte (if keep then loNib b else fill) (hiNib b))
  (unpackLoop ap az fill (lz - 1) (lp - 1) none first, loNib b)

/-! ## The zone of zoned digits -/

/-- The zone of the digits UNPK and EDMK write (R82, R99). -/
def zone : Nibble := 15

/-! ## SRP's shift amount (R49) -/

/-- The number of bits of the shift amount, S (R49). -/
def shiftBits : ShiftWidth → Nat
  | .five => 5
  | .six => 6

/-- n = sext_S(SH[S-1:0]): positive shifts left, negative shifts right (R49). -/
def shiftAmount (w : ShiftWidth) (sh : ShiftField) : Int := (sh.extractLsb' 0 (shiftBits w)).toInt

end Sys2Proof.Machine
end

