-- ==== Sys2Proof/Machine/Flags.lean ====
section
/-! DEFINITION. The condition codes (10_state.md rule R20): the arithmetic rule, the comparison, SRP's and EDMK's. -/

namespace Sys2Proof.Machine

/-- The code of a value's sign: 0 zero, 1 negative, 2 positive (R20). -/
def ccSign (v : Int) : CondCode := if v = 0 then 0 else if v < 0 then 1 else 2

/-- `cc_arith(r, ovf)` of AP, SP and ZAP (R71). -/
def ccArith (v : Int) (ovf : Bool) : CondCode := if ovf then 3 else ccSign v

/-- CP's code: 0 equal, 1 op1 < op2, 2 op1 > op2 (R74). -/
def ccCompare (v1 v2 : Int) : CondCode := if v1 = v2 then 0 else if v1 < v2 then 1 else 2

/-- SRP's code: 3 on overflow, 0 for a zero result, else by the operand's sign (R94). -/
def ccShift (res : Nat) (ovf neg : Bool) : CondCode :=
  if ovf then 3 else if res = 0 then 0 else if neg then 1 else 2

/-- EDMK's code at normal completion, from field-zero and significance (R89). -/
def ccEdit (fz sig : Bool) : CondCode := if fz then 0 else if sig then 1 else 2

end Sys2Proof.Machine
end

