-- ==== Sys2Proof/Machine/Convert.lean ====
section
/-! DEFINITION. The binary conversions (45_convert_move.md): CVB, CVD. -/

namespace Sys2Proof.Machine

/-- The value is outside the 32-bit signed range (R95). -/
def outsideWord (v : Int) : Bool := decide (v < -(2 ^ 31) ∨ 2 ^ 31 - 1 < v)

/-- The low 32 bits of a value in two's complement (R9, R23). -/
def lowWord (v : Int) : Word := BitVec.ofInt 32 v

/-- CVB (R95). FIXED_POINT_DIVIDE carries the low 32 bits (R104). -/
def execCvb (a2 : Addr) (cc : CondCode) (s : State) : Result :=
  unlessRefused (refusalConvert s a2) <|
    match packedDecode s.mem a2.toNat 8 with
    | none => raise s .data cc
    | some v =>
      if outsideWord v then raiseWith s s.mem .fixedPointDivide cc .none (some (lowWord v))
      else .next (s.respond s.mem ⟨.none, cc, .none, some (lowWord v)⟩)

/-- CVD (R96): `VAL_IN` is a signed value, and 15 digits hold it. -/
def execCvd (a2 : Addr) (val : Word) (cc : CondCode) (s : State) : Result :=
  unlessRefused (refusalConvert s a2) <|
    complete s (packedEncode s.mem val.toInt a2.toNat 8) cc

end Sys2Proof.Machine
end

