-- ==== Sys2Proof/Machine/Decimal.lean ====
section
/-! DEFINITION. The variable-length decimal ALU (41_decimal_alu.md): AP, SP, CP, ZAP. -/

namespace Sys2Proof.Machine

/-- Decodes operand 1, then operand 2, before anything is written; either failure raises DATA (R70, R101). -/
def withDecoded (s : State) (cc : CondCode) (a1 : Addr) (l1 : Len1) (a2 : Addr) (l2 : Len2)
    (k : Int → Int → Result) : Result :=
  match packedDecode s.mem a1.toNat l1.toNat with
  | none => raise s .data cc
  | some v1 =>
    match packedDecode s.mem a2.toNat l2.toNat with
    | none => raise s .data cc
    | some v2 => k v1 v2

/-- Writes a result over operand 1 and sets the condition code by R71. -/
def storeArith (s : State) (a1 : Addr) (l1 : Len1) (r : Int) : Result :=
  complete s (packedEncode s.mem r a1.toNat l1.toNat) (ccArith r (encodeOverflow r l1.toNat))

/-- AP (R72). -/
def execAp (a1 : Addr) (l1 : Len1) (a2 : Addr) (l2 : Len2) (cc : CondCode) (s : State) : Result :=
  unlessRefused (refusalTwoFields s a1 l1 a2 l2) <|
    withDecoded s cc a1 l1 a2 l2 fun v1 v2 => storeArith s a1 l1 (v1 + v2)

/-- SP (R73). -/
def execSp (a1 : Addr) (l1 : Len1) (a2 : Addr) (l2 : Len2) (cc : CondCode) (s : State) : Result :=
  unlessRefused (refusalTwoFields s a1 l1 a2 l2) <|
    withDecoded s cc a1 l1 a2 l2 fun v1 v2 => storeArith s a1 l1 (v1 - v2)

/-- CP (R74): memory is never written. -/
def execCp (a1 : Addr) (l1 : Len1) (a2 : Addr) (l2 : Len2) (cc : CondCode) (s : State) : Result :=
  unlessRefused (refusalTwoFields s a1 l1 a2 l2) <|
    withDecoded s cc a1 l1 a2 l2 fun v1 v2 => complete s s.mem (ccCompare v1 v2)

/-- ZAP (R75): operand 1 is decoded for its validity only. -/
def execZap (a1 : Addr) (l1 : Len1) (a2 : Addr) (l2 : Len2) (cc : CondCode) (s : State) : Result :=
  unlessRefused (refusalTwoFields s a1 l1 a2 l2) <|
    withDecoded s cc a1 l1 a2 l2 fun _ v2 => storeArith s a1 l1 v2

end Sys2Proof.Machine
end

