-- ==== Sys2Proof/Machine/Edit.lean ====
section
/-! DEFINITION. The edit-and-mark finite-state machine (43_edit_and_mark.md): EDMK. Its operation-local state
(10_state.md rule R27) is internal to one step. -/

namespace Sys2Proof.Machine

/-- The classes of pattern bytes (R80). -/
inductive PatternClass where
  | digitSelector
  | significanceStarter
  | fieldSeparator
  | message
  deriving DecidableEq, Repr

/-- The class of a pattern byte (R80). -/
def patternClass (p : Byte) : PatternClass :=
  if p = 0x20 then .digitSelector
  else if p = 0x21 then .significanceStarter
  else if p = 0x22 then .fieldSeparator
  else .message

/-- Which nibble of the source byte is the next digit (R27: `half`). The current source byte `sb` exists only
while its low nibble waits, so it stands beside `low` (R83: each byte is read once). -/
inductive Half where
  | high
  | low (sb : Byte)
  deriving DecidableEq, Repr

/-- The state of the edit (R27), with the memory it has reached. -/
structure EditState where
  sig : Bool
  fz : Bool
  fill : Byte
  k : Nat
  sp : Nat
  half : Half
  armed : Bool
  reg : Word
  mem : Memory
  deriving DecidableEq, Repr

/-- A source digit, with the sign code found beside it, and where the source then stands (R83). -/
structure SourceDigit where
  digit : Nibble
  sign : Option Nibble
  sp : Nat
  half : Half
  deriving DecidableEq, Repr

/-- What taking a source digit, or one pattern byte, ends in. -/
inductive EditStep (α : Type) where
  /-- It goes on. -/
  | more (x : α)
  /-- The source byte's high nibble is no digit: DATA (R83, R90). -/
  | badDigit
  /-- The source byte lies outside the buffer: the request breaks R33. -/
  | outside
  deriving DecidableEq, Repr

/-- `next_digit` on a source byte just read (R83). -/
def digitOfByte (b : Byte) (sp : Nat) : EditStep SourceDigit :=
  if 9 < (hiNib b).toNat then .badDigit
  else if 9 < (loNib b).toNat then .more ⟨hiNib b, some (loNib b), sp + 1, .high⟩
  else .more ⟨hiNib b, none, sp, .low b⟩

/-- `next_digit` (R83). The source window grows byte by byte and must lie in the buffer (R33). -/
def nextDigit (memSize : Nat) (e : EditState) : EditStep SourceDigit :=
  match e.half with
  | .low sb => .more ⟨loNib sb, none, e.sp + 1, .high⟩
  | .high => if e.sp < memSize then digitOfByte (e.mem.read e.sp) e.sp else .outside

/-- The register value with the mark address a1 + k in bits 23:0 and the caller's bits 31:24 (R22, R88). -/
def markReg (regIn : Word) (a1 k : Nat) : Word := regIn.extractLsb' 24 8 ++ BitVec.ofNat 24 (a1 + k)

/-- The mark event at pattern byte k (R88). -/
def markEvent (policy : MarkPolicy) (regIn : Word) (a1 : Nat) (e : EditState) : EditState :=
  if policy = .everyStart ∨ e.armed then
    { e with reg := markReg regIn a1 e.k, armed := if policy = .firstPerField then false else e.armed }
  else e

/-- The sign effect: a plus sign clears significance, a minus sign leaves it (R85). -/
def signEffect (sign : Option Nibble) (e : EditState) : EditState :=
  match sign with
  | some c => if plusSign c then { e with sig := false } else e
  | none => e

/-- A digit selector or significance starter that took digit d with sign `sign` (R84, R85, R88, R91). -/
def editDigit (policy : MarkPolicy) (regIn : Word) (a1 : Nat) (starter : Bool) (d : Nibble) (sign : Option Nibble)
    (e : EditState) : EditState :=
  let stored : EditState :=
    if e.sig || d != 0 then
      let marked := if e.sig then e else markEvent policy regIn a1 e
      { marked with sig := true, mem := e.mem.write (a1 + e.k) (mkByte zone d) }
    else { e with sig := starter, mem := e.mem.write (a1 + e.k) e.fill }
  signEffect sign { stored with fz := e.fz && d == 0, k := e.k + 1 }

/-- A selector of either kind: takes the next source digit, then edits (R84). -/
def editSelector (cfg : Config) (regIn : Word) (a1 : Nat) (starter : Bool) (e : EditState) : EditStep EditState :=
  match nextDigit cfg.memSize e with
  | .more x => .more (editDigit cfg.markPolicy regIn a1 starter x.digit x.sign { e with sp := x.sp, half := x.half })
  | .badDigit => .badDigit
  | .outside => .outside

/-- A field separator (R86, R91). -/
def editSeparator (a1 : Nat) (e : EditState) : EditState :=
  { e with mem := e.mem.write (a1 + e.k) e.fill, sig := false, fz := true, armed := true, k := e.k + 1 }

/-- A message byte p (R87, R91). -/
def editMessage (a1 : Nat) (p : Byte) (e : EditState) : EditState :=
  { e with mem := e.mem.write (a1 + e.k) (if e.sig then p else e.fill), k := e.k + 1 }

/-- One pattern byte (R91). -/
def editByte (cfg : Config) (regIn : Word) (a1 : Nat) (e : EditState) : EditStep EditState :=
  match patternClass (e.mem.read (a1 + e.k)) with
  | .digitSelector => editSelector cfg regIn a1 false e
  | .significanceStarter => editSelector cfg regIn a1 true e
  | .fieldSeparator => .more (editSeparator a1 e)
  | .message => .more (editMessage a1 (e.mem.read (a1 + e.k)) e)

/-- The state at the start of a request: significance off, field-zero on, the fill byte read (R27, R81). -/
def editStart (mem : Memory) (a1 a2 : Nat) (regIn : Word) : EditState where
  sig := false
  fz := true
  fill := mem.read a1
  k := 0
  sp := a2
  half := .high
  armed := true
  reg := regIn
  mem := mem

/-- How an edit ends (R89, R90). -/
inductive EditEnd where
  /-- All pattern bytes are done. -/
  | done (e : EditState)
  /-- DATA at the pattern byte the state stands at. -/
  | data (e : EditState)
  /-- The source window leaves the buffer. -/
  | outside
  deriving DecidableEq, Repr

/-- The scan of the n pattern bytes that are left (R91). -/
def editLoop (cfg : Config) (regIn : Word) (a1 : Nat) : Nat → EditState → EditEnd
  | 0, e => .done e
  | n + 1, e =>
    match editByte cfg regIn a1 e with
    | .more e' => editLoop cfg regIn a1 n e'
    | .badDigit => .data e
    | .outside => .outside

/-- The response of an edit: the code of R89, or DATA with the caller's code and the mark so far (R90). -/
def editResult (s : State) (cc : CondCode) : EditEnd → Result
  | .done e => .next (s.respond e.mem ⟨.none, ccEdit e.fz e.sig, some e.reg, .none⟩)
  | .data e => raiseWith s e.mem .data cc (some e.reg) .none
  | .outside => .refused .windowOutsideBuffer

/-- EDMK (R91). -/
def execEdmk (a1 : Addr) (l1 : Len1) (a2 : Addr) (reg : Word) (cc : CondCode) (s : State) : Result :=
  unlessRefused (refusalEdit s a1 l1 a2) <|
    editResult s cc (editLoop s.cfg reg a1.toNat l1.toNat (editStart s.mem a1.toNat a2.toNat reg))

end Sys2Proof.Machine
end

