-- ==== Sys2Proof/Machine/Move.lean ====
section
/-! DEFINITION. The moves (45_convert_move.md): MVO, PACK, UNPK. Each goes from the rightmost byte leftward and
interleaves its reads and writes (R41), so overlapping windows follow `OVERLAP_MODE = SEQUENTIAL` (R42). -/

namespace Sys2Proof.Machine

/-- The loop of MVO: n bytes of operand 1 and m of operand 2 are left, `carry` goes into the next low nibble. -/
def mvoLoop (a1 a2 : Nat) : (n m : Nat) → (carry : Nibble) → Memory → Memory
  | 0, _, _, mem => mem
  | n + 1, m + 1, carry, mem =>
    mvoLoop a1 a2 n m (hiNib (mem.read (a2 + m)))
      (mem.write (a1 + n) (mkByte (loNib (mem.read (a2 + m))) carry))
  | n + 1, 0, carry, mem => mvoLoop a1 a2 n 0 0 (mem.write (a1 + n) (mkByte 0 carry))

/-- The memory effect of MVO: operand 1's rightmost nibble stays, operand 2's nibbles go to its left (R97). -/
def mvoMemory (mem : Memory) (a1 l1 a2 l2 : Nat) : Memory :=
  let b1 := mem.read (a1 + (l1 - 1))
  let b2 := mem.read (a2 + (l2 - 1))
  mvoLoop a1 a2 (l1 - 1) (l2 - 1) (hiNib b2) (mem.write (a1 + (l1 - 1)) (mkByte (loNib b2) (loNib b1)))

/-- MVO (R97). -/
def execMvo (a1 : Addr) (l1 : Len1) (a2 : Addr) (l2 : Len2) (cc : CondCode) (s : State) : Result :=
  unlessRefused (refusalMove s a1 l1 a2 l2) <|
    complete s (mvoMemory s.mem a1.toNat l1.toNat a2.toNat l2.toNat) cc

/-- The digit of the last of m zoned bytes at a2, or 0 where none is left (R98). -/
def zonedDigit (mem : Memory) (a2 : Nat) : (m : Nat) → Nibble
  | 0 => 0
  | m + 1 => loNib (mem.read (a2 + m))

/-- The loop of PACK: n bytes of operand 1 and m of operand 2 are left (R98). -/
def packLoop (a1 a2 : Nat) : (n m : Nat) → Memory → Memory
  | 0, _, mem => mem
  | n + 1, m, mem =>
    packLoop a1 a2 n (m - 2) (mem.write (a1 + n) (mkByte (zonedDigit mem a2 (m - 1)) (zonedDigit mem a2 m)))

/-- The memory effect of PACK: the rightmost source byte's nibbles swapped, then two digits a byte (R98). -/
def packMemory (mem : Memory) (a1 l1 a2 l2 : Nat) : Memory :=
  let b := mem.read (a2 + (l2 - 1))
  packLoop a1 a2 (l1 - 1) (l2 - 1) (mem.write (a1 + (l1 - 1)) (mkByte (loNib b) (hiNib b)))

/-- PACK (R98). -/
def execPack (a1 : Addr) (l1 : Len1) (a2 : Addr) (l2 : Len2) (cc : CondCode) (s : State) : Result :=
  unlessRefused (refusalMove s a1 l1 a2 l2) <|
    complete s (packMemory s.mem a1.toNat l1.toNat a2.toNat l2.toNat) cc

/-- UNPK (R99): the codec's unpack with zone X'F' and the sign kept; the returned sign is discarded. -/
def execUnpk (a1 : Addr) (l1 : Len1) (a2 : Addr) (l2 : Len2) (cc : CondCode) (s : State) : Result :=
  unlessRefused (refusalMove s a1 l1 a2 l2) <|
    complete s (unpackZoned s.mem a2.toNat l2.toNat a1.toNat l1.toNat zone true).1 cc

end Sys2Proof.Machine
end

