-- ==== Sys2Proof/Machine/MulDiv.lean ====
section
/-! DEFINITION. The multiply and divide engines (42_multiply_divide.md): MP, DP. -/

namespace Sys2Proof.Machine

/-- The illegal length pairs of MP and DP (R76). -/
def illegalLengths (l1 : Len1) (l2 : Len2) : Bool := decide (8 < l2.toNat ∨ l1.toNat ≤ l2.toNat)

/-- Some byte of the leftmost n bytes of operand 1 is not zero (R77). -/
def leadingNonzero (m : Memory) (a n : Nat) : Bool := (m.readBytes a n).any (fun b => b != 0)

/-- `MP_ZERO_CHECK_EXC` as an interruption code (R77). -/
def zeroCheckCode : ZeroCheckExc → InterruptionCode
  | .specification => .specification
  | .data => .data

/-- MP (R77), its checks in the order of R79. -/
def execMp (a1 : Addr) (l1 : Len1) (a2 : Addr) (l2 : Len2) (cc : CondCode) (s : State) : Result :=
  unlessRefused (refusalTwoFields s a1 l1 a2 l2) <|
    if illegalLengths l1 l2 then raise s .specification cc
    else if leadingNonzero s.mem a1.toNat l2.toNat then raise s (zeroCheckCode s.cfg.mpZeroCheck) cc
    else
      withDecoded s cc a1 l1 a2 l2 fun v1 v2 =>
        complete s (packedEncode s.mem (v1 * v2) a1.toNat l1.toNat) cc

/-- The quotient does not fit in the leftmost L1 − L2 bytes (R78, R65). -/
def quotientOverflow (q : Int) (l1 : Len1) (l2 : Len2) : Bool := encodeOverflow q (l1.toNat - l2.toNat)

/-- The quotient in the leftmost L1 − L2 bytes of operand 1, then the remainder in the rightmost L2 (R78). -/
def storeQuotient (m : Memory) (q r : Int) (a1 : Addr) (l1 : Len1) (l2 : Len2) : Memory :=
  packedEncode (packedEncode m q a1.toNat (l1.toNat - l2.toNat)) r (a1.toNat + (l1.toNat - l2.toNat)) l2.toNat

/-- DP (R78), its checks in the order of R79. The division truncates toward zero (R9: trunc_div, trunc_rem). -/
def execDp (a1 : Addr) (l1 : Len1) (a2 : Addr) (l2 : Len2) (cc : CondCode) (s : State) : Result :=
  unlessRefused (refusalTwoFields s a1 l1 a2 l2) <|
    if illegalLengths l1 l2 then raise s .specification cc
    else
      withDecoded s cc a1 l1 a2 l2 fun v1 v2 =>
        if v2 = 0 then raise s .decimalDivide cc
        else if quotientOverflow (v1.tdiv v2) l1 l2 then raise s .decimalDivide cc
        else complete s (storeQuotient s.mem (v1.tdiv v2) (v1.tmod v2) a1 l1 l2) cc

end Sys2Proof.Machine
end

