-- ==== Sys2Proof/Machine/ShiftRound.lean ====
section
/-! DEFINITION. The shift-and-round unit (44_shift_and_round.md): SRP. -/

namespace Sys2Proof.Machine

/-- Right shift of a magnitude by k ≥ 1 with rounding digit r: the leftmost digit shifted out decides the carry
(R92). -/
def shiftRight (m k r : Nat) : Nat :=
  if r ≠ 0 ∧ 9 - r < m / 10 ^ (k - 1) % 10 then m / 10 ^ k + 1 else m / 10 ^ k

/-- Left shift of a magnitude by n in a field of `cap` digits: the digits that stay, and the overflow flag (R93). -/
def shiftLeft (m n cap : Nat) : Nat × Bool := (m * 10 ^ n % 10 ^ cap, decide (10 ^ cap ≤ m * 10 ^ n))

/-- Writes the shifted digits, with sign C for a zero result without overflow, else the operand's sign (R94). -/
def storeShifted (s : State) (a1 : Addr) (l1 : Len1) (res : Nat) (ovf neg : Bool) : Result :=
  let sign := if res = 0 ∧ !ovf then plusCode else if neg then minusCode else plusCode
  complete s (s.mem.writeBytes a1.toNat (packField res sign l1.toNat)) (ccShift res ovf neg)

/-- SRP (R94). -/
def execSrp (a1 : Addr) (l1 : Len1) (sh : ShiftField) (i3 : Nibble) (cc : CondCode) (s : State) : Result :=
  unlessRefused (refusalOneField s a1 l1) <|
    if !packedIsValid s.mem a1.toNat l1.toNat then raise s .data cc
    else if 9 < i3.toNat then raise s .data cc
    else
      let field := s.mem.readBytes a1.toNat l1.toNat
      let neg := minusSign (signNib field)
      let m := fieldMagnitude field
      let n := shiftAmount s.cfg.shiftWidth sh
      if m = 0 then storeShifted s a1 l1 0 false false
      else if n = 0 then storeShifted s a1 l1 m false neg
      else if 0 < n then
        let t := shiftLeft m n.toNat (capacity l1.toNat)
        storeShifted s a1 l1 t.1 t.2 neg
      else storeShifted s a1 l1 (shiftRight m (-n).toNat i3.toNat) false neg

end Sys2Proof.Machine
end

