-- ==== Sys2Proof/Machine/Dispatch.lean ====
section
/-! DEFINITION. The dispatch: one arm per instruction (30_encoding.md rule R51). -/

namespace Sys2Proof.Machine

def exec (i : Instr) (s : State) : Host.Outcome State Fault Refusal :=
  match i with
  | .ap a1 l1 a2 l2 cc => Sys2Proof.Machine.execAp a1 l1 a2 l2 cc s
  | .sp a1 l1 a2 l2 cc => Sys2Proof.Machine.execSp a1 l1 a2 l2 cc s
  | .cp a1 l1 a2 l2 cc => Sys2Proof.Machine.execCp a1 l1 a2 l2 cc s
  | .zap a1 l1 a2 l2 cc => Sys2Proof.Machine.execZap a1 l1 a2 l2 cc s
  | .mp a1 l1 a2 l2 cc => Sys2Proof.Machine.execMp a1 l1 a2 l2 cc s
  | .dp a1 l1 a2 l2 cc => Sys2Proof.Machine.execDp a1 l1 a2 l2 cc s
  | .edmk a1 l1 a2 reg cc => Sys2Proof.Machine.execEdmk a1 l1 a2 reg cc s
  | .srp a1 l1 sh i3 cc => Sys2Proof.Machine.execSrp a1 l1 sh i3 cc s
  | .cvb a2 cc => Sys2Proof.Machine.execCvb a2 cc s
  | .cvd a2 val cc => Sys2Proof.Machine.execCvd a2 val cc s
  | .mvo a1 l1 a2 l2 cc => Sys2Proof.Machine.execMvo a1 l1 a2 l2 cc s
  | .pack a1 l1 a2 l2 cc => Sys2Proof.Machine.execPack a1 l1 a2 l2 cc s
  | .unpk a1 l1 a2 l2 cc => Sys2Proof.Machine.execUnpk a1 l1 a2 l2 cc s

end Sys2Proof.Machine
end

