-- ==== Sys2Proof/Machine/Step.lean ====
section
/-! DEFINITION. The step: one request is one step (00_scope.md rule R12; 20_memory.md rule R43; R123). -/

namespace Sys2Proof.Machine

/-- A request word that stands for no instruction is refused by name (R52, R109). -/
def refusalOf : DecodeReject → Refusal
  | .unknownOp => .unknownOperation
  | .reservedBits => .reservedBitsNonzero

/-- One step: the pending request is taken from the port and runs to its response. With no request pending nothing
starts (R114), and the step changes nothing (assumption log 5). -/
def step (s : State) : Host.Outcome State Fault Refusal :=
  match s.request with
  | none => .next s
  | some q =>
    match decode q with
    | .ok i => exec i s.takeRequest
    | .error e => .refused (refusalOf e)

/-- The state with the request of an opcode-table word at the port, so that the next step runs it
(assumption log 3). -/
def State.withFetchWord (s : State) (nbits w : Nat) : State := s.submit (tableRequest nbits w)

end Sys2Proof.Machine
end

