-- ==== Sys2Proof/Safety.lean ====
section
/-! DEFINITION. The terms the statements use: the operand windows of each instruction (20_memory.md rule R34),
the requests inside the interface (60_exceptions.md rule R109), the invariant of the machine, and a safe step. -/

namespace Sys2Proof

open Machine

/-- A byte range [base, base + len) (R14). -/
structure Window where
  base : Nat
  len : Nat
  deriving DecidableEq, Repr

/-- The address lies in the window. -/
abbrev Window.holds (w : Window) (a : Nat) : Prop := w.base ≤ a ∧ a < w.base + w.len

/-- The window lies in a buffer of that size, and does not wrap (R33). -/
abbrev Window.fits (w : Window) (memSize : Nat) : Prop := w.base + w.len ≤ memSize

/-- The windows have an address in common. -/
abbrev Window.meets (v w : Window) : Prop :=
  0 < v.len ∧ 0 < w.len ∧ v.base < w.base + w.len ∧ w.base < v.base + v.len

/-- The window of an operand. -/
def windowOf {n : Nat} (a : Addr) (len : BitVec n) : Window := ⟨a.toNat, len.toNat⟩

/-- The window an instruction writes (R34): operand 1, or CVD's operand; CP and CVB write none. -/
def Instr.writes : Instr → Option Window
  | .ap a1 l1 _ _ _ => some (windowOf a1 l1)
  | .sp a1 l1 _ _ _ => some (windowOf a1 l1)
  | .cp _ _ _ _ _ => none
  | .zap a1 l1 _ _ _ => some (windowOf a1 l1)
  | .mp a1 l1 _ _ _ => some (windowOf a1 l1)
  | .dp a1 l1 _ _ _ => some (windowOf a1 l1)
  | .edmk a1 l1 _ _ _ => some (windowOf a1 l1)
  | .srp a1 l1 _ _ _ => some (windowOf a1 l1)
  | .cvb _ _ => none
  | .cvd a2 _ _ => some ⟨a2.toNat, 8⟩
  | .mvo a1 l1 _ _ _ => some (windowOf a1 l1)
  | .pack a1 l1 _ _ _ => some (windowOf a1 l1)
  | .unpk a1 l1 _ _ _ => some (windowOf a1 l1)

/-- The windows whose bounds the request itself gives (R34). The length of EDMK's source is the number of source
bytes consumed, of which the request gives the bound 0. -/
def Instr.fixedWindows : Instr → List Window
  | .ap a1 l1 a2 l2 _ => [windowOf a1 l1, windowOf a2 l2]
  | .sp a1 l1 a2 l2 _ => [windowOf a1 l1, windowOf a2 l2]
  | .cp a1 l1 a2 l2 _ => [windowOf a1 l1, windowOf a2 l2]
  | .zap a1 l1 a2 l2 _ => [windowOf a1 l1, windowOf a2 l2]
  | .mp a1 l1 a2 l2 _ => [windowOf a1 l1, windowOf a2 l2]
  | .dp a1 l1 a2 l2 _ => [windowOf a1 l1, windowOf a2 l2]
  | .edmk a1 l1 a2 _ _ => [windowOf a1 l1, ⟨a2.toNat, 0⟩]
  | .srp a1 l1 _ _ _ => [windowOf a1 l1]
  | .cvb a2 _ => [⟨a2.toNat, 8⟩]
  | .cvd a2 _ _ => [⟨a2.toNat, 8⟩]
  | .mvo a1 l1 a2 l2 _ => [windowOf a1 l1, windowOf a2 l2]
  | .pack a1 l1 a2 l2 _ => [windowOf a1 l1, windowOf a2 l2]
  | .unpk a1 l1 a2 l2 _ => [windowOf a1 l1, windowOf a2 l2]

/-- The digit selectors and significance starters among the n pattern bytes at a: the source bytes an edit of that
pattern reads are at most so many (R83). -/
def selectorCount (m : Memory) (a n : Nat) : Nat :=
  (m.readBytes a n).countP (fun p => p == 0x20 || p == 0x21)

/-- EDMK's source window, bounded by its pattern's selectors (R83); other instructions have none. -/
def Instr.sourceWindow (m : Memory) : Instr → Option Window
  | .edmk a1 l1 a2 _ _ => some ⟨a2.toNat, selectorCount m a1.toNat l1.toNat⟩
  | _ => none

/-- The windows an instruction may touch: EDMK's source bounded by L1 (R83: m ≤ L1). -/
def Instr.windows : Instr → List Window
  | .edmk a1 l1 a2 reg cc => ⟨a2.toNat, l1.toNat⟩ :: Instr.fixedWindows (.edmk a1 l1 a2 reg cc)
  | i => i.fixedWindows

/-- The two windows of MVO, PACK, UNPK and EDMK that `OVERLAP_MODE = REFUSE` keeps apart, EDMK's source taken at its
largest (R42, R91). -/
def Instr.keptApart : Instr → Option (Window × Window)
  | .edmk a1 l1 a2 _ _ => some (windowOf a1 l1, ⟨a2.toNat, l1.toNat⟩)
  | .mvo a1 l1 a2 l2 _ => some (windowOf a1 l1, windowOf a2 l2)
  | .pack a1 l1 a2 l2 _ => some (windowOf a1 l1, windowOf a2 l2)
  | .unpk a1 l1 a2 l2 _ => some (windowOf a1 l1, windowOf a2 l2)
  | _ => none

/-- The windows `OVERLAP_MODE` says something about are apart, or the mode is SEQUENTIAL (R42). -/
def Instr.overlapAllowed (i : Instr) (cfg : Config) : Prop :=
  cfg.overlapMode = .refuse → ∀ v w, i.keptApart = some (v, w) → ¬ v.meets w

/-- What the request itself must meet (R109): lengths, windows, overlap. -/
structure Instr.InsideInterface (i : Instr) (cfg : Config) : Prop where
  lengths : i.wellFormed = true
  windows : ∀ w ∈ i.fixedWindows, w.fits cfg.memSize
  overlap : i.overlapAllowed cfg

/-- A request the machine answers: inside the interface, and for EDMK with room for as many source bytes as its pattern
has selectors, which is more than it needs where a byte gives two digits (R33, R83; `sourceBytes`). -/
structure Instr.Admissible (i : Instr) (s : State) : Prop extends i.InsideInterface s.cfg where
  source : ∀ w, i.sourceWindow s.mem = some w → w.fits s.cfg.memSize

/-- Nibble p of the field at a, as a number: the high half of byte p div 2 for even p, the low half for odd p (R35,
R60). -/
def nibbleAt (m : Memory) (a p : Nat) : Nat :=
  if p % 2 = 0 then (m.read (a + p / 2)).toNat / 16 else (m.read (a + p / 2)).toNat % 16

/-- The byte at x as an operation reads it that stores leftward from `right` and has stored n bytes (R41): what it
leaves there, where x is one of those, else what stood there before. -/
def readWhenWritten (before after : Memory) (right n x : Nat) : Byte :=
  if x ≤ right ∧ right < x + n then after.read x else before.read x

/-- The source bytes at a that c digits consume (R83): a byte gives two digits, or one where its low nibble is a sign. -/
def sourceBytes (m : Memory) : (a c : Nat) → Nat
  | _, 0 => 0
  | _, 1 => 1
  | a, c + 2 =>
    if (m.read a).toNat % 16 ≤ 9 then 1 + sourceBytes m (a + 1) c else 1 + sourceBytes m (a + 1) (c + 1)

/-- EDMK's scan has done the pattern bytes before e.k (R91). -/
def ScanReaches (s : State) (a1 : Addr) (a2 : Addr) (reg : Word) (e : EditState) : Prop :=
  editLoop s.cfg reg a1.toNat e.k (editStart s.mem a1.toNat a2.toNat reg) = .done e

/-- The pattern byte at k takes a source digit (R80, R83). -/
def SelectorAt (s : State) (a1 : Addr) (k : Nat) : Prop :=
  s.mem.read (a1.toNat + k) = 0x20 ∨ s.mem.read (a1.toNat + k) = 0x21

/-- EDMK's scan stands at a selector whose source byte lies at MEM_SIZE or beyond (R33, R83). -/
def SourceLeavesAt (s : State) (a1 : Addr) (l1 : Len1) (a2 : Addr) (reg : Word) (e : EditState) : Prop :=
  e.k < l1.toNat ∧ ScanReaches s a1 a2 reg e ∧ SelectorAt s a1 e.k ∧ e.half = .high ∧ s.cfg.memSize ≤ e.sp

/-- EDMK has a mark event at pattern byte k: a selector that takes a digit other than zero while significance is off
(R88). -/
def MarkEventAt (s : State) (a1 : Addr) (l1 : Len1) (a2 : Addr) (reg : Word) (k : Nat) : Prop :=
  k < l1.toNat ∧ SelectorAt s a1 k ∧
    ∃ e x, e.k = k ∧ ScanReaches s a1 a2 reg e ∧ e.sig = false ∧ nextDigit s.cfg.memSize e = .more x ∧ x.digit ≠ 0

/-- `CC_IN` of a request (R19: used by all). -/
def Instr.ccIn : Instr → CondCode
  | .ap _ _ _ _ cc => cc
  | .sp _ _ _ _ cc => cc
  | .cp _ _ _ _ cc => cc
  | .zap _ _ _ _ cc => cc
  | .mp _ _ _ _ cc => cc
  | .dp _ _ _ _ cc => cc
  | .edmk _ _ _ _ cc => cc
  | .srp _ _ _ _ cc => cc
  | .cvb _ cc => cc
  | .cvd _ _ cc => cc
  | .mvo _ _ _ _ cc => cc
  | .pack _ _ _ _ cc => cc
  | .unpk _ _ _ _ cc => cc

/-- The interruption codes an operation can raise (R100, column "raised by"). -/
def Instr.mayRaise : Instr → List InterruptionCode
  | .ap _ _ _ _ _ => [.data]
  | .sp _ _ _ _ _ => [.data]
  | .cp _ _ _ _ _ => [.data]
  | .zap _ _ _ _ _ => [.data]
  | .mp _ _ _ _ _ => [.specification, .data]
  | .dp _ _ _ _ _ => [.specification, .data, .decimalDivide]
  | .edmk _ _ _ _ _ => [.data]
  | .srp _ _ _ _ _ => [.data]
  | .cvb _ _ => [.data, .fixedPointDivide]
  | .cvd _ _ _ => []
  | .mvo _ _ _ _ _ => []
  | .pack _ _ _ _ _ => []
  | .unpk _ _ _ _ _ => []

/-- EDMK, the one operation that defines REG_OUT (R22). -/
def Instr.isEdmk : Instr → Bool
  | .edmk _ _ _ _ _ => true
  | _ => false

/-- CVB, the one operation that defines VAL_OUT (R23). -/
def Instr.isCvb : Instr → Bool
  | .cvb _ _ => true
  | _ => false

/-- The operations that leave the condition code as it was (R20, last row). -/
def Instr.passesCondCode : Instr → Bool
  | .mp _ _ _ _ _ => true
  | .dp _ _ _ _ _ => true
  | .cvb _ _ => true
  | .cvd _ _ _ => true
  | .mvo _ _ _ _ _ => true
  | .pack _ _ _ _ _ => true
  | .unpk _ _ _ _ _ => true
  | _ => false

/-- A response the block can give (R20 to R24, R100, R104). -/
def responseLegal (r : Response) : Bool :=
  match r.ic, r.regOut, r.valOut with
  | .none, some _, some _ => false
  | .none, _, _ => true
  | .specification, none, none => true
  | .data, _, none => true
  | .fixedPointDivide, none, some _ => true
  | .decimalDivide, none, none => true
  | _, _, _ => false

/-- The invariant: legal parameters, a buffer in canonical form that lists no address outside it (R32), and a
response that is legal where there is one. -/
structure Inv (s : State) : Prop where
  config : s.cfg.wf = true
  canonical : s.mem.wf = true
  inside : ∀ c ∈ s.mem, c.1 < s.cfg.memSize
  response : ∀ r, s.response = some r → responseLegal r = true

/-- A safe step: it answers a next state. -/
def SafeStep (s : State) : Prop := ∃ t, step s = .next t

end Sys2Proof
end

