-- ==== Sys2Proof/Certificates/Slice0/Obligations.lean ====
section
/-! DEFINITION. The statements for the provers, from the numbered rules of spec/. Each docstring names the rules a
statement formalises, or says that it is derived and from what. -/

open Sys2Proof Sys2Proof.Machine

/-! ## Encoding -/

/-- The instruction's request carries that OP value, and the source instruction has that format (R51, R53 to R56). -/
def Sys2Proof.EncodedAs (i : Instr) (op : BitVec 8) (format : SourceFormat) : Prop :=
  (encode i).extractLsb' 152 8 = op ∧ sourceFormat op = some format

/-- The common fields of a two-operand request word (R47). -/
def Sys2Proof.TwoFieldsAt (q : RequestWord) (a1 : Addr) (l1 : Len1) (a2 : Addr) (l2 : Len2) (cc : CondCode) : Prop :=
  q.extractLsb' 128 24 = a1 ∧ q.extractLsb' 119 9 = l1 ∧ q.extractLsb' 84 24 = a2 ∧ q.extractLsb' 114 5 = l2 ∧
    q.extractLsb' 108 2 = cc

/-- The request word selects the instruction by its OP value (R51) and holds each field the instruction uses at its
bits (R47); a field it does not use is not looked at. -/
def Sys2Proof.ReadsAs (q : RequestWord) : Instr → Prop
  | .ap a1 l1 a2 l2 cc => q.extractLsb' 152 8 = 0xFA ∧ TwoFieldsAt q a1 l1 a2 l2 cc
  | .sp a1 l1 a2 l2 cc => q.extractLsb' 152 8 = 0xFB ∧ TwoFieldsAt q a1 l1 a2 l2 cc
  | .cp a1 l1 a2 l2 cc => q.extractLsb' 152 8 = 0xF9 ∧ TwoFieldsAt q a1 l1 a2 l2 cc
  | .zap a1 l1 a2 l2 cc => q.extractLsb' 152 8 = 0xF8 ∧ TwoFieldsAt q a1 l1 a2 l2 cc
  | .mp a1 l1 a2 l2 cc => q.extractLsb' 152 8 = 0xFC ∧ TwoFieldsAt q a1 l1 a2 l2 cc
  | .dp a1 l1 a2 l2 cc => q.extractLsb' 152 8 = 0xFD ∧ TwoFieldsAt q a1 l1 a2 l2 cc
  | .edmk a1 l1 a2 reg cc =>
    q.extractLsb' 152 8 = 0xDF ∧ q.extractLsb' 128 24 = a1 ∧ q.extractLsb' 119 9 = l1 ∧ q.extractLsb' 84 24 = a2 ∧
      q.extractLsb' 28 32 = reg ∧ q.extractLsb' 108 2 = cc
  | .srp a1 l1 sh i3 cc =>
    q.extractLsb' 152 8 = 0xF0 ∧ q.extractLsb' 128 24 = a1 ∧ q.extractLsb' 119 9 = l1 ∧ q.extractLsb' 60 24 = sh ∧
      q.extractLsb' 110 4 = i3 ∧ q.extractLsb' 108 2 = cc
  | .cvb a2 cc => q.extractLsb' 152 8 = 0x4F ∧ q.extractLsb' 84 24 = a2 ∧ q.extractLsb' 108 2 = cc
  | .cvd a2 val cc =>
    q.extractLsb' 152 8 = 0x4E ∧ q.extractLsb' 84 24 = a2 ∧ q.extractLsb' 28 32 = val ∧ q.extractLsb' 108 2 = cc
  | .mvo a1 l1 a2 l2 cc => q.extractLsb' 152 8 = 0xF1 ∧ TwoFieldsAt q a1 l1 a2 l2 cc
  | .pack a1 l1 a2 l2 cc => q.extractLsb' 152 8 = 0xF2 ∧ TwoFieldsAt q a1 l1 a2 l2 cc
  | .unpk a1 l1 a2 l2 cc => q.extractLsb' 152 8 = 0xF3 ∧ TwoFieldsAt q a1 l1 a2 l2 cc

/-- Derived (30_encoding.md sections 1 and 2): encoding loses no bit of any instruction. -/
def Obligations.DecodeInvertsEncode : Prop :=
  ∀ i : Instr, decode (encode i) = .ok i

/-- R47, R51: a request word decodes to an instruction exactly when its reserved bits are zero, its OP is the
instruction's, and the instruction's fields stand at the bits R47 gives them. -/
def Obligations.DecodeReadsTheFieldsOfQ : Prop :=
  ∀ (q : RequestWord) (i : Instr), decode q = .ok i ↔ q.extractLsb' 0 28 = 0 ∧ ReadsAs q i

/-- Derived (R52, R109): an OP outside the thirteen values, or a reserved bit that is not zero, is refused and gets no
response; nothing else is refused for that reason. That a word with both faults is refused for its reserved bits is the
model's choice (assumption log 9): R52 and R109 give no order. -/
def Obligations.IllegalRequestWordsAreRefused : Prop :=
  ∀ (s : State) (q : RequestWord), s.request = some q →
    ((step s = .refused .reservedBitsNonzero ↔ q.extractLsb' 0 28 ≠ 0) ∧
      (step s = .refused .unknownOperation ↔
        q.extractLsb' 0 28 = 0 ∧
          q.extractLsb' 152 8 ∉
            ([0x4E, 0x4F, 0xDF, 0xF0, 0xF1, 0xF2, 0xF3, 0xF8, 0xF9, 0xFA, 0xFB, 0xFC, 0xFD] : List (BitVec 8))))

/-- Derived (R47, R51): request words written out from R47 decode to what they stand for. -/
def Obligations.SampleRequestWordsDecode : Prop :=
  decode (0xFA#8 ++ 0x000100#24 ++ 2#9 ++ 1#5 ++ 0#4 ++ 3#2 ++ 0x000200#24 ++ 0#24 ++ 0#32 ++ 0#28) =
      .ok (.ap 0x100 2 0x200 1 3) ∧
    decode (0xF0#8 ++ 0x001040#24 ++ 5#9 ++ 0#5 ++ 5#4 ++ 0#2 ++ 0#24 ++ 0x00003F#24 ++ 0#32 ++ 0#28) =
      .ok (.srp 0x1040 5 0x3F 5 0) ∧
    decode (0xDF#8 ++ 0x001030#24 ++ 256#9 ++ 0#5 ++ 0#4 ++ 1#2 ++ 0x001024#24 ++ 0#24 ++ 0xAB000000#32 ++ 0#28) =
      .ok (.edmk 0x1030 256 0x1024 0xAB000000 1) ∧
    decode (0x4E#8 ++ 0#24 ++ 0#9 ++ 0#5 ++ 0#4 ++ 0#2 ++ 0x001020#24 ++ 0#24 ++ 0xFFFFCFC7#32 ++ 0#28) =
      .ok (.cvd 0x1020 0xFFFFCFC7 0)

/-- Derived (R53 to R57): reading back the bytes of a source instruction gives that instruction, its length is the
one its opcode tells, and the bytes after it are left. -/
def Obligations.SourceDecodeInvertsSourceEncode : Prop :=
  ∀ (si : SourceInstr) (rest : List Byte), sourceFormat si.op = some si.format →
    sourceDecode (sourceEncode si ++ rest) = some (si, rest) ∧ (sourceEncode si).length = sourceLength si.op

/-- Derived (R48, R53 to R56): whatever the caller's registers hold, the request it builds from a source instruction
is a well-formed request for the operation of that opcode. -/
def Obligations.SourceRequestsAreWellFormed : Prop :=
  ∀ (c : Caller) (si : SourceInstr), sourceFormat si.op = some si.format →
    ∃ i, decode (si.toRequest c).toWord = .ok i ∧ i.wellFormed = true ∧ (encode i).extractLsb' 152 8 = si.op ∧
      i.ccIn = c.cc

/-! ## The step and reset -/

/-- Derived (R12, R43 rule 1, R123): one request is one step, and a step runs the instruction the pending request
decodes to, with the request taken from the port. -/
def Obligations.StepRunsTheDecodedRequest : Prop :=
  ∀ (s : State) (q : RequestWord) (i : Instr), s.request = some q → decode q = .ok i →
    step s = exec i s.takeRequest

/-- Derived; the model's choice (assumption log 5), from R114's "Nothing starts them but a request": a step with no
request pending changes nothing. -/
def Obligations.NothingStartsWithoutARequest : Prop :=
  ∀ s : State, s.request = none → step s = .next s

/-- Derived (R116): after reset no request is pending and no response is defined, and a reset of any state changes
nothing else. -/
def Obligations.ResetSetsNothingElse : Prop :=
  State.reset.request = none ∧ State.reset.response = none ∧
    ∀ s : State, s.afterReset.request = none ∧ s.afterReset.response = none ∧ s.afterReset.mem = s.mem ∧
      s.afterReset.cfg = s.cfg

/-! ## The whole machine -/

/-- Derived (R8, R20 to R24, R32, R100): every step keeps the invariant. -/
def Obligations.StepKeepsInvariant : Prop :=
  ∀ s t : State, Inv s → step s = .next t → Inv t

/-- Derived: the invariant holds right after reset (with the parameters of assumption log 2). -/
def Obligations.ResetMeetsInvariant : Prop := Inv State.reset

/-- Derived (R15, R33, R34, R69): an instruction changes no byte outside the window R34 gives it to write, and neither
the parameters nor the request port; CP and CVB change no byte at all. -/
def Obligations.WritesStayInTheWindow : Prop :=
  ∀ (i : Instr) (s t : State), exec i s = .next t →
    t.cfg = s.cfg ∧ t.request = s.request ∧
      (i.writes = none → t.mem = s.mem) ∧
      ∀ a, (∀ w, i.writes = some w → ¬ w.holds a) → t.mem.read a = s.mem.read a

/-- Derived (R12, R33): two machines with the same parameters that agree on the instruction's windows (EDMK's source
at its bound m ≤ L1) answer alike: the same response and the same bytes in the window they write, or the same
refusal. -/
def Obligations.ResultDependsOnTheWindowsOnly : Prop :=
  ∀ (i : Instr) (s s' : State), s.cfg = s'.cfg →
    (∀ w ∈ i.windows, ∀ a, w.holds a → s.mem.read a = s'.mem.read a) →
      (∃ t t', exec i s = .next t ∧ exec i s' = .next t' ∧ t.response = t'.response ∧
        ∀ w, i.writes = some w → ∀ a, w.holds a → t.mem.read a = t'.mem.read a) ∨
      (∃ r, exec i s = .refused r ∧ exec i s' = .refused r)

/-- R105: every exception answers the condition code of the request. -/
def Obligations.ExceptionsKeepTheConditionCode : Prop :=
  ∀ (i : Instr) (s t : State) (r : Response), exec i s = .next t → t.response = some r → r.ic ≠ .none →
    r.cc = i.ccIn

/-- Derived (R106, its first point; EDMK's DATA has its own statement): every exception of an operation other than
EDMK leaves memory as it was before the request. -/
def Obligations.SuppressingExceptionsLeaveMemory : Prop :=
  ∀ (i : Instr) (s t : State) (r : Response), exec i s = .next t → t.response = some r → r.ic ≠ .none →
    i.isEdmk = false → t.mem = s.mem

/-- Derived (R100): a response holds one of the five codes, each with its value, and an operation raises only the codes the
table names it under. -/
def Obligations.InterruptionCodesPerOperation : Prop :=
  (InterruptionCode.none.code = 0x0000 ∧ InterruptionCode.specification.code = 0x0006 ∧
      InterruptionCode.data.code = 0x0007 ∧ InterruptionCode.fixedPointDivide.code = 0x0009 ∧
      InterruptionCode.decimalDivide.code = 0x000B) ∧
    ∀ (i : Instr) (s t : State) (r : Response), exec i s = .next t → t.response = some r →
      r.ic = .none ∨ r.ic ∈ i.mayRaise

/-- R24: REG_OUT has a value exactly in EDMK's responses, VAL_OUT exactly in those of a CVB that did not raise DATA;
elsewhere they are absent. -/
def Obligations.UndefinedOutputsAreAbsent : Prop :=
  ∀ (i : Instr) (s t : State) (r : Response), exec i s = .next t → t.response = some r →
    ((r.regOut.isSome = true ↔ i.isEdmk = true) ∧
      (r.valOut.isSome = true ↔ i.isCvb = true ∧ r.ic ≠ .data))

/-- Derived (R20): MP, DP, CVB, CVD, MVO, PACK and UNPK pass the condition code through, and only AP, SP, ZAP and
SRP can set it to 3. -/
def Obligations.ConditionCodesPerOperation : Prop :=
  ∀ (i : Instr) (s t : State) (r : Response), exec i s = .next t → t.response = some r →
    (i.passesCondCode = true → r.cc = i.ccIn) ∧
      (r.ic = .none → r.cc = 3 → i.passesCondCode = true ∨
        (∃ a1 l1 a2 l2 cc, i = .ap a1 l1 a2 l2 cc ∨ i = .sp a1 l1 a2 l2 cc ∨ i = .zap a1 l1 a2 l2 cc) ∨
        (∃ a1 l1 sh i3 cc, i = .srp a1 l1 sh i3 cc))

/-- Derived (R33, R42, R48, R109, R124): every admissible request gets a response in one step. The bound on EDMK's
source is its pattern's selectors; EditAnswersUnlessTheSourceLeaves says the same of the bytes it consumes. -/
def Obligations.AdmissibleRequestsComplete : Prop :=
  ∀ (i : Instr) (s : State), i.Admissible s →
    ∃ t r, exec i s = .next t ∧ t.response = some r ∧ t.cfg = s.cfg ∧ t.request = s.request

/-- Derived (R33, R42, R48, R83, R109; the model's choices of assumption log 6 and log 10): a request whose lengths,
windows or overlap are outside the interface is refused, EDMK's source window taken with no byte consumed, so also an
EDMK with A2 > MEM_SIZE that reads no source (log 6, DEDUCED); an EDMK whose pattern takes a digit while A2 is no address
of the buffer is refused; and so is one whose scan comes to a selector that needs a source byte at MEM_SIZE or beyond,
where the source is checked as it is consumed (log 10, DEDUCED). -/
def Obligations.RequestsOutsideTheInterfaceAreRefused : Prop :=
  (∀ (i : Instr) (s : State), ¬ i.InsideInterface s.cfg →
    ∃ why, exec i s = .refused why ∧
      why ∈ [Refusal.lengthOutOfRange, Refusal.windowOutsideBuffer, Refusal.overlappingWindows]) ∧
  (∀ (a1 : Addr) (l1 : Len1) (a2 : Addr) (reg : Word) (cc : CondCode) (s : State),
    1 ≤ selectorCount s.mem a1.toNat l1.toNat → s.cfg.memSize ≤ a2.toNat →
      ∃ why, exec (.edmk a1 l1 a2 reg cc) s = .refused why) ∧
  ∀ (a1 : Addr) (l1 : Len1) (a2 : Addr) (reg : Word) (cc : CondCode) (s : State) (e : EditState),
    (Instr.edmk a1 l1 a2 reg cc).InsideInterface s.cfg → SourceLeavesAt s a1 l1 a2 reg e →
      exec (.edmk a1 l1 a2 reg cc) s = .refused .windowOutsideBuffer

/-! ## The codec -/

/-- R65: a value fits a field of L bytes, and encode reports no overflow, exactly when its magnitude has at most
2L − 1 decimal digits. -/
def Obligations.FitIsTheDigitCount : Prop :=
  ∀ (v : Int) (len : Nat), encodeOverflow v len = false ↔ (Nat.digits 10 v.natAbs).length ≤ 2 * len - 1

/-- R67: for every value of at most 2L − 1 digits, encode reports no overflow and decode reads the value back. -/
def Obligations.PackedRoundTrip : Prop :=
  ∀ (m : Memory) (v : Int) (a len : Nat), 1 ≤ len → (Nat.digits 10 v.natAbs).length ≤ 2 * len - 1 →
    encodeOverflow v len = false ∧ packedDecode (packedEncode m v a len) a len = some v

/-- R66: encode writes sign C for a non-negative value and D for a negative one, no other code, and an all-zero field
with sign D exactly when the value is negative and its low-order 2L − 1 digits are zero, which is an overflow. -/
def Obligations.EncodedSignIsPreferred : Prop :=
  ∀ (m : Memory) (v : Int) (a len : Nat), 1 ≤ len →
    let field := (packedEncode m v a len).readBytes a len
    signNib field = (if v < 0 then 0xD else 0xC) ∧
      ((fieldMagnitude field = 0 ∧ signNib field = 0xD) ↔ (v < 0 ∧ v.natAbs % 10 ^ (2 * len - 1) = 0)) ∧
      (fieldMagnitude field = 0 → signNib field = 0xD → encodeOverflow v len = true)

/-- Derived (R59 to R62): decode fails exactly when a digit position holds a nibble above 9 or the sign nibble is below
10, and a decoded magnitude is at most 10^(2L−1) − 1. That a field of one byte has a digit position, which is checked, is
R61's loop, R60 and V-CD-8 against R61's corner case "only the sign is checked" (assumption log 16). -/
def Obligations.DecodeRejectsExactlyMalformedFields : Prop :=
  ∀ (m : Memory) (a len : Nat), 1 ≤ len →
    (packedDecode m a len = none ↔
      (∃ p < 2 * len - 1, 9 < (nib (m.readBytes a len) p).toNat) ∨ (signNib (m.readBytes a len)).toNat < 10) ∧
    ∀ v, packedDecode m a len = some v → v.natAbs ≤ 10 ^ (2 * len - 1) - 1

/-- Derived (R35, R59, R60, R62): digit p of a decoded magnitude, its weight 10^(2L−2−p), is nibble p of the field, there
are no more digits than those, and the value is negative exactly when it is not zero and the sign nibble is B or D. -/
def Obligations.DecodedDigitsAreTheNibbles : Prop :=
  ∀ (m : Memory) (a len : Nat) (v : Int), 1 ≤ len → packedDecode m a len = some v →
    (∀ p < 2 * len - 1, v.natAbs / 10 ^ (2 * len - 2 - p) % 10 = nibbleAt m a p) ∧
      v.natAbs / 10 ^ (2 * len - 1) = 0 ∧
      (v < 0 ↔ v ≠ 0 ∧ (nibbleAt m a (2 * len - 1) = 0xB ∨ nibbleAt m a (2 * len - 1) = 0xD))

/-- R64: with N = 2L − 1 and t the low-order N digits of the magnitude, encode writes t div 10^(N−1−p) mod 10 at nibble
p, sign D for a negative value and C for another at the last nibble, all L bytes of its window and none outside it, and
reports overflow when the magnitude is at least 10^N. -/
def Obligations.EncodePlacesTheDigits : Prop :=
  ∀ (m : Memory) (v : Int) (a len : Nat), 1 ≤ len →
    let after := packedEncode m v a len
    let t := v.natAbs % 10 ^ (2 * len - 1)
    after.readBytes a len = encodeField v len ∧
      (∀ p < 2 * len - 1, nibbleAt after a p = t / 10 ^ (2 * len - 2 - p) % 10) ∧
      nibbleAt after a (2 * len - 1) = (if v < 0 then 0xD else 0xC) ∧
      (∀ b, b < a ∨ a + len ≤ b → after.read b = m.read b) ∧
      (encodeOverflow v len = true ↔ 10 ^ (2 * len - 1) ≤ v.natAbs)

/-- Derived (R69): encode writes no byte outside its window and unpack none outside its zoned window, and what unpack
writes there depends on its two windows only. -/
def Obligations.CodecStaysInItsWindows : Prop :=
  (∀ (m : Memory) (v : Int) (a len b : Nat), b < a ∨ a + len ≤ b → (packedEncode m v a len).read b = m.read b) ∧
  (∀ (m : Memory) (ap lp az lz b : Nat) (fill : Nibble) (keep : Bool), 1 ≤ lz → b < az ∨ az + lz ≤ b →
    (unpackZoned m ap lp az lz fill keep).1.read b = m.read b) ∧
  ∀ (m m' : Memory) (ap lp az lz : Nat) (fill : Nibble) (keep : Bool), 1 ≤ lp → 1 ≤ lz →
    (∀ b, (ap ≤ b ∧ b < ap + lp) ∨ (az ≤ b ∧ b < az + lz) → m.read b = m'.read b) →
    (unpackZoned m ap lp az lz fill keep).2 = (unpackZoned m' ap lp az lz fill keep).2 ∧
      ∀ b, az ≤ b → b < az + lz →
        (unpackZoned m ap lp az lz fill keep).1.read b = (unpackZoned m' ap lp az lz fill keep).1.read b

/-- Derived (R68), for windows that do not overlap: counted from the right, zoned byte 0 takes the sign (or the fill)
and the rightmost digit, zoned byte r the fill and digit r, and the bytes beyond the source's digits a zero digit; the
sign nibble is returned. -/
def Obligations.UnpackPlacesTheDigits : Prop :=
  ∀ (m : Memory) (ap lp az lz : Nat) (fill : Nibble) (keep : Bool), 1 ≤ lp → 1 ≤ lz →
    ap + lp ≤ az ∨ az + lz ≤ ap →
    (unpackZoned m ap lp az lz fill keep).2 = signNib (m.readBytes ap lp) ∧
      ∀ r < lz,
        (unpackZoned m ap lp az lz fill keep).1.read (az + (lz - 1 - r)) =
          mkByte (if r = 0 ∧ keep = true then signNib (m.readBytes ap lp) else fill)
            (if r ≤ 2 * lp - 2 then nib (m.readBytes ap lp) (2 * lp - 2 - r) else 0)

/-! ## AP, SP, CP, ZAP -/

/-- The answer of AP, SP and ZAP for the exact result r: r encoded over operand 1 and the code of R71. -/
def Sys2Proof.arithAnswer (s : State) (a1 : Addr) (l1 : Len1) (r : Int) : State :=
  { s with
    mem := s.mem.writeBytes a1.toNat (encodeField r l1.toNat)
    response := some
      { ic := .none
        cc := if 10 ^ (2 * l1.toNat - 1) ≤ r.natAbs then 3 else if r = 0 then 0 else if r < 0 then 1 else 2
        regOut := none
        valOut := none } }

/-- The value with the low-order digits of r that fit L bytes and the sign of r. -/
def Sys2Proof.truncatedValue (r : Int) (len : Nat) : Int :=
  (if r < 0 then -1 else 1) * ((r.natAbs % 10 ^ (2 * len - 1) : Nat) : Int)

/-- Derived (R71 to R73, R75): with two valid operands AP, SP and ZAP complete, store the sum, the difference or
operand 2 over operand 1 with the code of R71 and nothing else, and the field then decodes to the result, or on
overflow to its low-order digits with its sign. -/
def Obligations.ArithmeticResults : Prop :=
  ∀ (a1 : Addr) (l1 : Len1) (a2 : Addr) (l2 : Len2) (cc : CondCode) (s : State) (v1 v2 : Int),
    (Instr.ap a1 l1 a2 l2 cc).InsideInterface s.cfg →
    packedDecode s.mem a1.toNat l1.toNat = some v1 → packedDecode s.mem a2.toNat l2.toNat = some v2 →
    exec (.ap a1 l1 a2 l2 cc) s = .next (arithAnswer s a1 l1 (v1 + v2)) ∧
      exec (.sp a1 l1 a2 l2 cc) s = .next (arithAnswer s a1 l1 (v1 - v2)) ∧
      exec (.zap a1 l1 a2 l2 cc) s = .next (arithAnswer s a1 l1 v2) ∧
      ∀ r : Int, packedDecode (arithAnswer s a1 l1 r).mem a1.toNat l1.toNat = some (truncatedValue r l1.toNat)

/-- R74: CP (OP X'F9', format SS with two lengths) completes with 0 for equal values, 1 for a smaller and 2 for a larger
operand 1, whatever codes and lengths the fields have, and changes nothing else; an invalid operand of either side raises
DATA instead. -/
def Obligations.CompareResults : Prop :=
  ∀ (a1 : Addr) (l1 : Len1) (a2 : Addr) (l2 : Len2) (cc : CondCode) (s : State),
    (Instr.cp a1 l1 a2 l2 cc).InsideInterface s.cfg →
    EncodedAs (.cp a1 l1 a2 l2 cc) 0xF9 .ssTwo ∧
    (∀ v1 v2 : Int, packedDecode s.mem a1.toNat l1.toNat = some v1 → packedDecode s.mem a2.toNat l2.toNat = some v2 →
      exec (.cp a1 l1 a2 l2 cc) s =
        .next { s with response := some ⟨.none, if v1 = v2 then 0 else if v1 < v2 then 1 else 2, none, none⟩ }) ∧
    (packedDecode s.mem a1.toNat l1.toNat = none ∨ packedDecode s.mem a2.toNat l2.toNat = none →
      exec (.cp a1 l1 a2 l2 cc) s = .next { s with response := some ⟨.data, cc, none, none⟩ })

/-- Derived (R70, R101, R108): an operand that does not decode raises DATA, with memory and the condition code as they
were: AP, SP, CP and ZAP; MP and DP once their length check, and MP's zero check, have passed; CVB; SRP, which also
raises it for a rounding digit above 9. -/
def Obligations.MalformedOperandsRaiseData : Prop :=
  ∀ (a1 : Addr) (l1 : Len1) (a2 : Addr) (l2 : Len2) (sh : ShiftField) (i3 : Nibble) (cc : CondCode) (s : State),
    let dataAnswer : Result := .next { s with response := some ⟨.data, cc, none, none⟩ }
    ((Instr.ap a1 l1 a2 l2 cc).InsideInterface s.cfg →
      packedDecode s.mem a1.toNat l1.toNat = none ∨ packedDecode s.mem a2.toNat l2.toNat = none →
      exec (.ap a1 l1 a2 l2 cc) s = dataAnswer ∧ exec (.sp a1 l1 a2 l2 cc) s = dataAnswer ∧
        exec (.cp a1 l1 a2 l2 cc) s = dataAnswer ∧ exec (.zap a1 l1 a2 l2 cc) s = dataAnswer ∧
        (l2.toNat ≤ 8 → l2.toNat < l1.toNat →
          exec (.dp a1 l1 a2 l2 cc) s = dataAnswer ∧
            ((∀ j < l2.toNat, s.mem.read (a1.toNat + j) = 0) → exec (.mp a1 l1 a2 l2 cc) s = dataAnswer))) ∧
    ((Instr.cvb a2 cc).InsideInterface s.cfg → packedDecode s.mem a2.toNat 8 = none →
      exec (.cvb a2 cc) s = dataAnswer) ∧
    ((Instr.srp a1 l1 sh i3 cc).InsideInterface s.cfg →
      packedDecode s.mem a1.toNat l1.toNat = none ∨ 9 < i3.toNat → exec (.srp a1 l1 sh i3 cc) s = dataAnswer)

/-! ## MP, DP -/

/-- R76: MP and DP raise SPECIFICATION when L2 > 8 or L2 ≥ L1, whatever the operands hold, and change nothing else. -/
def Obligations.IllegalLengthsRaiseSpecification : Prop :=
  ∀ (a1 : Addr) (l1 : Len1) (a2 : Addr) (l2 : Len2) (cc : CondCode) (s : State),
    (Instr.mp a1 l1 a2 l2 cc).InsideInterface s.cfg → 8 < l2.toNat ∨ l1.toNat ≤ l2.toNat →
    exec (.mp a1 l1 a2 l2 cc) s = .next { s with response := some ⟨.specification, cc, none, none⟩ } ∧
      exec (.dp a1 l1 a2 l2 cc) s = .next { s with response := some ⟨.specification, cc, none, none⟩ }

/-- Derived (R77, R102, R79 step 2): with legal lengths, a byte that is not zero among the leftmost L2 of operand 1
raises the interruption the parameter names, even where an operand does not decode. -/
def Obligations.MultiplyNeedsLeadingZeroBytes : Prop :=
  ∀ (a1 : Addr) (l1 : Len1) (a2 : Addr) (l2 : Len2) (cc : CondCode) (s : State),
    (Instr.mp a1 l1 a2 l2 cc).InsideInterface s.cfg → l2.toNat ≤ 8 → l2.toNat < l1.toNat →
    (∃ j < l2.toNat, s.mem.read (a1.toNat + j) ≠ 0) →
    exec (.mp a1 l1 a2 l2 cc) s =
      .next { s with
        response := some
          ⟨if s.cfg.mpZeroCheck = .specification then .specification else .data, cc, none, none⟩ }

/-- Derived (R77 and its corner case "the product always fits"): with legal lengths, leading zero bytes and two valid
operands, MP completes, stores the product over operand 1, leaves the condition code, and the field decodes to the
exact product. -/
def Obligations.MultiplyStoresTheExactProduct : Prop :=
  ∀ (a1 : Addr) (l1 : Len1) (a2 : Addr) (l2 : Len2) (cc : CondCode) (s : State) (v1 v2 : Int),
    (Instr.mp a1 l1 a2 l2 cc).InsideInterface s.cfg → l2.toNat ≤ 8 → l2.toNat < l1.toNat →
    (∀ j < l2.toNat, s.mem.read (a1.toNat + j) = 0) →
    packedDecode s.mem a1.toNat l1.toNat = some v1 → packedDecode s.mem a2.toNat l2.toNat = some v2 →
    exec (.mp a1 l1 a2 l2 cc) s =
        .next { s with
          mem := s.mem.writeBytes a1.toNat (encodeField (v1 * v2) l1.toNat)
          response := some ⟨.none, cc, none, none⟩ } ∧
      packedDecode (s.mem.writeBytes a1.toNat (encodeField (v1 * v2) l1.toNat)) a1.toNat l1.toNat = some (v1 * v2)

/-- Derived (R78 and its corner cases): with legal lengths, two valid operands, a divisor that is not zero and a
quotient of at most 2(L1−L2) − 1 digits, DP completes, leaves the condition code and writes operand 1 only; the two
fields hold the encodings of, and decode to, a quotient and a remainder with dividend = divisor · quotient + remainder,
|remainder| < |divisor|, a remainder that is zero or has the dividend's sign, and a quotient truncated toward zero. Each
field has sign D for a negative number and else C, so a zero has sign C. -/
def Obligations.DivideStoresQuotientAndRemainder : Prop :=
  ∀ (a1 : Addr) (l1 : Len1) (a2 : Addr) (l2 : Len2) (cc : CondCode) (s : State) (v1 v2 : Int),
    (Instr.dp a1 l1 a2 l2 cc).InsideInterface s.cfg → l2.toNat ≤ 8 → l2.toNat < l1.toNat →
    packedDecode s.mem a1.toNat l1.toNat = some v1 → packedDecode s.mem a2.toNat l2.toNat = some v2 → v2 ≠ 0 →
    (Nat.digits 10 (v1.natAbs / v2.natAbs)).length ≤ 2 * (l1.toNat - l2.toNat) - 1 →
    ∃ (t : State) (q r : Int),
      exec (.dp a1 l1 a2 l2 cc) s = .next t ∧ t.response = some ⟨.none, cc, none, none⟩ ∧
        t.cfg = s.cfg ∧ t.request = s.request ∧
        packedDecode t.mem a1.toNat (l1.toNat - l2.toNat) = some q ∧
        packedDecode t.mem (a1.toNat + (l1.toNat - l2.toNat)) l2.toNat = some r ∧
        t.mem.readBytes a1.toNat (l1.toNat - l2.toNat) = encodeField q (l1.toNat - l2.toNat) ∧
        t.mem.readBytes (a1.toNat + (l1.toNat - l2.toNat)) l2.toNat = encodeField r l2.toNat ∧
        nibbleAt t.mem a1.toNat (2 * (l1.toNat - l2.toNat) - 1) = (if q < 0 then 0xD else 0xC) ∧
        nibbleAt t.mem (a1.toNat + (l1.toNat - l2.toNat)) (2 * l2.toNat - 1) = (if r < 0 then 0xD else 0xC) ∧
        v1 = v2 * q + r ∧ r.natAbs < v2.natAbs ∧ (r = 0 ∨ r.sign = v1.sign) ∧
        q = v1.sign * v2.sign * ((v1.natAbs / v2.natAbs : Nat) : Int) ∧
        ∀ a, a < a1.toNat ∨ a1.toNat + l1.toNat ≤ a → t.mem.read a = s.mem.read a

/-- Derived (R78, R103): with legal lengths and two valid operands, DP raises DECIMAL_DIVIDE, with nothing else changed,
exactly when the divisor is zero or the quotient has more than 2(L1−L2) − 1 digits. -/
def Obligations.DecimalDivideConditions : Prop :=
  ∀ (a1 : Addr) (l1 : Len1) (a2 : Addr) (l2 : Len2) (cc : CondCode) (s : State) (v1 v2 : Int),
    (Instr.dp a1 l1 a2 l2 cc).InsideInterface s.cfg → l2.toNat ≤ 8 → l2.toNat < l1.toNat →
    packedDecode s.mem a1.toNat l1.toNat = some v1 → packedDecode s.mem a2.toNat l2.toNat = some v2 →
    (exec (.dp a1 l1 a2 l2 cc) s = .next { s with response := some ⟨.decimalDivide, cc, none, none⟩ } ↔
      v2 = 0 ∨ 2 * (l1.toNat - l2.toNat) - 1 < (Nat.digits 10 (v1.natAbs / v2.natAbs)).length)

/-! ## SRP -/

/-- Derived (R49): the shift amount is the low 5 (or 6) bits of SH as a signed number; the rest of SH is ignored. -/
def Obligations.ShiftAmountIsSignExtended : Prop :=
  ∀ sh : ShiftField,
    (shiftAmount .five sh =
      if sh.toNat % 32 < 16 then ((sh.toNat % 32 : Nat) : Int) else ((sh.toNat % 32 : Nat) : Int) - 32) ∧
    (shiftAmount .six sh =
      if sh.toNat % 64 < 32 then ((sh.toNat % 64 : Nat) : Int) else ((sh.toNat % 64 : Nat) : Int) - 64)

/-- Derived (R92): for a rounding digit r ≤ 9 the right shift by k ≥ 1 is (m + r·10^(k−1)) div 10^k; it never leaves the
field, is 0 when k exceeds the number of digits of m, and 0 or 1 when k equals it. -/
def Obligations.RightShiftRounds : Prop :=
  ∀ m k r : Nat, 1 ≤ k → r ≤ 9 →
    shiftRight m k r = (m + r * 10 ^ (k - 1)) / 10 ^ k ∧
      (∀ n, 1 ≤ n → m < 10 ^ n → shiftRight m k r < 10 ^ n) ∧
      ((Nat.digits 10 m).length < k → shiftRight m k r = 0) ∧
      ((Nat.digits 10 m).length = k → shiftRight m k r ≤ 1)

/-- The magnitude SRP computes and whether it overflows, for the shift amount n (R92, R93). -/
def Sys2Proof.shiftedMagnitude (m : Nat) (n : Int) (digit len : Nat) : Nat × Bool :=
  if 0 ≤ n then
    (m * 10 ^ n.toNat % 10 ^ (2 * len - 1), decide (10 ^ (2 * len - 1) ≤ m * 10 ^ n.toNat))
  else ((m + digit * 10 ^ ((-n).toNat - 1)) / 10 ^ (-n).toNat, false)

/-- Derived (R92 to R94, and the zero operand and zero shift of R94): with a valid operand and a rounding digit of at most
9, SRP completes with the code 3, 0, 1 or 2 of R94; its field decodes to the shifted magnitude with the operand's sign,
its sign nibble is D for a negative operand unless the result is a zero without overflow, else C, and no byte outside
operand 1 changes. -/
def Obligations.ShiftAndRoundResults : Prop :=
  ∀ (a1 : Addr) (l1 : Len1) (sh : ShiftField) (i3 : Nibble) (cc : CondCode) (s : State) (v : Int),
    (Instr.srp a1 l1 sh i3 cc).InsideInterface s.cfg → i3.toNat ≤ 9 →
    packedDecode s.mem a1.toNat l1.toNat = some v →
    let res := shiftedMagnitude v.natAbs (shiftAmount s.cfg.shiftWidth sh) i3.toNat l1.toNat
    ∃ t, exec (.srp a1 l1 sh i3 cc) s = .next t ∧
      t.response = some
        ⟨.none, if res.2 = true then 3 else if res.1 = 0 then 0 else if v < 0 then 1 else 2, none, none⟩ ∧
      packedDecode t.mem a1.toNat l1.toNat = some ((if v < 0 then -1 else 1) * (res.1 : Int)) ∧
      signNib (t.mem.readBytes a1.toNat l1.toNat) =
        (if v < 0 ∧ (res.1 ≠ 0 ∨ res.2 = true) then 0xD else 0xC) ∧
      t.cfg = s.cfg ∧ t.request = s.request ∧
      ∀ a, a < a1.toNat ∨ a1.toNat + l1.toNat ≤ a → t.mem.read a = s.mem.read a

/-! ## CVB, CVD -/

/-- R95: CVB (OP X'4F', format RX) completes with the low 32 bits of the decoded value and the condition code as it was, FIXED_POINT_DIVIDE
when the value is outside the signed 32-bit range, and DATA with no value when the field does not decode; memory is
never written. -/
def Obligations.ConvertToBinaryResults : Prop :=
  ∀ (a2 : Addr) (cc : CondCode) (s : State), (Instr.cvb a2 cc).InsideInterface s.cfg →
    EncodedAs (.cvb a2 cc) 0x4F .rx ∧
    (∀ v : Int, packedDecode s.mem a2.toNat 8 = some v →
      (-(2 ^ 31) ≤ v ∧ v ≤ 2 ^ 31 - 1 →
        exec (.cvb a2 cc) s = .next { s with response := some ⟨.none, cc, none, some (BitVec.ofInt 32 v)⟩ }) ∧
      (v < -(2 ^ 31) ∨ 2 ^ 31 - 1 < v →
        exec (.cvb a2 cc) s =
          .next { s with response := some ⟨.fixedPointDivide, cc, none, some (BitVec.ofInt 32 v)⟩ })) ∧
    (packedDecode s.mem a2.toNat 8 = none →
      exec (.cvb a2 cc) s = .next { s with response := some ⟨.data, cc, none, none⟩ })

/-- R96: CVD (OP X'4E', format RX) completes with the signed value of VAL_IN encoded in the 8 bytes at A2, which then decode to it, and the
condition code as it was; no other byte changes. -/
def Obligations.ConvertToDecimalResults : Prop :=
  ∀ (a2 : Addr) (val : Word) (cc : CondCode) (s : State), (Instr.cvd a2 val cc).InsideInterface s.cfg →
    EncodedAs (.cvd a2 val cc) 0x4E .rx ∧
    exec (.cvd a2 val cc) s =
        .next { s with
          mem := s.mem.writeBytes a2.toNat (encodeField val.toInt 8)
          response := some ⟨.none, cc, none, none⟩ } ∧
      encodeOverflow val.toInt 8 = false ∧
      packedDecode (s.mem.writeBytes a2.toNat (encodeField val.toInt 8)) a2.toNat 8 = some val.toInt

/-- Derived (R95, R96): CVB reads back, without exception, the value CVD stored. -/
def Obligations.BinaryDecimalRoundTrip : Prop :=
  ∀ (a2 : Addr) (val : Word) (cc cc' : CondCode) (s t : State), exec (.cvd a2 val cc) s = .next t →
    exec (.cvb a2 cc') t = .next { t with response := some ⟨.none, cc', none, some val⟩ }

/-! ## MVO, PACK, UNPK -/

/-- Nibble r of a field counted from the right, 0 the sign position. -/
def Sys2Proof.nibFromRight (field : List Byte) (r : Nat) : Nibble := nib field (2 * field.length - 1 - r)

/-- Derived (R41, R42, R97): MVO completes by its byte-by-byte order on any request inside the interface; where the windows
do not overlap, or operand 2 ends no further right than operand 1 (in place, for one), operand 1 keeps its rightmost
nibble and takes operand 2's nibbles, as they were, to its left, then zeros. -/
def Obligations.MoveWithOffsetResults : Prop :=
  ∀ (a1 : Addr) (l1 : Len1) (a2 : Addr) (l2 : Len2) (cc : CondCode) (s : State),
    (Instr.mvo a1 l1 a2 l2 cc).InsideInterface s.cfg →
    exec (.mvo a1 l1 a2 l2 cc) s =
        .next { s with
          mem := mvoMemory s.mem a1.toNat l1.toNat a2.toNat l2.toNat
          response := some ⟨.none, cc, none, none⟩ } ∧
      (¬ (windowOf a1 l1).meets (windowOf a2 l2) ∨ a2.toNat + l2.toNat ≤ a1.toNat + l1.toNat →
        ∀ r < 2 * l1.toNat,
          nibFromRight
              ((mvoMemory s.mem a1.toNat l1.toNat a2.toNat l2.toNat).readBytes a1.toNat l1.toNat) r =
            if r = 0 then nibFromRight (s.mem.readBytes a1.toNat l1.toNat) 0
            else if r - 1 < 2 * l2.toNat then nibFromRight (s.mem.readBytes a2.toNat l2.toNat) (r - 1) else 0)

/-- Derived (R41, R42, R98 and its corner case of PACK in place): PACK completes by its byte-by-byte order on any request
inside the interface; where the windows do not overlap, or operand 2 ends no further right than operand 1 (A1 = A2 and
L1 = L2, for one), the sign position takes the zone of the rightmost source byte, the digit positions take the low
nibbles of the source bytes, as they were, from the right, then zeros. -/
def Obligations.PackResults : Prop :=
  ∀ (a1 : Addr) (l1 : Len1) (a2 : Addr) (l2 : Len2) (cc : CondCode) (s : State),
    (Instr.pack a1 l1 a2 l2 cc).InsideInterface s.cfg →
    exec (.pack a1 l1 a2 l2 cc) s =
        .next { s with
          mem := packMemory s.mem a1.toNat l1.toNat a2.toNat l2.toNat
          response := some ⟨.none, cc, none, none⟩ } ∧
      (¬ (windowOf a1 l1).meets (windowOf a2 l2) ∨ a2.toNat + l2.toNat ≤ a1.toNat + l1.toNat →
        ∀ r < 2 * l1.toNat,
          nibFromRight
              ((packMemory s.mem a1.toNat l1.toNat a2.toNat l2.toNat).readBytes a1.toNat l1.toNat) r =
            if r = 0 then hiNib (s.mem.read (a2.toNat + (l2.toNat - 1)))
            else if r - 1 < l2.toNat then loNib (s.mem.read (a2.toNat + (l2.toNat - 1 - (r - 1)))) else 0)

/-- Derived (R41, R42, R68, R99): UNPK completes by its byte-by-byte order on any request inside the interface; where the
windows do not overlap, or operand 1 ends at least L2 − 2 bytes further right than operand 2, zoned byte 0 from the right takes the source's sign as its zone, every other the zone F, and the digits
follow from the right, then zeros. -/
def Obligations.UnpackResults : Prop :=
  ∀ (a1 : Addr) (l1 : Len1) (a2 : Addr) (l2 : Len2) (cc : CondCode) (s : State),
    (Instr.unpk a1 l1 a2 l2 cc).InsideInterface s.cfg →
    exec (.unpk a1 l1 a2 l2 cc) s =
        .next { s with
          mem := (unpackZoned s.mem a2.toNat l2.toNat a1.toNat l1.toNat 0xF true).1
          response := some ⟨.none, cc, none, none⟩ } ∧
      (¬ (windowOf a1 l1).meets (windowOf a2 l2) ∨
          a2.toNat + l2.toNat + l2.toNat ≤ a1.toNat + l1.toNat + 2 →
        ∀ r < l1.toNat,
          (unpackZoned s.mem a2.toNat l2.toNat a1.toNat l1.toNat 0xF true).1.read (a1.toNat + (l1.toNat - 1 - r)) =
            mkByte (if r = 0 then nibFromRight (s.mem.readBytes a2.toNat l2.toNat) 0 else 0xF)
              (if r + 1 < 2 * l2.toNat then nibFromRight (s.mem.readBytes a2.toNat l2.toNat) (r + 1) else 0))

/-- Derived (R41, R42, R97 to R99): what MVO, PACK and UNPK leave for any two windows, overlapping ones included, byte by
byte from the right. The byte r places from operand 1's right end (e1) is made of source bytes counted from operand 2's
right end (e2), each read as it stands when the r bytes to the right of it (for a nibble kept from the step before, the
r − 1 bytes) have been written; source positions beyond operand 2 give a zero nibble. -/
def Obligations.MovesFollowTheByteOrder : Prop :=
  ∀ (a1 : Addr) (l1 : Len1) (a2 : Addr) (l2 : Len2) (cc : CondCode) (s : State),
    let e1 := a1.toNat + l1.toNat - 1
    let e2 := a2.toNat + l2.toNat - 1
    let source (m : Memory) (r d : Nat) : Byte := if d < l2.toNat then readWhenWritten s.mem m e1 r (e2 - d) else 0
    ((Instr.mvo a1 l1 a2 l2 cc).InsideInterface s.cfg →
      ∃ t, exec (.mvo a1 l1 a2 l2 cc) s = .next t ∧
        t.mem.read e1 = mkByte (loNib (s.mem.read e2)) (loNib (s.mem.read e1)) ∧
        ∀ r, 1 ≤ r → r < l1.toNat →
          t.mem.read (e1 - r) = mkByte (loNib (source t.mem r r)) (hiNib (source t.mem (r - 1) (r - 1)))) ∧
    ((Instr.pack a1 l1 a2 l2 cc).InsideInterface s.cfg →
      ∃ t, exec (.pack a1 l1 a2 l2 cc) s = .next t ∧
        t.mem.read e1 = mkByte (loNib (s.mem.read e2)) (hiNib (s.mem.read e2)) ∧
        ∀ r, 1 ≤ r → r < l1.toNat →
          t.mem.read (e1 - r) = mkByte (loNib (source t.mem r (2 * r))) (loNib (source t.mem r (2 * r - 1)))) ∧
    ((Instr.unpk a1 l1 a2 l2 cc).InsideInterface s.cfg →
      ∃ t, exec (.unpk a1 l1 a2 l2 cc) s = .next t ∧
        t.mem.read e1 = mkByte (loNib (s.mem.read e2)) (hiNib (s.mem.read e2)) ∧
        ∀ r, 1 ≤ r → r < l1.toNat →
          t.mem.read (e1 - r) =
            mkByte 0xF
              (if r % 2 = 1 then loNib (source t.mem r ((r + 1) / 2))
                else hiNib (source t.mem (r - 1) (r / 2))))

/-- Derived (R98, R99, 90_conflicts.md C2): UNPK of a packed field of L bytes into 2L − 1 zoned bytes, then PACK of those
bytes into L bytes, gives back the packed field, whatever its nibbles are. -/
def Obligations.PackRestoresUnpackedField : Prop :=
  ∀ (p z d : Addr) (lp : Len2) (lz : Len1) (lz' : Len2) (ld : Len1) (cc cc' : CondCode) (s t u : State),
    lz.toNat = 2 * lp.toNat - 1 → lz'.toNat = lz.toNat → ld.toNat = lp.toNat →
    ¬ (windowOf z lz).meets (windowOf p lp) → ¬ (windowOf d ld).meets (windowOf z lz) →
    exec (.unpk z lz p lp cc) s = .next t → exec (.pack d ld z lz' cc') t = .next u →
    u.mem.readBytes d.toNat lp.toNat = s.mem.readBytes p.toNat lp.toNat

/-! ## EDMK -/

/-- R84, R85, and derived R88: a digit selector (X'20') or significance starter (X'21') that took digit d stores the zoned
digit when significance is on or d is not zero, else the fill byte; significance is then on unless it was off, d is zero
and the byte is a digit selector, and a plus sign clears it; field-zero stays on only for a zero digit; and a mark event
(significance off, d not zero) records A1 + k in bits 23:0 when the policy is EVERY_START or no mark of this field was
recorded. -/
def Obligations.EditSelectorTransition : Prop :=
  ∀ (cfg : Config) (regIn : Word) (a1 : Nat) (e : EditState) (x : SourceDigit),
    e.mem.read (a1 + e.k) = 0x20 ∨ e.mem.read (a1 + e.k) = 0x21 → nextDigit cfg.memSize e = .more x →
    let starter : Bool := decide (e.mem.read (a1 + e.k) = 0x21)
    let shown : Bool := e.sig || decide (x.digit ≠ 0)
    let marks : Bool := !e.sig && decide (x.digit ≠ 0) && (decide (cfg.markPolicy = .everyStart) || e.armed)
    let plus : Bool := x.sign = some 10 || x.sign = some 12 || x.sign = some 14 || x.sign = some 15
    ∃ e', editByte cfg regIn a1 e = .more e' ∧
      e'.mem = e.mem.write (a1 + e.k) (if shown then BitVec.ofNat 8 (0xF0 + x.digit.toNat) else e.fill) ∧
      e'.sig = ((shown || starter) && !plus) ∧
      e'.fz = (e.fz && decide (x.digit = 0)) ∧
      e'.reg.toNat =
        (if marks then regIn.toNat / 2 ^ 24 * 2 ^ 24 + (a1 + e.k) % 2 ^ 24 else e.reg.toNat) ∧
      e'.armed = (e.armed && !(marks && decide (cfg.markPolicy = .firstPerField))) ∧
      e'.k = e.k + 1 ∧ e'.sp = x.sp ∧ e'.half = x.half ∧ e'.fill = e.fill

/-- R86, R87: a field separator stores the fill byte and resets significance, field-zero and the mark; a message byte
stays when significance is on and becomes the fill byte when it is off; neither takes a source digit. -/
def Obligations.EditSeparatorAndMessage : Prop :=
  ∀ (cfg : Config) (regIn : Word) (a1 : Nat) (e : EditState),
    (e.mem.read (a1 + e.k) = 0x22 →
      editByte cfg regIn a1 e =
        .more { e with
          mem := e.mem.write (a1 + e.k) e.fill, sig := false, fz := true, armed := true, k := e.k + 1 }) ∧
    (e.mem.read (a1 + e.k) ≠ 0x20 → e.mem.read (a1 + e.k) ≠ 0x21 → e.mem.read (a1 + e.k) ≠ 0x22 →
      ∃ e', editByte cfg regIn a1 e = .more e' ∧
        (∀ a, e'.mem.read a = if a = a1 + e.k ∧ e.sig = false then e.fill else e.mem.read a) ∧
        e'.sig = e.sig ∧ e'.fz = e.fz ∧ e'.sp = e.sp ∧ e'.half = e.half ∧ e'.reg = e.reg ∧ e'.armed = e.armed ∧
        e'.fill = e.fill ∧ e'.k = e.k + 1)

/-- Derived (R83): a source byte whose high nibble is above 9 is DATA; one whose low nibble is above 9 gives its high
nibble as the digit, its low nibble as the sign, and the next byte after it; any other gives its high nibble, then its
low nibble without reading memory again, then the next byte. -/
def Obligations.EditTakesSourceDigits : Prop :=
  ∀ (memSize : Nat) (e : EditState), e.half = .high → e.sp < memSize →
    let b := e.mem.read e.sp
    (9 < b.toNat / 16 → nextDigit memSize e = .badDigit) ∧
    (b.toNat / 16 ≤ 9 → 9 < b.toNat % 16 →
      nextDigit memSize e = .more ⟨BitVec.ofNat 4 (b.toNat / 16), some (BitVec.ofNat 4 (b.toNat % 16)), e.sp + 1, .high⟩) ∧
    (b.toNat / 16 ≤ 9 → b.toNat % 16 ≤ 9 →
      ∃ x, nextDigit memSize e = .more x ∧ x.digit = BitVec.ofNat 4 (b.toNat / 16) ∧ x.sign = none ∧ x.sp = e.sp ∧
        ∀ (e' : EditState), e'.half = x.half → e'.sp = x.sp →
          nextDigit memSize e' = .more ⟨BitVec.ofNat 4 (b.toNat % 16), none, e.sp + 1, .high⟩)

/-- Derived (R27, R81, R89 to R91): inside the interface EDMK is the scan of its L1 pattern bytes from the state R27
gives: significance off, field-zero on, the byte at A1 as fill, position 0, the source at A2 with its high nibble next (no
current source byte, assumption log 11), a mark armed and REG_IN as the register. A finished scan is answered with the
code of R89, a bad digit with DATA, a source that leaves the buffer is refused (assumption log 10). -/
def Obligations.EditStartsFresh : Prop :=
  ∀ (a1 : Addr) (l1 : Len1) (a2 : Addr) (reg : Word) (cc : CondCode) (s : State),
    (Instr.edmk a1 l1 a2 reg cc).InsideInterface s.cfg →
    let start : EditState :=
      { sig := false, fz := true, fill := s.mem.read a1.toNat, k := 0, sp := a2.toNat, half := .high, armed := true,
        reg := reg, mem := s.mem }
    let scan := editLoop s.cfg reg a1.toNat l1.toNat start
    (∀ e, scan = .done e →
      exec (.edmk a1 l1 a2 reg cc) s =
        .next { s with
          mem := e.mem
          response := some
            ⟨.none, if e.fz = true then 0 else if e.sig = true then 1 else 2, some e.reg, none⟩ }) ∧
    (∀ e, scan = .data e →
      exec (.edmk a1 l1 a2 reg cc) s =
        .next { s with mem := e.mem, response := some ⟨.data, cc, some e.reg, none⟩ }) ∧
    (scan = .outside → exec (.edmk a1 l1 a2 reg cc) s = .refused .windowOutsideBuffer)

/-- Derived (R33, R83, R89, R91): on a request inside the interface whose source bytes, for as many as the pattern's
selectors consume, lie in the buffer and outside the pattern and hold a digit in their high nibble, EDMK completes
without exception: every pattern byte is done, and the response has the condition code of R89 (0 field-zero, else 1
significance on, else 2) and the register built. -/
def Obligations.EditCompletes : Prop :=
  ∀ (a1 : Addr) (l1 : Len1) (a2 : Addr) (reg : Word) (cc : CondCode) (s : State),
    let used := sourceBytes s.mem a2.toNat (selectorCount s.mem a1.toNat l1.toNat)
    (Instr.edmk a1 l1 a2 reg cc).InsideInterface s.cfg → a2.toNat + used ≤ s.cfg.memSize →
    (∀ j < used, (s.mem.read (a2.toNat + j)).toNat / 16 ≤ 9 ∧ ¬ (windowOf a1 l1).holds (a2.toNat + j)) →
    ∃ e, editLoop s.cfg reg a1.toNat l1.toNat (editStart s.mem a1.toNat a2.toNat reg) = .done e ∧
      e.k = l1.toNat ∧
      exec (.edmk a1 l1 a2 reg cc) s =
        .next { s with
          mem := e.mem
          response := some
            ⟨.none, if e.fz = true then 0 else if e.sig = true then 1 else 2, some e.reg, none⟩ }

/-- Derived (R33, R83, R109; the source is checked as it is consumed, assumption log 10): where the source bytes the
pattern's selectors consume, so far as they lie in the buffer, are outside the pattern and hold a digit in their high
nibble, EDMK is refused exactly when they do not all lie in the buffer. -/
def Obligations.EditNeedsTheSourceItConsumes : Prop :=
  ∀ (a1 : Addr) (l1 : Len1) (a2 : Addr) (reg : Word) (cc : CondCode) (s : State),
    let used := sourceBytes s.mem a2.toNat (selectorCount s.mem a1.toNat l1.toNat)
    (Instr.edmk a1 l1 a2 reg cc).InsideInterface s.cfg →
    (∀ j < used, a2.toNat + j < s.cfg.memSize →
      (s.mem.read (a2.toNat + j)).toNat / 16 ≤ 9 ∧ ¬ (windowOf a1 l1).holds (a2.toNat + j)) →
    (exec (.edmk a1 l1 a2 reg cc) s = .refused .windowOutsideBuffer ↔ s.cfg.memSize < a2.toNat + used)

/-- Derived (R33, R83, R109; assumption log 10): inside the interface, whatever the pattern and the source hold, EDMK is
refused exactly when its scan comes to a selector that needs a source byte at MEM_SIZE or beyond, and answers a response
on every other request. -/
def Obligations.EditAnswersUnlessTheSourceLeaves : Prop :=
  ∀ (a1 : Addr) (l1 : Len1) (a2 : Addr) (reg : Word) (cc : CondCode) (s : State),
    (Instr.edmk a1 l1 a2 reg cc).InsideInterface s.cfg →
    (exec (.edmk a1 l1 a2 reg cc) s = .refused .windowOutsideBuffer ↔ ∃ e, SourceLeavesAt s a1 l1 a2 reg e) ∧
    ((∀ e, ¬ SourceLeavesAt s a1 l1 a2 reg e) →
      ∃ t r, exec (.edmk a1 l1 a2 reg cc) s = .next t ∧ t.response = some r ∧ t.cfg = s.cfg ∧ t.request = s.request)

/-- Derived (R22, R27, R88): REG_OUT of a whole edit, finished or ended by DATA. With no mark event it is REG_IN. Under
EVERY_START it holds the address of the last mark event in bits 23:0, under FIRST_PER_FIELD that of the first mark event
of the last field that had one, fields ending at the pattern's separators; bits 31:24 are REG_IN's. -/
def Obligations.EditRegisterPerPolicy : Prop :=
  ∀ (a1 : Addr) (l1 : Len1) (a2 : Addr) (reg : Word) (cc : CondCode) (s t : State),
    let marks (k : Nat) : Prop := MarkEventAt s a1 l1 a2 reg k
    let separator (k : Nat) : Prop := s.mem.read (a1.toNat + k) = 0x22
    exec (.edmk a1 l1 a2 reg cc) s = .next t →
    ∃ r v, t.response = some r ∧ r.regOut = some v ∧
      ((∀ k, ¬ marks k) → v = reg) ∧
      (s.cfg.markPolicy = .everyStart → ∀ k, marks k → (∀ k', k < k' → ¬ marks k') →
        v.toNat = reg.toNat / 2 ^ 24 * 2 ^ 24 + (a1.toNat + k) % 2 ^ 24) ∧
      (s.cfg.markPolicy = .firstPerField → ∀ k, marks k →
        (∀ k', k' < k → marks k' → ∃ f, k' < f ∧ f < k ∧ separator f) →
        (∀ k', k < k' → marks k' → ¬ ∃ f, k < f ∧ f < k' ∧ separator f) →
        v.toNat = reg.toNat / 2 ^ 24 * 2 ^ 24 + (a1.toNat + k) % 2 ^ 24)

/-- R90: when the first k pattern bytes are done, the byte at k is a selector and its source byte has a high nibble above
9, EDMK answers DATA with the request's condition code and the memory and register built so far, the pattern bytes from k
on unchanged; and it raises DATA in no other way. -/
def Obligations.EditDataStopsAtTheFault : Prop :=
  ∀ (a1 : Addr) (l1 : Len1) (a2 : Addr) (reg : Word) (cc : CondCode) (s : State),
    let stopsAt (e : EditState) : Prop :=
      e.k < l1.toNat ∧ editLoop s.cfg reg a1.toNat e.k (editStart s.mem a1.toNat a2.toNat reg) = .done e ∧
        (s.mem.read (a1.toNat + e.k) = 0x20 ∨ s.mem.read (a1.toNat + e.k) = 0x21) ∧
        e.half = .high ∧ e.sp < s.cfg.memSize ∧ 9 < (e.mem.read e.sp).toNat / 16
    (∀ e, (Instr.edmk a1 l1 a2 reg cc).InsideInterface s.cfg → stopsAt e →
      exec (.edmk a1 l1 a2 reg cc) s =
          .next { s with mem := e.mem, response := some ⟨.data, cc, some e.reg, none⟩ } ∧
        ∀ j, e.k ≤ j → j < l1.toNat → e.mem.read (a1.toNat + j) = s.mem.read (a1.toNat + j)) ∧
    ∀ t r, exec (.edmk a1 l1 a2 reg cc) s = .next t → t.response = some r → r.ic = .data →
      ∃ e, stopsAt e ∧ t = { s with mem := e.mem, response := some ⟨.data, cc, some e.reg, none⟩ }

/-- Derived (R22): REG_OUT of EDMK, on every path, keeps bits 31:24 of REG_IN, and is REG_IN itself or holds in bits 23:0 the
address of a pattern byte. -/
def Obligations.EditRegisterKeepsTheHighByte : Prop :=
  ∀ (a1 : Addr) (l1 : Len1) (a2 : Addr) (reg : Word) (cc : CondCode) (s t : State),
    exec (.edmk a1 l1 a2 reg cc) s = .next t →
    ∃ r v, t.response = some r ∧ r.regOut = some v ∧ v.extractLsb' 24 8 = reg.extractLsb' 24 8 ∧
      (v = reg ∨ ∃ k < l1.toNat, v.extractLsb' 0 24 = BitVec.ofNat 24 (a1.toNat + k))

/-- Derived (R91, corner case): a pattern with no digit selector and no significance starter completes with CC 0 and the
register unchanged, and every pattern byte becomes the fill byte. -/
def Obligations.EditWithoutSelectorsFills : Prop :=
  ∀ (a1 : Addr) (l1 : Len1) (a2 : Addr) (reg : Word) (cc : CondCode) (s : State),
    (Instr.edmk a1 l1 a2 reg cc).InsideInterface s.cfg → selectorCount s.mem a1.toNat l1.toNat = 0 →
    ∃ t, exec (.edmk a1 l1 a2 reg cc) s = .next t ∧ t.response = some ⟨.none, 0, some reg, none⟩ ∧
      ∀ a, t.mem.read a = if (windowOf a1 l1).holds a then s.mem.read a1.toNat else s.mem.read a
end

