-- ==== Sys2Proof/Laws/Memory.lean ====
section
/-! SUPPORT. The laws of memory: read after write, the canonical form, and multi-byte accesses. -/

namespace Sys2Proof.Machine.Memory

@[simp] theorem read_nil (a : Nat) : Memory.read [] a = 0 := rfl

@[simp] theorem readBytes_zero (m : Memory) (a : Nat) : m.readBytes a 0 = [] := rfl
@[simp] theorem readBytes_succ (m : Memory) (a n : Nat) :
    m.readBytes a (n + 1) = m.read a :: m.readBytes (a + 1) n := rfl
@[simp] theorem writeBytes_nil (m : Memory) (a : Nat) : m.writeBytes a [] = m := rfl
@[simp] theorem writeBytes_cons (m : Memory) (a : Nat) (b : Byte) (bs : List Byte) :
    m.writeBytes a (b :: bs) = (m.write a b).writeBytes (a + 1) bs := rfl

theorem wf_cons {k : Nat} {b : Byte} {rest : Memory} :
    Memory.wf ((k, b) :: rest) = true ↔ b ≠ 0 ∧ (∀ c ∈ rest, k < c.1) ∧ Memory.wf rest = true := by
  simp [Memory.wf, and_assoc]

/-- An address that no entry lists reads as zero. -/
theorem read_of_unlisted {m : Memory} {a : Nat} (h : ∀ c ∈ m, c.1 ≠ a) : m.read a = 0 := by
  induction m with
  | nil => rfl
  | cons c rest ih =>
    simp [Memory.read, h c (by simp), ih fun c' hc => h c' (by simp [hc])]

theorem read_filter (m : Memory) (a a' : Nat) :
    Memory.read (m.filter (fun c => c.1 != a)) a' = if a' = a then 0 else m.read a' := by
  induction m with
  | nil => simp
  | cons c rest ih =>
    by_cases h : c.1 = a
    · by_cases h' : a' = a
      · simp_all
      · have : c.1 ≠ a' := fun hc => h' (hc ▸ h)
        simp_all [Memory.read]
    · by_cases h' : a' = a
      · have : c.1 ≠ a' := fun hc => h (hc ▸ h')
        simp_all [Memory.read]
      · simp_all [Memory.read]

theorem read_insert (m : Memory) (a a' : Nat) (v : Byte) :
    (m.insert a v).read a' = if a' = a then v else m.read a' := by
  induction m with
  | nil => simp [Memory.insert, Memory.read, eq_comm]
  | cons c rest ih =>
    obtain ⟨k, b⟩ := c
    unfold Memory.insert
    by_cases h1 : a < k
    · simp [h1, Memory.read, eq_comm]
    · by_cases h2 : a = k
      · subst h2
        by_cases h3 : a' = a
        · simp [Memory.read, h3]
        · simp [Memory.read, h3, Ne.symm h3]
      · by_cases h3 : a' = a
        · subst h3
          simp [h1, h2, Memory.read, Ne.symm h2, ih]
        · simp [h1, h2, h3, Memory.read, ih]

/-- A read after a write: the value written at its address, and what was there elsewhere. -/
theorem read_write (m : Memory) (a a' : Nat) (v : Byte) :
    (m.write a v).read a' = if a' = a then v else m.read a' := by
  unfold Memory.write
  by_cases h : v = 0
  · rw [if_pos h, read_filter, h]
  · rw [if_neg h, read_insert]

/-- A read after a write to the same address gives the value written. -/
@[simp] theorem read_write_same (m : Memory) (a : Nat) (v : Byte) : (m.write a v).read a = v := by
  rw [read_write, if_pos rfl]

/-- A write leaves every other address alone. -/
theorem read_write_of_ne (m : Memory) {a a' : Nat} (v : Byte) (h : a' ≠ a) :
    (m.write a v).read a' = m.read a' := by
  rw [read_write, if_neg h]

theorem mem_insert {m : Memory} {a : Nat} {v : Byte} {c : Host.Cell} (h : c ∈ m.insert a v) :
    c ∈ m ∨ c = (a, v) := by
  induction m with
  | nil => exact Or.inr (by simpa [Memory.insert] using h)
  | cons d rest ih =>
    obtain ⟨k, b⟩ := d
    unfold Memory.insert at h
    (repeat' split at h) <;> simp only [List.mem_cons] at h ⊢
    · tauto
    · tauto
    · rcases h with h | h
      · tauto
      · rcases ih h with h | h <;> tauto

/-- Every cell a write leaves listed was listed or is the one written. -/
theorem mem_write {m : Memory} {a : Nat} {v : Byte} {c : Host.Cell} (h : c ∈ m.write a v) :
    c ∈ m ∨ c = (a, v) := by
  unfold Memory.write at h
  split at h
  · exact Or.inl (List.mem_filter.1 h).1
  · exact mem_insert h

theorem wf_filter {m : Memory} (hm : m.wf) (p : Host.Cell → Bool) : Memory.wf (m.filter p) := by
  induction m with
  | nil => rfl
  | cons c rest ih =>
    obtain ⟨hb, hlt, hrest⟩ := wf_cons.1 hm
    rw [List.filter_cons]
    split
    · exact wf_cons.2 ⟨hb, fun d hd => hlt d (List.mem_filter.1 hd).1, ih hrest⟩
    · exact ih hrest

theorem wf_insert {m : Memory} (hm : m.wf) (a : Nat) {v : Byte} (hv : v ≠ 0) : (m.insert a v).wf := by
  induction m with
  | nil => exact wf_cons.2 ⟨hv, by simp, rfl⟩
  | cons d rest ih =>
    obtain ⟨k, b⟩ := d
    obtain ⟨hb, hlt, hrest⟩ := wf_cons.1 hm
    unfold Memory.insert
    by_cases h1 : a < k
    · rw [if_pos h1]
      refine wf_cons.2 ⟨hv, fun c hc => ?_, hm⟩
      rcases List.mem_cons.1 hc with rfl | hc
      · exact h1
      · have := hlt c hc; omega
    · by_cases h2 : a = k
      · subst h2
        rw [if_neg h1, if_pos rfl]
        exact wf_cons.2 ⟨hv, hlt, hrest⟩
      · rw [if_neg h1, if_neg h2]
        refine wf_cons.2 ⟨hb, fun c hc => ?_, ih hrest⟩
        rcases mem_insert hc with hc | rfl
        · exact hlt c hc
        · simp only; omega

/-- A write keeps the canonical form. -/
theorem wf_write {m : Memory} (hm : m.wf) (a : Nat) (v : Byte) : (m.write a v).wf := by
  unfold Memory.write
  split
  · exact wf_filter hm _
  · exact wf_insert hm a ‹_›

/-- Multi-byte writes keep the canonical form. -/
theorem wf_writeBytes {m : Memory} (hm : m.wf) (a : Nat) (bs : List Byte) : (m.writeBytes a bs).wf := by
  induction bs generalizing m a with
  | nil => exact hm
  | cons b bs ih => exact ih (wf_write hm a b) (a + 1)

/-- A multi-byte write leaves every address outside its window alone. -/
theorem read_writeBytes_outside (m : Memory) {a a' : Nat} (bs : List Byte) (h : a' < a ∨ a + bs.length ≤ a') :
    (m.writeBytes a bs).read a' = m.read a' := by
  induction bs generalizing m a with
  | nil => rfl
  | cons b bs ih =>
    simp only [List.length_cons] at h
    rw [writeBytes_cons, ih _ (by omega), read_write_of_ne _ _ (by omega)]

/-- A multi-byte write stores byte j of the sequence at address a + j. -/
theorem read_writeBytes_inside (m : Memory) (a : Nat) (bs : List Byte) {j : Nat} (h : j < bs.length) :
    (m.writeBytes a bs).read (a + j) = bs[j] := by
  induction bs generalizing m a j with
  | nil => simp at h
  | cons b bs ih =>
    cases j with
    | zero => simp [read_writeBytes_outside _ bs (Or.inl (Nat.lt_succ_self a))]
    | succ j =>
      have := ih (m.write a b) (a + 1) (j := j) (by simpa using h)
      simpa [Nat.add_assoc, Nat.add_comm 1 j] using this

/-- What a multi-byte write leaves at an address. -/
theorem read_writeBytes (m : Memory) (a a' : Nat) (bs : List Byte) :
    (m.writeBytes a bs).read a' = if a ≤ a' ∧ a' < a + bs.length then bs.getD (a' - a) 0 else m.read a' := by
  split
  · obtain ⟨h1, h2⟩ := ‹_ ∧ _›
    have hj : a' - a < bs.length := by omega
    have := read_writeBytes_inside m a bs hj
    rw [show a + (a' - a) = a' by omega] at this
    rw [this, List.getD_eq_getElem _ _ hj]
  · exact read_writeBytes_outside m bs (by omega)

@[simp] theorem length_readBytes (m : Memory) (a n : Nat) : (m.readBytes a n).length = n := by
  induction n generalizing a with
  | zero => rfl
  | succ n ih => simp [ih]

theorem getElem_readBytes (m : Memory) (a n j : Nat) (h : j < (m.readBytes a n).length) :
    (m.readBytes a n)[j] = m.read (a + j) := by
  induction n generalizing a j with
  | zero => simp at h
  | succ n ih =>
    cases j with
    | zero => simp
    | succ j => simp [ih, Nat.add_assoc, Nat.add_comm 1 j]

theorem getD_readBytes (m : Memory) (a n j : Nat) (h : j < n) : (m.readBytes a n).getD j 0 = m.read (a + j) := by
  rw [List.getD_eq_getElem _ _ (by simpa using h), getElem_readBytes]

/-- Reading a window depends on that window's bytes only. -/
theorem readBytes_congr {m m' : Memory} {a n : Nat} (h : ∀ j < n, m.read (a + j) = m'.read (a + j)) :
    m.readBytes a n = m'.readBytes a n := by
  refine List.ext_getElem (by simp) fun j h1 h2 => ?_
  simp only [getElem_readBytes]
  exact h j (by simpa using h1)

/-- Reading back what was written. -/
theorem readBytes_writeBytes (m : Memory) (a : Nat) (bs : List Byte) :
    (m.writeBytes a bs).readBytes a bs.length = bs := by
  refine List.ext_getElem (by simp) fun j h1 h2 => ?_
  rw [getElem_readBytes, read_writeBytes_inside m a bs h2]

/-- Every address a multi-byte write leaves listed was listed or lies in its window. -/
theorem mem_writeBytes {m : Memory} {a : Nat} {bs : List Byte} {c : Host.Cell} (h : c ∈ m.writeBytes a bs) :
    c ∈ m ∨ (a ≤ c.1 ∧ c.1 < a + bs.length) := by
  induction bs generalizing m a with
  | nil => exact Or.inl h
  | cons b bs ih =>
    simp only [List.length_cons]
    rcases ih h with h | h
    · rcases mem_write h with h | h
      · exact Or.inl h
      · right; subst h; simp only; omega
    · right; omega

/-- Two canonical memories that read the same everywhere are the same data. -/
theorem ext_read {m m' : Memory} (hm : m.wf) (hm' : m'.wf) (h : ∀ a, m.read a = m'.read a) : m = m' := by
  induction m generalizing m' with
  | nil =>
    cases m' with
    | nil => rfl
    | cons d rest =>
      obtain ⟨k, b⟩ := d
      obtain ⟨hb, _, _⟩ := wf_cons.1 hm'
      exact absurd (by simpa [Memory.read] using (h k).symm) hb
  | cons c rest ih =>
    obtain ⟨k, b⟩ := c
    obtain ⟨hb, hlt, hrest⟩ := wf_cons.1 hm
    cases m' with
    | nil => exact absurd (by simpa [Memory.read] using h k) hb
    | cons d rest' =>
      obtain ⟨k', b'⟩ := d
      obtain ⟨hb', hlt', hrest'⟩ := wf_cons.1 hm'
      have hk : k = k' := by
        by_contra hne
        rcases Nat.lt_or_gt_of_ne hne with hlt1 | hlt1
        · have h1 : Memory.read ((k', b') :: rest') k = 0 := read_of_unlisted fun c hc => by
            rcases List.mem_cons.1 hc with rfl | hc
            · simp only; omega
            · have := hlt' c hc; omega
          exact hb (by simpa [Memory.read] using (h k).trans h1)
        · have h1 : Memory.read ((k, b) :: rest) k' = 0 := read_of_unlisted fun c hc => by
            rcases List.mem_cons.1 hc with rfl | hc
            · simp only; omega
            · have := hlt c hc; omega
          exact hb' (by simpa [Memory.read] using (h k').symm.trans h1)
      subst hk
      have hbb : b = b' := by simpa [Memory.read] using h k
      subst hbb
      have : rest = rest' := ih hrest hrest' fun a => by
        by_cases ha : k = a
        · subst ha; rw [read_of_unlisted fun c hc => (hlt c hc).ne', read_of_unlisted fun c hc => (hlt' c hc).ne']
        · simpa [Memory.read, ha] using h a
      rw [this]

end Sys2Proof.Machine.Memory
end

