-- ==== Sys2Proof/Laws/Frame.lean ====
section
/-! SUPPORT. What the operations do to memory: each touches its window only. -/

namespace Sys2Proof

theorem Window.holds_mk {b n a : Nat} : Window.holds ⟨b, n⟩ a ↔ b ≤ a ∧ a < b + n := Iff.rfl

/-- A shorter window at the same base. -/
theorem Window.holds_mono {b n n' a : Nat} (hn : n ≤ n') (h : Window.holds ⟨b, n⟩ a) : Window.holds ⟨b, n'⟩ a := by
  rw [Window.holds_mk] at *; omega

/-- An offset inside the window. -/
theorem Window.holds_add {b n j : Nat} (h : j < n) : Window.holds ⟨b, n⟩ (b + j) := by
  rw [Window.holds_mk]; omega

end Sys2Proof

namespace Sys2Proof.Machine

/-- The second memory comes from the first by stores inside the window. -/
structure Touches (w : Window) (m m' : Memory) : Prop where
  canonical : m.wf = true → m'.wf = true
  cells : ∀ c ∈ m', c ∈ m ∨ w.holds c.1
  frame : ∀ a, ¬ w.holds a → m'.read a = m.read a

namespace Touches

variable {w : Window} {m m' m'' : Memory}

theorem refl (w : Window) (m : Memory) : Touches w m m :=
  ⟨id, fun _ h => Or.inl h, fun _ _ => rfl⟩

theorem trans (h : Touches w m m') (h' : Touches w m' m'') : Touches w m m'' where
  canonical hm := h'.canonical (h.canonical hm)
  cells c hc := (h'.cells c hc).elim (h.cells c) Or.inr
  frame a ha := (h'.frame a ha).trans (h.frame a ha)

theorem mono {v : Window} (h : Touches w m m') (hw : ∀ a, w.holds a → v.holds a) : Touches v m m' where
  canonical := h.canonical
  cells c hc := (h.cells c hc).imp_right (hw _)
  frame a ha := h.frame a fun h' => ha (hw a h')

theorem write {a : Nat} (h : w.holds a) (m : Memory) (v : Byte) : Touches w m (m.write a v) where
  canonical hm := Memory.wf_write hm a v
  cells c hc := (Memory.mem_write hc).imp_right fun e => by subst e; exact h
  frame a' ha := Memory.read_write_of_ne m v fun e => ha (e ▸ h)

theorem writeBytes (m : Memory) (a : Nat) (bs : List Byte) {n : Nat} (hn : bs.length = n) :
    Touches ⟨a, n⟩ m (m.writeBytes a bs) where
  canonical hm := Memory.wf_writeBytes hm a bs
  cells c hc := (Memory.mem_writeBytes hc).imp_right fun h => ⟨h.1, hn ▸ h.2⟩
  frame a' ha := Memory.read_writeBytes_outside m bs (by subst hn; simp only [Window.holds] at ha; omega)

end Touches

@[simp] theorem length_packField (t : Nat) (sign : Nibble) (len : Nat) : (packField t sign len).length = len := by
  simp [packField]

@[simp] theorem length_encodeField (v : Int) (len : Nat) : (encodeField v len).length = len := by
  simp [encodeField]

theorem packedEncode_touches (m : Memory) (v : Int) (a len : Nat) :
    Touches ⟨a, len⟩ m (packedEncode m v a len) :=
  Touches.writeBytes m a _ (length_encodeField v len)

theorem storeQuotient_touches (m : Memory) (q r : Int) (a1 : Addr) (l1 : Len1) (l2 : Len2)
    (h : l2.toNat < l1.toNat) : Touches (windowOf a1 l1) m (storeQuotient m q r a1 l1 l2) := by
  refine Touches.trans (Touches.mono (packedEncode_touches m q _ _) fun a ha => ?_)
    (Touches.mono (packedEncode_touches _ r _ _) fun a ha => ?_) <;>
  · simp only [Window.holds, windowOf] at ha ⊢
    omega

theorem unpackLoop_touches (ap az : Nat) (fill : Nibble) (n k : Nat) (pend : Option Nibble) (mem : Memory) :
    Touches ⟨az, n⟩ mem (unpackLoop ap az fill n k pend mem) := by
  induction n generalizing k pend mem with
  | zero => unfold unpackLoop; exact Touches.refl _ _
  | succ n ih =>
    cases pend with
    | some d => exact (Touches.write (Window.holds_add (Nat.lt_succ_self n)) mem _).trans ((ih _ _ _).mono fun _ => Window.holds_mono (Nat.le_succ n))
    | none => cases k <;> exact (Touches.write (Window.holds_add (Nat.lt_succ_self n)) mem _).trans ((ih _ _ _).mono fun _ => Window.holds_mono (Nat.le_succ n))

theorem unpackZoned_touches (mem : Memory) (ap lp az lz : Nat) (fill : Nibble) (keep : Bool) (h : 1 ≤ lz) :
    Touches ⟨az, lz⟩ mem (unpackZoned mem ap lp az lz fill keep).1 := by
  exact (Touches.write (Window.holds_add (by omega)) mem _).trans
    ((unpackLoop_touches ap az fill (lz - 1) _ _ _).mono fun _ => Window.holds_mono (by omega))

theorem mvoLoop_touches (a1 a2 n k : Nat) (carry : Nibble) (mem : Memory) :
    Touches ⟨a1, n⟩ mem (mvoLoop a1 a2 n k carry mem) := by
  induction n generalizing k carry mem with
  | zero => unfold mvoLoop; exact Touches.refl _ _
  | succ n ih =>
    cases k <;> exact (Touches.write (Window.holds_add (Nat.lt_succ_self n)) mem _).trans ((ih _ _ _).mono fun _ => Window.holds_mono (Nat.le_succ n))

theorem mvoMemory_touches (mem : Memory) (a1 l1 a2 l2 : Nat) (h : 1 ≤ l1) :
    Touches ⟨a1, l1⟩ mem (mvoMemory mem a1 l1 a2 l2) := by
  exact (Touches.write (Window.holds_add (by omega)) mem _).trans
    ((mvoLoop_touches a1 a2 (l1 - 1) _ _ _).mono fun _ => Window.holds_mono (by omega))

theorem packLoop_touches (a1 a2 n k : Nat) (mem : Memory) : Touches ⟨a1, n⟩ mem (packLoop a1 a2 n k mem) := by
  induction n generalizing k mem with
  | zero => unfold packLoop; exact Touches.refl _ _
  | succ n ih =>
    exact (Touches.write (Window.holds_add (Nat.lt_succ_self n)) mem _).trans ((ih _ _).mono fun _ => Window.holds_mono (Nat.le_succ n))

theorem packMemory_touches (mem : Memory) (a1 l1 a2 l2 : Nat) (h : 1 ≤ l1) :
    Touches ⟨a1, l1⟩ mem (packMemory mem a1 l1 a2 l2) := by
  exact (Touches.write (Window.holds_add (by omega)) mem _).trans
    ((packLoop_touches a1 a2 (l1 - 1) _ _).mono fun _ => Window.holds_mono (by omega))

end Sys2Proof.Machine
end

