-- ==== Sys2Proof/Laws/Codec.lean ====
section
/-! SUPPORT. The codec: nibbles of bytes, digits of fields, and what decode reads from what encode writes. -/

namespace Sys2Proof.Machine

@[simp] theorem hiNib_mkByte (h l : Nibble) : hiNib (mkByte h l) = h := by
  revert h l; decide

@[simp] theorem loNib_mkByte (h l : Nibble) : loNib (mkByte h l) = l := by
  revert h l; decide

@[simp] theorem mkByte_hiNib_loNib (b : Byte) : mkByte (hiNib b) (loNib b) = b := by
  revert b; decide

theorem hiNib_toNat (b : Byte) : (hiNib b).toNat = b.toNat / 16 := by
  revert b; decide

theorem loNib_toNat (b : Byte) : (loNib b).toNat = b.toNat % 16 := by
  revert b; decide

/-- Two bytes with the same nibbles are the same. -/
theorem byte_ext {b c : Byte} (h : hiNib b = hiNib c) (l : loNib b = loNib c) : b = c := by
  rw [← mkByte_hiNib_loNib b, ← mkByte_hiNib_loNib c, h, l]

/-- A valid sign code is one of at least 10 (R59). -/
theorem validSign_iff (s : Nibble) : validSign s = true ↔ 10 ≤ s.toNat := by
  revert s; decide

/-! ## Nibbles of a field -/

theorem nib_even (field : List Byte) (j : Nat) : nib field (2 * j) = hiNib (field.getD j 0) := by
  unfold nib
  rw [if_pos (by omega), show 2 * j / 2 = j by omega]

theorem nib_odd (field : List Byte) (j : Nat) : nib field (2 * j + 1) = loNib (field.getD j 0) := by
  unfold nib
  rw [if_neg (by omega), show (2 * j + 1) / 2 = j by omega]

/-- The sign nibble is the last nibble of the field (R60). -/
theorem signNib_eq_nib {field : List Byte} (h : field ≠ []) : signNib field = nib field (capacity field.length) := by
  have := List.length_pos_iff.2 h
  rw [signNib, capacity, show 2 * field.length - 1 = 2 * (field.length - 1) + 1 by omega, nib_odd]

/-- A nibble of a field in memory. -/
theorem nib_readBytes (m : Memory) (a len p : Nat) (h : p < 2 * len) :
    nib (m.readBytes a len) p = if p % 2 = 0 then hiNib (m.read (a + p / 2)) else loNib (m.read (a + p / 2)) := by
  unfold nib
  rw [Memory.getD_readBytes m a len (p / 2) (by omega)]

/-- Nibble p of a packed field is the one it was built from. -/
theorem nib_packField (t : Nat) (sign : Nibble) (len p : Nat) (h : p < 2 * len) :
    nib (packField t sign len) p = packNib t sign len p := by
  have hj : p / 2 < len := by omega
  have hget : (packField t sign len).getD (p / 2) 0 =
      mkByte (packNib t sign len (2 * (p / 2))) (packNib t sign len (2 * (p / 2) + 1)) := by
    rw [List.getD_eq_getElem _ _ (by simpa using hj)]
    simp [packField]
  unfold nib
  rw [hget]
  split
  · rw [hiNib_mkByte, show 2 * (p / 2) = p by omega]
  · rw [loNib_mkByte, show 2 * (p / 2) + 1 = p by omega]

theorem signNib_packField (t : Nat) (sign : Nibble) {len : Nat} (h : 1 ≤ len) :
    signNib (packField t sign len) = sign := by
  have hne : packField t sign len ≠ [] := by
    rw [← List.length_pos_iff, length_packField]; omega
  rw [signNib_eq_nib hne, length_packField, nib_packField _ _ _ _ (by unfold capacity; omega)]
  simp [packNib]

/-- A digit position of a packed field holds the digit of its weight. -/
theorem nib_packField_digit (t : Nat) (sign : Nibble) (len p : Nat) (h : p < capacity len) :
    (nib (packField t sign len) p).toNat = t / 10 ^ (capacity len - 1 - p) % 10 := by
  rw [nib_packField _ _ _ _ (by unfold capacity at h; omega), packNib, if_pos h, BitVec.toNat_ofNat]
  have := Nat.mod_lt (t / 10 ^ (capacity len - 1 - p)) (show 10 > 0 by decide)
  exact Nat.mod_eq_of_lt (by omega)

/-! ## The value of a field -/

/-- A sum of digits by falling weight, most significant first, is the number modulo the capacity. -/
theorem sum_digits (t n : Nat) :
    ((List.range n).map fun p => t / 10 ^ (n - 1 - p) % 10 * 10 ^ (n - 1 - p)).sum = t % 10 ^ n := by
  have key : ∀ k ≤ n, ((List.range k).map fun p => t / 10 ^ (n - 1 - p) % 10 * 10 ^ (n - 1 - p)).sum =
      t / 10 ^ (n - k) % 10 ^ k * 10 ^ (n - k) := by
    intro k hk
    induction k with
    | zero => rw [List.range_zero, List.map_nil, List.sum_nil, pow_zero, Nat.mod_one, Nat.zero_mul]
    | succ k ih =>
      rw [List.range_succ, List.map_append, List.sum_append, ih (by omega)]
      simp only [List.map_cons, List.map_nil, List.sum_cons, List.sum_nil, Nat.add_zero]
      rw [show n - 1 - k = n - (k + 1) by omega]
      have h1 : n - k = n - (k + 1) + 1 := by omega
      rw [h1, pow_succ 10 (n - (k + 1)), ← Nat.div_div_eq_div_mul]
      generalize t / 10 ^ (n - (k + 1)) = u
      have h2 : u % 10 ^ (k + 1) = u % 10 + 10 * (u / 10 % 10 ^ k) := by
        rw [pow_succ', Nat.mod_mul]
      rw [h2]
      ring
  rw [key n (le_refl n), Nat.sub_self, pow_zero, Nat.div_one, Nat.mul_one]

theorem fieldMagnitude_packField (t : Nat) (sign : Nibble) (len : Nat) :
    fieldMagnitude (packField t sign len) = t % 10 ^ capacity len := by
  unfold fieldMagnitude
  rw [length_packField, ← sum_digits t (capacity len)]
  congr 1
  refine List.map_congr_left fun p hp => ?_
  rw [nib_packField_digit _ _ _ _ (List.mem_range.1 hp)]

theorem fieldValid_packField (t : Nat) {sign : Nibble} {len : Nat} (h : 1 ≤ len) (hs : validSign sign = true) :
    fieldValid (packField t sign len) = true := by
  unfold fieldValid
  rw [signNib_packField _ _ h, hs, Bool.and_true, List.all_eq_true]
  intro p hp
  rw [length_packField] at hp
  rw [decide_eq_true_eq, nib_packField_digit _ _ _ _ (List.mem_range.1 hp)]
  have := Nat.mod_lt (t / 10 ^ (capacity len - 1 - p)) (show 10 > 0 by decide)
  omega

/-- Decode fails exactly on the fields that are not valid (R62). -/
theorem packedDecode_eq_none {m : Memory} {a len : Nat} :
    packedDecode m a len = none ↔ packedIsValid m a len = false := by
  unfold packedDecode
  split <;> simp_all

theorem packedDecode_eq_some {m : Memory} {a len : Nat} {v : Int} :
    packedDecode m a len = some v ↔ packedIsValid m a len = true ∧ v = fieldValue (m.readBytes a len) := by
  unfold packedDecode
  cases packedIsValid m a len
  · simp
  · simp only [if_true, Option.some.injEq, true_and]
    exact eq_comm

/-- What decode reads from a field just packed. -/
theorem packedDecode_packField (m : Memory) (t a : Nat) {sign : Nibble} {len : Nat} (h : 1 ≤ len)
    (hs : validSign sign = true) :
    packedDecode (m.writeBytes a (packField t sign len)) a len =
      some (if minusSign sign then -((t % 10 ^ capacity len : Nat) : Int) else ((t % 10 ^ capacity len : Nat) : Int)) := by
  have hr : (m.writeBytes a (packField t sign len)).readBytes a len = packField t sign len := by
    simpa using Memory.readBytes_writeBytes m a (packField t sign len)
  unfold packedDecode packedIsValid fieldValue
  rw [hr, fieldValid_packField t h hs, signNib_packField t sign h, fieldMagnitude_packField]
  rfl

theorem validSign_preferredSign (v : Int) : validSign (preferredSign v) = true := by
  unfold preferredSign
  split <;> decide

theorem minusSign_preferredSign (v : Int) : minusSign (preferredSign v) = decide (v < 0) := by
  unfold preferredSign
  split <;> simp [*, minusSign, minusCode, plusCode]

/-- The magnitude of a valid field stays below its capacity (R62). -/
theorem fieldMagnitude_lt {field : List Byte} (h : fieldValid field = true) :
    fieldMagnitude field < 10 ^ capacity field.length := by
  unfold fieldValid at h
  rw [Bool.and_eq_true, List.all_eq_true] at h
  have hd : ∀ p < capacity field.length, (nib field p).toNat ≤ 9 := fun p hp => by
    simpa using h.1 p (List.mem_range.2 hp)
  unfold fieldMagnitude
  generalize capacity field.length = n at *
  have key : ∀ k ≤ n, ((List.range k).map fun p => (nib field p).toNat * 10 ^ (n - 1 - p)).sum + 10 ^ (n - k) ≤ 10 ^ n := by
    intro k hk
    induction k with
    | zero => simp
    | succ k ih =>
      have h1 := ih (by omega)
      rw [List.range_succ, List.map_append, List.sum_append]
      simp only [List.map_cons, List.map_nil, List.sum_cons, List.sum_nil, Nat.add_zero]
      rw [show n - 1 - k = n - (k + 1) by omega]
      have h2 : 10 ^ (n - k) = 10 * 10 ^ (n - (k + 1)) := by
        rw [← pow_succ']; congr 1; omega
      have h3 := Nat.mul_le_mul_right (10 ^ (n - (k + 1))) (hd k (by omega))
      omega
  have := key n (le_refl n)
  simp only [Nat.sub_self, pow_zero] at this
  omega

theorem natAbs_fieldValue (field : List Byte) : (fieldValue field).natAbs = fieldMagnitude field := by
  unfold fieldValue
  split <;> simp

/-- A decoded value has at most as many digits as its field holds (R62). -/
theorem natAbs_lt_of_packedDecode {m : Memory} {a len : Nat} {v : Int} (h : packedDecode m a len = some v) :
    v.natAbs < 10 ^ capacity len := by
  obtain ⟨h1, h2⟩ := packedDecode_eq_some.1 h
  have := fieldMagnitude_lt h1
  rw [Memory.length_readBytes] at this
  rw [h2, natAbs_fieldValue]
  exact this

/-- Decoding depends on the window's bytes only. -/
theorem packedDecode_congr {m m' : Memory} {a len : Nat} (h : ∀ j < len, m.read (a + j) = m'.read (a + j)) :
    packedDecode m a len = packedDecode m' a len := by
  unfold packedDecode packedIsValid
  rw [Memory.readBytes_congr h]

/-- A valid field, nibble by nibble (R61). -/
theorem fieldValid_iff (field : List Byte) :
    fieldValid field = true ↔
      (∀ p < capacity field.length, (nib field p).toNat ≤ 9) ∧ 10 ≤ (signNib field).toNat := by
  unfold fieldValid
  rw [Bool.and_eq_true, List.all_eq_true, validSign_iff]
  simp

/-- The window encode wrote, read back. -/
theorem readBytes_packedEncode (m : Memory) (v : Int) (a len : Nat) :
    (packedEncode m v a len).readBytes a len = encodeField v len := by
  have := Memory.readBytes_writeBytes m a (encodeField v len)
  rwa [length_encodeField] at this

/-- Decode reads from an encoded field the digits that fit, with the value's sign (R64). -/
theorem packedDecode_packedEncode (m : Memory) (v : Int) (a : Nat) {len : Nat} (h : 1 ≤ len) :
    packedDecode (packedEncode m v a len) a len =
      some (if v < 0 then -((v.natAbs % 10 ^ capacity len : Nat) : Int)
        else ((v.natAbs % 10 ^ capacity len : Nat) : Int)) := by
  rw [packedEncode, encodeField, packedDecode_packField _ _ _ h (validSign_preferredSign v),
    minusSign_preferredSign, Nat.mod_mod]
  simp

/-- The sign nibble of a field in memory (R35). -/
theorem signNib_readBytes (m : Memory) (a : Nat) {n : Nat} (h : 1 ≤ n) :
    signNib (m.readBytes a n) = loNib (m.read (a + (n - 1))) := by
  rw [signNib, Memory.length_readBytes, Memory.getD_readBytes _ _ _ _ (by omega)]

end Sys2Proof.Machine
end

