-- ==== Sys2Proof/Laws/Edit.lean ====
section
/-! SUPPORT. What one pattern byte of an edit can do, said once; then the whole scan. -/

namespace Sys2Proof.Machine

@[simp] theorem signEffect_mem (sign : Option Nibble) (e : EditState) : (signEffect sign e).mem = e.mem := by
  unfold signEffect; (repeat' split) <;> rfl
@[simp] theorem signEffect_k (sign : Option Nibble) (e : EditState) : (signEffect sign e).k = e.k := by
  unfold signEffect; (repeat' split) <;> rfl
@[simp] theorem signEffect_reg (sign : Option Nibble) (e : EditState) : (signEffect sign e).reg = e.reg := by
  unfold signEffect; (repeat' split) <;> rfl
@[simp] theorem signEffect_fz (sign : Option Nibble) (e : EditState) : (signEffect sign e).fz = e.fz := by
  unfold signEffect; (repeat' split) <;> rfl
@[simp] theorem signEffect_sp (sign : Option Nibble) (e : EditState) : (signEffect sign e).sp = e.sp := by
  unfold signEffect; (repeat' split) <;> rfl
@[simp] theorem signEffect_half (sign : Option Nibble) (e : EditState) : (signEffect sign e).half = e.half := by
  unfold signEffect; (repeat' split) <;> rfl
@[simp] theorem signEffect_fill (sign : Option Nibble) (e : EditState) : (signEffect sign e).fill = e.fill := by
  unfold signEffect; (repeat' split) <;> rfl
@[simp] theorem signEffect_armed (sign : Option Nibble) (e : EditState) : (signEffect sign e).armed = e.armed := by
  unfold signEffect; (repeat' split) <;> rfl

/-- The byte a selector stores (R84). -/
theorem editDigit_mem (policy : MarkPolicy) (regIn : Word) (a1 : Nat) (starter : Bool) (d : Nibble)
    (sign : Option Nibble) (e : EditState) :
    (editDigit policy regIn a1 starter d sign e).mem =
      e.mem.write (a1 + e.k) (if (e.sig || d != 0) = true then mkByte zone d else e.fill) := by
  unfold editDigit
  split <;> simp

@[simp] theorem editDigit_k (policy : MarkPolicy) (regIn : Word) (a1 : Nat) (starter : Bool) (d : Nibble)
    (sign : Option Nibble) (e : EditState) : (editDigit policy regIn a1 starter d sign e).k = e.k + 1 := by
  simp [editDigit]

@[simp] theorem editDigit_sp (policy : MarkPolicy) (regIn : Word) (a1 : Nat) (starter : Bool) (d : Nibble)
    (sign : Option Nibble) (e : EditState) : (editDigit policy regIn a1 starter d sign e).sp = e.sp := by
  unfold editDigit markEvent
  (repeat' split) <;> simp

@[simp] theorem editDigit_half (policy : MarkPolicy) (regIn : Word) (a1 : Nat) (starter : Bool) (d : Nibble)
    (sign : Option Nibble) (e : EditState) : (editDigit policy regIn a1 starter d sign e).half = e.half := by
  unfold editDigit markEvent
  (repeat' split) <;> simp

@[simp] theorem editDigit_fill (policy : MarkPolicy) (regIn : Word) (a1 : Nat) (starter : Bool) (d : Nibble)
    (sign : Option Nibble) (e : EditState) : (editDigit policy regIn a1 starter d sign e).fill = e.fill := by
  unfold editDigit markEvent
  (repeat' split) <;> simp

/-- The register a selector leaves: the old one, or the mark of this pattern byte (R88). -/
theorem editDigit_reg (policy : MarkPolicy) (regIn : Word) (a1 : Nat) (starter : Bool) (d : Nibble)
    (sign : Option Nibble) (e : EditState) :
    (editDigit policy regIn a1 starter d sign e).reg = e.reg ∨
      (editDigit policy regIn a1 starter d sign e).reg = markReg regIn a1 e.k := by
  unfold editDigit markEvent
  (repeat' split) <;> simp

/-- What one pattern byte does when it goes on: it stores one byte at A1 + k and moves to k + 1; the register keeps its
value or takes the mark of this byte; a selector leaves the source where `next_digit` left it, another byte leaves it
alone. -/
theorem editByte_more {cfg : Config} {regIn : Word} {a1 : Nat} {e e' : EditState}
    (h : editByte cfg regIn a1 e = .more e') :
    (∃ v, e'.mem = e.mem.write (a1 + e.k) v) ∧ e'.k = e.k + 1 ∧ e'.fill = e.fill ∧
      (e'.reg = e.reg ∨ e'.reg = markReg regIn a1 e.k) ∧
      ((patternClass (e.mem.read (a1 + e.k)) = .fieldSeparator ∨ patternClass (e.mem.read (a1 + e.k)) = .message) ∧
          e'.sp = e.sp ∧ e'.half = e.half ∨
        (patternClass (e.mem.read (a1 + e.k)) = .digitSelector ∨
            patternClass (e.mem.read (a1 + e.k)) = .significanceStarter) ∧
          ∃ x, nextDigit cfg.memSize e = .more x ∧ e'.sp = x.sp ∧ e'.half = x.half) := by
  unfold editByte at h
  have selector : ∀ starter, editSelector cfg regIn a1 starter e = .more e' →
      (∃ v, e'.mem = e.mem.write (a1 + e.k) v) ∧ e'.k = e.k + 1 ∧ e'.fill = e.fill ∧
        (e'.reg = e.reg ∨ e'.reg = markReg regIn a1 e.k) ∧
        ∃ x, nextDigit cfg.memSize e = .more x ∧ e'.sp = x.sp ∧ e'.half = x.half := by
    intro starter hs
    unfold editSelector at hs
    split at hs
    · rename_i x hx
      injection hs with hs
      subst hs
      refine ⟨⟨_, editDigit_mem ..⟩, by simp, by simp, ?_, x, hx, by simp, by simp⟩
      exact editDigit_reg cfg.markPolicy regIn a1 starter x.digit x.sign { e with sp := x.sp, half := x.half }
    · cases hs
    · cases hs
  split at h <;> rename_i hc
  · obtain ⟨p1, p2, p3, p4, p5⟩ := selector _ h
    exact ⟨p1, p2, p3, p4, Or.inr ⟨Or.inl hc, p5⟩⟩
  · obtain ⟨p1, p2, p3, p4, p5⟩ := selector _ h
    exact ⟨p1, p2, p3, p4, Or.inr ⟨Or.inr hc, p5⟩⟩
  · injection h with h
    subst h
    exact ⟨⟨_, rfl⟩, rfl, rfl, Or.inl rfl, Or.inl ⟨Or.inl hc, rfl, rfl⟩⟩
  · injection h with h
    subst h
    exact ⟨⟨_, rfl⟩, rfl, rfl, Or.inl rfl, Or.inl ⟨Or.inr hc, rfl, rfl⟩⟩

/-- When a pattern byte stops with DATA, it is a selector and the source byte it reads has a high nibble above 9. -/
theorem editByte_badDigit {cfg : Config} {regIn : Word} {a1 : Nat} {e : EditState}
    (h : editByte cfg regIn a1 e = .badDigit) :
    (e.mem.read (a1 + e.k) = 0x20 ∨ e.mem.read (a1 + e.k) = 0x21) ∧ e.half = .high ∧ e.sp < cfg.memSize ∧
      9 < (hiNib (e.mem.read e.sp)).toNat := by
  have selector : ∀ starter, editSelector cfg regIn a1 starter e = .badDigit →
      e.half = .high ∧ e.sp < cfg.memSize ∧ 9 < (hiNib (e.mem.read e.sp)).toNat := by
    intro starter hs
    unfold editSelector at hs
    split at hs
    · cases hs
    · rename_i hd
      unfold nextDigit at hd
      split at hd
      · cases hd
      · rename_i hh
        split at hd
        · unfold digitOfByte at hd
          split at hd
          · exact ⟨hh, ‹_›, ‹_›⟩
          · split at hd <;> cases hd
        · cases hd
    · cases hs
  unfold editByte at h
  split at h <;> rename_i hc
  · refine ⟨Or.inl ?_, selector _ h⟩
    unfold patternClass at hc
    (repeat' split at hc) <;> first | assumption | cases hc
  · refine ⟨Or.inr ?_, selector _ h⟩
    unfold patternClass at hc
    (repeat' split at hc) <;> first | assumption | cases hc
  · cases h
  · cases h

/-- The state an end stands at, where it has one. -/
def EditEnd.state? : EditEnd → Option EditState
  | .done e => some e
  | .data e => some e
  | .outside => none

/-- What a scan of n pattern bytes does, however it ends: it touches the bytes from A1 + k on only, leaves the fill
byte, and the register keeps its value or holds the mark of one of the bytes done. -/
theorem editLoop_spec {cfg : Config} {regIn : Word} {a1 n : Nat} {e e' : EditState}
    (h : (editLoop cfg regIn a1 n e).state? = some e') :
    Touches ⟨a1 + e.k, e'.k - e.k⟩ e.mem e'.mem ∧ e.k ≤ e'.k ∧ e'.k ≤ e.k + n ∧ e'.fill = e.fill ∧
      (e'.reg = e.reg ∨ ∃ k, e.k ≤ k ∧ k < e'.k ∧ e'.reg = markReg regIn a1 k) := by
  induction n generalizing e with
  | zero =>
    simp only [editLoop, EditEnd.state?, Option.some.injEq] at h
    subst h
    exact ⟨Touches.refl _ _, le_refl _, by omega, rfl, Or.inl rfl⟩
  | succ n ih =>
    unfold editLoop at h
    split at h
    · rename_i e1 h1
      obtain ⟨⟨v, hv⟩, hk, hf, hr, _⟩ := editByte_more h1
      obtain ⟨ht, hle, hle', hf', hr'⟩ := ih h
      refine ⟨?_, by omega, by omega, by rw [hf', hf], ?_⟩
      · refine Touches.trans (m' := e1.mem) ?_ (ht.mono fun a ha => ?_)
        · rw [hv]
          exact Touches.write (Window.holds_mk.2 (by omega)) _ _
        · rw [Window.holds_mk] at ha ⊢
          omega
      · rcases hr' with hr' | ⟨k, hk1, hk2, hk3⟩
        · rcases hr with hr | hr
          · exact Or.inl (hr'.trans hr)
          · exact Or.inr ⟨e.k, le_refl _, by omega, hr'.trans hr⟩
        · exact Or.inr ⟨k, by omega, hk2, hk3⟩
    · simp only [EditEnd.state?, Option.some.injEq] at h
      subst h
      exact ⟨Touches.refl _ _, le_refl _, by omega, rfl, Or.inl rfl⟩
    · cases h

/-- A scan that ends normally has done every pattern byte. -/
theorem editLoop_done_k {cfg : Config} {regIn : Word} {a1 n : Nat} {e e' : EditState}
    (h : editLoop cfg regIn a1 n e = .done e') : e'.k = e.k + n := by
  induction n generalizing e with
  | zero => simp only [editLoop, EditEnd.done.injEq] at h; subst h; rfl
  | succ n ih =>
    unfold editLoop at h
    split at h
    · rename_i e1 h1
      have := (editByte_more h1).2.1
      have := ih h
      omega
    · cases h
    · cases h

/-- A scan that stops with DATA stands at a byte it has not done, reached by a shorter scan that ended normally. -/
theorem editLoop_data {cfg : Config} {regIn : Word} {a1 n : Nat} {e e' : EditState}
    (h : editLoop cfg regIn a1 n e = .data e') :
    e'.k < e.k + n ∧ editLoop cfg regIn a1 (e'.k - e.k) e = .done e' ∧ editByte cfg regIn a1 e' = .badDigit := by
  induction n generalizing e with
  | zero => simp [editLoop] at h
  | succ n ih =>
    unfold editLoop at h
    split at h
    · rename_i e1 h1
      obtain ⟨hlt, hd, hb⟩ := ih h
      have hk := (editByte_more h1).2.1
      have hge : e1.k ≤ e'.k := (editLoop_spec (e' := e') (by rw [hd]; rfl)).2.1
      refine ⟨by omega, ?_, hb⟩
      obtain ⟨j, hj⟩ : ∃ j, e'.k - e.k = j + 1 := ⟨e'.k - e.k - 1, by omega⟩
      rw [hj]
      unfold editLoop
      rw [h1]
      have : e'.k - e1.k = j := by omega
      rw [this] at hd
      exact hd
    · injection h with h
      subst h
      exact ⟨by omega, by simp [editLoop], ‹_›⟩
    · cases h

/-- A scan goes on from where a shorter one ended. -/
theorem editLoop_add {cfg : Config} {regIn : Word} {a1 n m : Nat} {e e' : EditState}
    (h : editLoop cfg regIn a1 n e = .done e') :
    editLoop cfg regIn a1 (n + m) e = editLoop cfg regIn a1 m e' := by
  induction n generalizing e with
  | zero =>
    simp only [editLoop, EditEnd.done.injEq] at h
    rw [h, Nat.zero_add]
  | succ n ih =>
    rw [Nat.add_right_comm]
    unfold editLoop at h
    split at h
    · rename_i e1 h1
      rw [editLoop, h1]
      exact ih h
    · cases h
    · cases h

/-- What an edit's end is answered with. -/
theorem editResult_cases {s t : State} {cc : CondCode} {r : EditEnd} (h : editResult s cc r = .next t) :
    (∃ e, r = .done e ∧ t = s.respond e.mem ⟨.none, ccEdit e.fz e.sig, some e.reg, .none⟩) ∨
      ∃ e, r = .data e ∧ t = s.respond e.mem ⟨.data, cc, some e.reg, .none⟩ := by
  cases r with
  | done e => exact Or.inl ⟨e, rfl, by simpa [editResult] using h.symm⟩
  | data e => exact Or.inr ⟨e, rfl, by simpa [editResult, raiseWith] using h.symm⟩
  | outside => cases h

end Sys2Proof.Machine
end

