-- ==== Sys2Proof/Laws/Agree.lean ====
section
/-! SUPPORT. Two memories that agree on a set of addresses: what the operations do to both alike. -/

namespace Sys2Proof.Machine

/-- The memories read the same on the set. -/
def Agree (S : Nat → Prop) (m m' : Memory) : Prop := ∀ a, S a → m.read a = m'.read a

variable {S : Nat → Prop} {m m' : Memory}

namespace Agree

theorem mono {T : Nat → Prop} (h : Agree S m m') (hT : ∀ a, T a → S a) : Agree T m m' := fun a ha => h a (hT a ha)

/-- The same byte stored in both: they agree there as well. -/
theorem write_add (h : Agree S m m') (a : Nat) (v : Byte) :
    Agree (fun b => S b ∨ b = a) (m.write a v) (m'.write a v) := by
  intro b hb
  rw [Memory.read_write, Memory.read_write]
  split
  · rfl
  · exact h b (hb.resolve_right ‹_›)

/-- The same byte stored in both keeps them in agreement. -/
theorem write (h : Agree S m m') (a : Nat) (v : Byte) : Agree S (m.write a v) (m'.write a v) :=
  (h.write_add a v).mono fun _ => Or.inl

/-- The same bytes stored in both. -/
theorem writeBytes (h : Agree S m m') (a : Nat) (bs : List Byte) :
    Agree (fun b => S b ∨ (a ≤ b ∧ b < a + bs.length)) (m.writeBytes a bs) (m'.writeBytes a bs) := by
  intro b hb
  rw [Memory.read_writeBytes, Memory.read_writeBytes]
  split
  · rfl
  · exact h b (hb.resolve_right ‹_›)

theorem readBytes {a n : Nat} (h : Agree S m m') (hS : ∀ b, a ≤ b → b < a + n → S b) :
    m.readBytes a n = m'.readBytes a n :=
  Memory.readBytes_congr fun j hj => h (a + j) (hS _ (by omega) (by omega))

theorem packedDecode {a n : Nat} (h : Agree S m m') (hS : ∀ b, a ≤ b → b < a + n → S b) :
    packedDecode m a n = packedDecode m' a n :=
  packedDecode_congr fun j hj => h (a + j) (hS _ (by omega) (by omega))

theorem packedEncode (h : Agree S m m') (v : Int) (a n : Nat) :
    Agree (fun b => S b ∨ (a ≤ b ∧ b < a + n)) (packedEncode m v a n) (packedEncode m' v a n) := by
  have := h.writeBytes a (encodeField v n)
  rwa [length_encodeField] at this

theorem unpackLoop {ap az : Nat} {fill : Nibble} {n k : Nat} {pend : Option Nibble} (h : Agree S m m')
    (hS : ∀ b, ap ≤ b → b < ap + k → S b) :
    Agree (fun b => S b ∨ (az ≤ b ∧ b < az + n)) (unpackLoop ap az fill n k pend m)
      (unpackLoop ap az fill n k pend m') := by
  induction n generalizing S k pend m m' with
  | zero => exact h.mono fun b hb => hb.resolve_right (by omega)
  | succ n ih =>
    have put : ∀ (T : Nat → Prop) (m1 m1' : Memory), Agree (fun b => (S b ∨ b = az + n) ∨ (az ≤ b ∧ b < az + n)) m1 m1' →
        Agree (fun b => S b ∨ (az ≤ b ∧ b < az + (n + 1))) m1 m1' := fun _ _ _ h => h.mono fun b hb => by
      rcases hb with hb | hb
      · exact Or.inl (Or.inl hb)
      · by_cases he : b = az + n
        · exact Or.inl (Or.inr he)
        · exact Or.inr (by omega)
    cases pend with
    | some d => exact put S _ _ (ih (h.write_add _ _) fun b h1 h2 => Or.inl (hS b h1 h2))
    | none =>
      cases k with
      | zero => exact put S _ _ (ih (h.write_add _ _) fun b h1 h2 => Or.inl (hS b h1 h2))
      | succ k =>
        unfold Machine.unpackLoop
        rw [h (ap + k) (hS _ (by omega) (by omega))]
        exact put S _ _ (ih (h.write_add _ _) fun b h1 h2 => Or.inl (hS b h1 (by omega)))

theorem unpackZoned {ap lp az lz : Nat} {fill : Nibble} {keep : Bool} (h : Agree S m m') (hl : 1 ≤ lp)
    (hz : 1 ≤ lz) (hS : ∀ b, ap ≤ b → b < ap + lp → S b) :
    (unpackZoned m ap lp az lz fill keep).2 = (unpackZoned m' ap lp az lz fill keep).2 ∧
      Agree (fun b => S b ∨ (az ≤ b ∧ b < az + lz)) (unpackZoned m ap lp az lz fill keep).1
        (unpackZoned m' ap lp az lz fill keep).1 := by
  unfold Machine.unpackZoned
  dsimp only
  rw [h (ap + (lp - 1)) (hS _ (by omega) (by omega))]
  refine ⟨rfl, ((h.write_add (az + (lz - 1)) _).unpackLoop fun b h1 h2 => Or.inl (hS b h1 (by omega))).mono fun b hb => ?_⟩
  rcases hb with hb | hb
  · exact Or.inl (Or.inl hb)
  · by_cases he : b = az + (lz - 1)
    · exact Or.inl (Or.inr he)
    · exact Or.inr (by omega)

theorem mvoLoop {a1 a2 n k : Nat} {carry : Nibble} (h : Agree S m m') (hS : ∀ b, a2 ≤ b → b < a2 + k → S b) :
    Agree (fun b => S b ∨ (a1 ≤ b ∧ b < a1 + n)) (mvoLoop a1 a2 n k carry m) (mvoLoop a1 a2 n k carry m') := by
  induction n generalizing S k carry m m' with
  | zero => exact h.mono fun b hb => hb.resolve_right (by omega)
  | succ n ih =>
    have put : ∀ (m1 m1' : Memory), Agree (fun b => (S b ∨ b = a1 + n) ∨ (a1 ≤ b ∧ b < a1 + n)) m1 m1' →
        Agree (fun b => S b ∨ (a1 ≤ b ∧ b < a1 + (n + 1))) m1 m1' := fun _ _ h => h.mono fun b hb => by
      rcases hb with hb | hb
      · exact Or.inl (Or.inl hb)
      · by_cases he : b = a1 + n
        · exact Or.inl (Or.inr he)
        · exact Or.inr (by omega)
    cases k with
    | zero => exact put _ _ (ih (h.write_add _ _) fun b h1 h2 => Or.inl (hS b h1 h2))
    | succ k =>
      unfold Machine.mvoLoop
      rw [h (a2 + k) (hS _ (by omega) (by omega))]
      exact put _ _ (ih (h.write_add _ _) fun b h1 h2 => Or.inl (hS b h1 (by omega)))

theorem mvoMemory {a1 l1 a2 l2 : Nat} (h : Agree S m m') (h1 : 1 ≤ l1) (h2 : 1 ≤ l2)
    (hS1 : ∀ b, a1 ≤ b → b < a1 + l1 → S b) (hS2 : ∀ b, a2 ≤ b → b < a2 + l2 → S b) :
    Agree S (mvoMemory m a1 l1 a2 l2) (mvoMemory m' a1 l1 a2 l2) := by
  unfold Machine.mvoMemory
  dsimp only
  rw [h (a2 + (l2 - 1)) (hS2 _ (by omega) (by omega)), h (a1 + (l1 - 1)) (hS1 _ (by omega) (by omega))]
  exact ((h.write _ _).mvoLoop fun b h1 h2 => hS2 b h1 (by omega)).mono fun b hb => Or.inl hb

theorem zonedDigit {a2 k : Nat} (h : Agree S m m') (hS : ∀ b, a2 ≤ b → b < a2 + k → S b) :
    zonedDigit m a2 k = zonedDigit m' a2 k := by
  cases k with
  | zero => rfl
  | succ k => exact congrArg loNib (h (a2 + k) (hS _ (by omega) (by omega)))

theorem packLoop {a1 a2 n k : Nat} (h : Agree S m m') (hS : ∀ b, a2 ≤ b → b < a2 + k → S b) :
    Agree S (packLoop a1 a2 n k m) (packLoop a1 a2 n k m') := by
  induction n generalizing k m m' with
  | zero => exact h
  | succ n ih =>
    unfold Machine.packLoop
    rw [h.zonedDigit hS, h.zonedDigit (k := k - 1) fun b h1 h2 => hS b h1 (by omega)]
    exact ih (h.write _ _) fun b h1 h2 => hS b h1 (by omega)

theorem packMemory {a1 l1 a2 l2 : Nat} (h : Agree S m m') (h2 : 1 ≤ l2)
    (hS2 : ∀ b, a2 ≤ b → b < a2 + l2 → S b) :
    Agree S (packMemory m a1 l1 a2 l2) (packMemory m' a1 l1 a2 l2) := by
  unfold Machine.packMemory
  dsimp only
  rw [h (a2 + (l2 - 1)) (hS2 _ (by omega) (by omega))]
  exact (h.write _ _).packLoop fun b h1 h2 => hS2 b h1 (by omega)

end Agree

/-! ## The edit -/

/-- Two edits in the same place over memories that agree on the set. -/
def EditAgree (S : Nat → Prop) (e e' : EditState) : Prop :=
  ∃ m', e' = { e with mem := m' } ∧ Agree S e.mem m'

/-- The result of one pattern byte, alike in both edits. -/
def EditStepAgree (S : Nat → Prop) : EditStep EditState → EditStep EditState → Prop
  | .more e, .more e' => EditAgree S e e'
  | .badDigit, .badDigit => True
  | .outside, .outside => True
  | _, _ => False

/-- The end of a scan, alike in both edits. -/
def EditEndAgree (S : Nat → Prop) : EditEnd → EditEnd → Prop
  | .done e, .done e' => EditAgree S e e'
  | .data e, .data e' => EditAgree S e e'
  | .outside, .outside => True
  | _, _ => False

/-- Taking a source digit moves the source by at most one byte. -/
theorem nextDigit_sp {memSize : Nat} {e : EditState} {x : SourceDigit} (h : nextDigit memSize e = .more x) :
    e.sp ≤ x.sp ∧ x.sp ≤ e.sp + 1 := by
  unfold nextDigit digitOfByte at h
  (repeat' split at h) <;> cases h <;> simp

theorem nextDigit_agree {memSize : Nat} {e : EditState} (h : Agree S e.mem m') (hS : S e.sp) :
    nextDigit memSize { e with mem := m' } = nextDigit memSize e := by
  unfold nextDigit
  rw [h e.sp hS]

theorem editDigit_agree {policy : MarkPolicy} {regIn : Word} {a1 : Nat} {starter : Bool} {d : Nibble}
    {sign : Option Nibble} {e : EditState} (h : Agree S e.mem m') :
    EditAgree S (editDigit policy regIn a1 starter d sign e)
      (editDigit policy regIn a1 starter d sign { e with mem := m' }) := by
  refine ⟨(editDigit policy regIn a1 starter d sign { e with mem := m' }).mem, ?_, ?_⟩
  · unfold editDigit signEffect markEvent
    (repeat' split) <;> simp_all
  · rw [editDigit_mem, editDigit_mem]
    exact h.write _ _

theorem editByte_agree {cfg : Config} {regIn : Word} {a1 : Nat} {e : EditState} (h : Agree S e.mem m')
    (hp : S (a1 + e.k)) (hs : S e.sp) :
    EditStepAgree S (editByte cfg regIn a1 e) (editByte cfg regIn a1 { e with mem := m' }) := by
  have selector : ∀ starter, EditStepAgree S (editSelector cfg regIn a1 starter e)
      (editSelector cfg regIn a1 starter { e with mem := m' }) := by
    intro starter
    unfold editSelector
    rw [nextDigit_agree h hs]
    cases nextDigit cfg.memSize e with
    | more x => exact editDigit_agree (e := { e with sp := x.sp, half := x.half }) h
    | badDigit => trivial
    | outside => trivial
  unfold editByte
  rw [show ({ e with mem := m' } : EditState).mem.read (a1 + ({ e with mem := m' } : EditState).k) =
    e.mem.read (a1 + e.k) from (h _ hp).symm]
  cases patternClass (e.mem.read (a1 + e.k)) with
  | digitSelector => exact selector false
  | significanceStarter => exact selector true
  | fieldSeparator => exact ⟨_, rfl, h.write _ _⟩
  | message => exact ⟨_, rfl, h.write _ _⟩

/-- A scan depends on the pattern bytes and on as many source bytes as the pattern has bytes. -/
theorem editLoop_agree {cfg : Config} {regIn : Word} {a1 n : Nat} {e : EditState} (h : Agree S e.mem m')
    (hp : ∀ b, a1 + e.k ≤ b → b < a1 + e.k + n → S b) (hs : ∀ b, e.sp ≤ b → b < e.sp + n → S b) :
    EditEndAgree S (editLoop cfg regIn a1 n e) (editLoop cfg regIn a1 n { e with mem := m' }) := by
  induction n generalizing e m' with
  | zero => exact ⟨m', rfl, h⟩
  | succ n ih =>
    have hb := editByte_agree (cfg := cfg) (regIn := regIn) (a1 := a1) h (hp _ (by omega) (by omega))
      (hs _ (by omega) (by omega))
    unfold editLoop
    cases h1 : editByte cfg regIn a1 e with
    | more e1 =>
      rw [h1] at hb
      cases h2 : editByte cfg regIn a1 { e with mem := m' } with
      | more e2 =>
        rw [h2] at hb
        obtain ⟨m1, rfl, ha⟩ := hb
        obtain ⟨_, hk, _, _, hsp⟩ := editByte_more h1
        have hsp' : e.sp ≤ e1.sp ∧ e1.sp ≤ e.sp + 1 := by
          rcases hsp with ⟨_, hq, _⟩ | ⟨_, x, hx, hq, _⟩
          · omega
          · have := nextDigit_sp hx; omega
        exact ih ha (fun b h3 h4 => hp b (by omega) (by omega)) fun b h3 h4 => hs b (by omega) (by omega)
      | badDigit => rw [h2] at hb; exact hb.elim
      | outside => rw [h2] at hb; exact hb.elim
    | badDigit =>
      rw [h1] at hb
      cases h2 : editByte cfg regIn a1 { e with mem := m' } with
      | more e2 => rw [h2] at hb; exact hb.elim
      | badDigit => exact ⟨m', rfl, h⟩
      | outside => rw [h2] at hb; exact hb.elim
    | outside =>
      rw [h1] at hb
      cases h2 : editByte cfg regIn a1 { e with mem := m' } with
      | more e2 => rw [h2] at hb; exact hb.elim
      | badDigit => rw [h2] at hb; exact hb.elim
      | outside => trivial

end Sys2Proof.Machine
end

