-- ==== Sys2Proof/Laws/State.lean ====
section
/-! SUPPORT. The fields of a state after each update. -/

namespace Sys2Proof.Machine.State

variable (s : State) (m : Memory) (r : Response) (q : RequestWord)

@[simp] theorem respond_cfg : (s.respond m r).cfg = s.cfg := rfl
@[simp] theorem respond_mem : (s.respond m r).mem = m := rfl
@[simp] theorem respond_request : (s.respond m r).request = s.request := rfl
@[simp] theorem respond_response : (s.respond m r).response = some r := rfl

@[simp] theorem submit_cfg : (s.submit q).cfg = s.cfg := rfl
@[simp] theorem submit_mem : (s.submit q).mem = s.mem := rfl
@[simp] theorem submit_request : (s.submit q).request = some q := rfl
@[simp] theorem submit_response : (s.submit q).response = s.response := rfl

@[simp] theorem takeRequest_cfg : s.takeRequest.cfg = s.cfg := rfl
@[simp] theorem takeRequest_mem : s.takeRequest.mem = s.mem := rfl
@[simp] theorem takeRequest_request : s.takeRequest.request = none := rfl
@[simp] theorem takeRequest_response : s.takeRequest.response = s.response := rfl

@[simp] theorem afterReset_cfg : s.afterReset.cfg = s.cfg := rfl
@[simp] theorem afterReset_mem : s.afterReset.mem = s.mem := rfl
@[simp] theorem afterReset_request : s.afterReset.request = none := rfl
@[simp] theorem afterReset_response : s.afterReset.response = none := rfl

@[simp] theorem resetWith_cfg (c : Config) : (resetWith c).cfg = c := rfl
@[simp] theorem resetWith_mem (c : Config) : (resetWith c).mem = [] := rfl
@[simp] theorem resetWith_request (c : Config) : (resetWith c).request = none := rfl
@[simp] theorem resetWith_response (c : Config) : (resetWith c).response = none := rfl

end Sys2Proof.Machine.State
end

