-- ==== Sys2Proof/Laws/Interface.lean ====
section
/-! SUPPORT. The request checks, said once: which requests pass them, and what a refused one answers. -/

namespace Sys2Proof.Machine

variable {s t : State} {a1 a2 : Addr} {l1 : Len1} {l2 : Len2} {k : Result} {r : Option Refusal}

@[simp] theorem unlessRefused_none : unlessRefused none k = k := rfl
@[simp] theorem unlessRefused_some (why : Refusal) : unlessRefused (some why) k = .refused why := rfl

/-- A request that gets a next state was not refused. -/
theorem unlessRefused_next (h : unlessRefused r k = .next t) : r = none ∧ k = .next t := by
  cases r with
  | none => exact ⟨rfl, h⟩
  | some why => cases h

theorem fieldLen1_eq (l : Len1) : fieldLen1 l = l.isFieldLength := rfl
theorem fieldLen2_eq (l : Len2) : fieldLen2 l = l.isFieldLength := rfl
theorem patternLen_eq (l : Len1) : patternLen l = l.isPatternLength := rfl

theorem inBuffer_iff (n : Nat) : inBuffer s a1 n = true ↔ Window.fits ⟨a1.toNat, n⟩ s.cfg.memSize := by
  simp [inBuffer, Window.fits]

theorem windowsMeet_iff (n m : Nat) :
    windowsMeet a1 n a2 m = true ↔ Window.meets ⟨a1.toNat, n⟩ ⟨a2.toNat, m⟩ := by
  simp only [windowsMeet, Window.meets, decide_eq_true_eq]
  omega

/-- The two-operand check passes exactly the requests inside the interface (R33, R48). -/
theorem refusalTwoFields_eq_none :
    refusalTwoFields s a1 l1 a2 l2 = none ↔
      (l1.isFieldLength && l2.isFieldLength) = true ∧
        (windowOf a1 l1).fits s.cfg.memSize ∧ (windowOf a2 l2).fits s.cfg.memSize := by
  rw [windowOf, windowOf, ← inBuffer_iff, ← inBuffer_iff, ← fieldLen1_eq, ← fieldLen2_eq, refusalTwoFields]
  generalize (fieldLen1 l1 && fieldLen2 l2) = b
  cases b <;> simp

theorem refusalOneField_eq_none :
    refusalOneField s a1 l1 = none ↔ l1.isFieldLength = true ∧ (windowOf a1 l1).fits s.cfg.memSize := by
  rw [windowOf, ← inBuffer_iff, ← fieldLen1_eq, refusalOneField]
  cases fieldLen1 l1 <;> simp

theorem refusalConvert_eq_none : refusalConvert s a2 = none ↔ Window.fits ⟨a2.toNat, 8⟩ s.cfg.memSize := by
  simp only [refusalConvert, ← inBuffer_iff]
  cases inBuffer s a2 8 <;> simp

theorem refusalMove_eq_none :
    refusalMove s a1 l1 a2 l2 = none ↔
      refusalTwoFields s a1 l1 a2 l2 = none ∧
        (s.cfg.overlapMode = .refuse → ¬ (windowOf a1 l1).meets (windowOf a2 l2)) := by
  simp only [refusalMove, windowOf, ← windowsMeet_iff]
  cases refusalTwoFields s a1 l1 a2 l2 with
  | some r => simp
  | none => simp

theorem refusalEdit_eq_none :
    refusalEdit s a1 l1 a2 = none ↔
      l1.isPatternLength = true ∧ (windowOf a1 l1).fits s.cfg.memSize ∧ Window.fits ⟨a2.toNat, 0⟩ s.cfg.memSize ∧
        (s.cfg.overlapMode = .refuse → ¬ (windowOf a1 l1).meets ⟨a2.toNat, l1.toNat⟩) := by
  rw [windowOf, ← windowsMeet_iff, ← inBuffer_iff, ← inBuffer_iff, ← patternLen_eq, refusalEdit]
  cases patternLen l1 <;> cases inBuffer s a1 l1.toNat <;> cases inBuffer s a2 0 <;> simp

/-- The check an instruction makes before anything else. -/
def refusalBefore (s : State) : Instr → Option Refusal
  | .ap a1 l1 a2 l2 _ => refusalTwoFields s a1 l1 a2 l2
  | .sp a1 l1 a2 l2 _ => refusalTwoFields s a1 l1 a2 l2
  | .cp a1 l1 a2 l2 _ => refusalTwoFields s a1 l1 a2 l2
  | .zap a1 l1 a2 l2 _ => refusalTwoFields s a1 l1 a2 l2
  | .mp a1 l1 a2 l2 _ => refusalTwoFields s a1 l1 a2 l2
  | .dp a1 l1 a2 l2 _ => refusalTwoFields s a1 l1 a2 l2
  | .edmk a1 l1 a2 _ _ => refusalEdit s a1 l1 a2
  | .srp a1 l1 _ _ _ => refusalOneField s a1 l1
  | .cvb a2 _ => refusalConvert s a2
  | .cvd a2 _ _ => refusalConvert s a2
  | .mvo a1 l1 a2 l2 _ => refusalMove s a1 l1 a2 l2
  | .pack a1 l1 a2 l2 _ => refusalMove s a1 l1 a2 l2
  | .unpk a1 l1 a2 l2 _ => refusalMove s a1 l1 a2 l2

/-- The checks pass exactly the requests inside the interface (R109). -/
theorem refusalBefore_eq_none (i : Instr) (s : State) :
    refusalBefore s i = none ↔ i.InsideInterface s.cfg := by
  constructor
  · intro h
    cases i <;>
      simp only [refusalBefore, refusalMove_eq_none, refusalEdit_eq_none, refusalTwoFields_eq_none,
        refusalOneField_eq_none, refusalConvert_eq_none] at h <;>
      refine ⟨?_, ?_, ?_⟩ <;>
      simp_all [Instr.wellFormed, Instr.fixedWindows, Instr.overlapAllowed, Instr.keptApart]
  · rintro ⟨h1, h2, h3⟩
    cases i <;>
      simp only [refusalBefore, refusalMove_eq_none, refusalEdit_eq_none, refusalTwoFields_eq_none,
        refusalOneField_eq_none, refusalConvert_eq_none] <;>
      simp_all [Instr.wellFormed, Instr.fixedWindows, Instr.overlapAllowed, Instr.keptApart]

theorem refusalTwoFields_some {why : Refusal} (h : refusalTwoFields s a1 l1 a2 l2 = some why) :
    why = .lengthOutOfRange ∨ why = .windowOutsideBuffer := by
  unfold refusalTwoFields at h
  (repeat' split at h) <;> simp_all

theorem refusalMove_some {why : Refusal} (h : refusalMove s a1 l1 a2 l2 = some why) :
    why = .lengthOutOfRange ∨ why = .windowOutsideBuffer ∨ why = .overlappingWindows := by
  unfold refusalMove at h
  split at h
  · rename_i r hr
    injection h with h
    subst h
    rcases refusalTwoFields_some hr with h | h <;> simp [h]
  · split at h <;> simp_all

/-- The reasons an instruction's check can give (R109). -/
theorem refusalBefore_some {i : Instr} {why : Refusal} (h : refusalBefore s i = some why) :
    why = .lengthOutOfRange ∨ why = .windowOutsideBuffer ∨ why = .overlappingWindows := by
  have two : ∀ {a1 a2 : Addr} {l1 : Len1} {l2 : Len2}, refusalTwoFields s a1 l1 a2 l2 = some why →
      why = .lengthOutOfRange ∨ why = .windowOutsideBuffer ∨ why = .overlappingWindows :=
    fun h => (refusalTwoFields_some h).imp_right Or.inl
  cases i <;> simp only [refusalBefore] at h
  case mvo | pack | unpk => exact refusalMove_some h
  case edmk => unfold refusalEdit at h; (repeat' split at h) <;> simp_all
  case srp => unfold refusalOneField at h; (repeat' split at h) <;> simp_all
  case cvb | cvd => unfold refusalConvert at h; (repeat' split at h) <;> simp_all
  all_goals exact two h

/-- An instruction whose check does not pass is refused with what the check says. -/
theorem exec_of_refusalBefore {i : Instr} {why : Refusal} (h : refusalBefore s i = some why) :
    exec i s = .refused why := by
  cases i <;> simp only [refusalBefore] at h <;>
    simp only [exec, execAp, execSp, execCp, execZap, execMp, execDp, execEdmk, execSrp, execCvb, execCvd, execMvo,
      execPack, execUnpk, h, unlessRefused_some]

/-- An instruction that answers a next state was inside the interface (R109). -/
theorem inside_of_next {i : Instr} (h : exec i s = .next t) : i.InsideInterface s.cfg := by
  rw [← refusalBefore_eq_none]
  cases hr : refusalBefore s i with
  | none => rfl
  | some why => rw [exec_of_refusalBefore hr] at h; cases h

end Sys2Proof.Machine
end

