-- ==== Sys2Proof/Laws/Cases.lean ====
section
/-! SUPPORT. One inversion lemma per meaning: what it can have done when it answers a next state; then one for the
step. Statements about what instructions do follow from these without unfolding a meaning. -/

namespace Sys2Proof.Machine

variable {s t : State} {a1 a2 : Addr} {l1 : Len1} {l2 : Len2} {cc : CondCode}

/-- The state after a suppressing exception. -/
def State.raised (s : State) (ic : InterruptionCode) (cc : CondCode) : State :=
  s.respond s.mem ⟨ic, cc, .none, .none⟩

/-- The state after a normal completion with no register and no value. -/
def State.completed (s : State) (m : Memory) (cc : CondCode) : State := s.respond m ⟨.none, cc, .none, .none⟩

@[simp] theorem raised_mem (ic : InterruptionCode) : (s.raised ic cc).mem = s.mem := rfl
@[simp] theorem raised_cfg (ic : InterruptionCode) : (s.raised ic cc).cfg = s.cfg := rfl
@[simp] theorem raised_request (ic : InterruptionCode) : (s.raised ic cc).request = s.request := rfl
@[simp] theorem raised_response (ic : InterruptionCode) :
    (s.raised ic cc).response = some ⟨ic, cc, .none, .none⟩ := rfl
@[simp] theorem completed_mem (m : Memory) : (s.completed m cc).mem = m := rfl
@[simp] theorem completed_cfg (m : Memory) : (s.completed m cc).cfg = s.cfg := rfl
@[simp] theorem completed_request (m : Memory) : (s.completed m cc).request = s.request := rfl
@[simp] theorem completed_response (m : Memory) :
    (s.completed m cc).response = some ⟨.none, cc, .none, .none⟩ := rfl

theorem raise_eq (s : State) (ic : InterruptionCode) (cc : CondCode) : raise s ic cc = .next (s.raised ic cc) := rfl
theorem complete_eq (s : State) (m : Memory) (cc : CondCode) : complete s m cc = .next (s.completed m cc) := rfl

/-- Both operands decode, or DATA is raised (R70). -/
theorem withDecoded_next {k : Int → Int → Result} (h : withDecoded s cc a1 l1 a2 l2 k = .next t) :
    t = s.raised .data cc ∨
      ∃ v1 v2, packedDecode s.mem a1.toNat l1.toNat = some v1 ∧ packedDecode s.mem a2.toNat l2.toNat = some v2 ∧
        k v1 v2 = .next t := by
  unfold withDecoded at h
  split at h
  · exact Or.inl (by injection h with h; exact h.symm)
  · split at h
    · exact Or.inl (by injection h with h; exact h.symm)
    · exact Or.inr ⟨_, _, ‹_›, ‹_›, h⟩

theorem withDecoded_some {k : Int → Int → Result} {v1 v2 : Int}
    (h1 : packedDecode s.mem a1.toNat l1.toNat = some v1) (h2 : packedDecode s.mem a2.toNat l2.toNat = some v2) :
    withDecoded s cc a1 l1 a2 l2 k = k v1 v2 := by
  simp only [withDecoded, h1, h2]

theorem withDecoded_none {k : Int → Int → Result}
    (h : packedDecode s.mem a1.toNat l1.toNat = none ∨ packedDecode s.mem a2.toNat l2.toNat = none) :
    withDecoded s cc a1 l1 a2 l2 k = .next (s.raised .data cc) := by
  unfold withDecoded
  split
  · rfl
  · split
    · rfl
    · rcases h with h | h <;> simp_all

theorem execAp_next (h : execAp a1 l1 a2 l2 cc s = .next t) :
    t = s.raised .data cc ∨
      ∃ r, t = s.completed (packedEncode s.mem r a1.toNat l1.toNat) (ccArith r (encodeOverflow r l1.toNat)) := by
  rcases withDecoded_next (unlessRefused_next h).2 with h | ⟨v1, v2, _, _, h⟩
  · exact Or.inl h
  · injection h with h
    exact Or.inr ⟨_, h.symm⟩

theorem execSp_next (h : execSp a1 l1 a2 l2 cc s = .next t) :
    t = s.raised .data cc ∨
      ∃ r, t = s.completed (packedEncode s.mem r a1.toNat l1.toNat) (ccArith r (encodeOverflow r l1.toNat)) := by
  rcases withDecoded_next (unlessRefused_next h).2 with h | ⟨v1, v2, _, _, h⟩
  · exact Or.inl h
  · injection h with h
    exact Or.inr ⟨_, h.symm⟩

theorem execZap_next (h : execZap a1 l1 a2 l2 cc s = .next t) :
    t = s.raised .data cc ∨
      ∃ r, t = s.completed (packedEncode s.mem r a1.toNat l1.toNat) (ccArith r (encodeOverflow r l1.toNat)) := by
  rcases withDecoded_next (unlessRefused_next h).2 with h | ⟨v1, v2, _, _, h⟩
  · exact Or.inl h
  · injection h with h
    exact Or.inr ⟨_, h.symm⟩

theorem execCp_next (h : execCp a1 l1 a2 l2 cc s = .next t) :
    t = s.raised .data cc ∨ ∃ v1 v2, t = s.completed s.mem (ccCompare v1 v2) := by
  rcases withDecoded_next (unlessRefused_next h).2 with h | ⟨v1, v2, _, _, h⟩
  · exact Or.inl h
  · injection h with h
    exact Or.inr ⟨_, _, h.symm⟩

theorem execMp_next (h : execMp a1 l1 a2 l2 cc s = .next t) :
    t = s.raised .specification cc ∨ t = s.raised .data cc ∨
      ∃ r, t = s.completed (packedEncode s.mem r a1.toNat l1.toNat) cc := by
  have h := (unlessRefused_next h).2
  split at h
  · injection h with h; exact Or.inl h.symm
  · split at h
    · injection h with h
      subst h
      cases s.cfg.mpZeroCheck
      · exact Or.inl rfl
      · exact Or.inr (Or.inl rfl)
    · rcases withDecoded_next h with h | ⟨v1, v2, _, _, h⟩
      · exact Or.inr (Or.inl h)
      · injection h with h
        exact Or.inr (Or.inr ⟨_, h.symm⟩)

theorem execDp_next (h : execDp a1 l1 a2 l2 cc s = .next t) :
    t = s.raised .specification cc ∨ t = s.raised .data cc ∨ t = s.raised .decimalDivide cc ∨
      (l2.toNat < l1.toNat ∧ ∃ q r, t = s.completed (storeQuotient s.mem q r a1 l1 l2) cc) := by
  have h := (unlessRefused_next h).2
  split at h
  · injection h with h; exact Or.inl h.symm
  · rename_i hl
    rcases withDecoded_next h with h | ⟨v1, v2, _, _, h⟩
    · exact Or.inr (Or.inl h)
    · split at h
      · injection h with h; exact Or.inr (Or.inr (Or.inl h.symm))
      · split at h
        · injection h with h; exact Or.inr (Or.inr (Or.inl h.symm))
        · injection h with h
          refine Or.inr (Or.inr (Or.inr ⟨?_, _, _, h.symm⟩))
          simp only [illegalLengths, decide_eq_true_eq] at hl
          omega

theorem execEdmk_next {reg : Word} (h : execEdmk a1 l1 a2 reg cc s = .next t) :
    (∃ e, editLoop s.cfg reg a1.toNat l1.toNat (editStart s.mem a1.toNat a2.toNat reg) = .done e ∧
        t = s.respond e.mem ⟨.none, ccEdit e.fz e.sig, some e.reg, .none⟩) ∨
      ∃ e, editLoop s.cfg reg a1.toNat l1.toNat (editStart s.mem a1.toNat a2.toNat reg) = .data e ∧
        t = s.respond e.mem ⟨.data, cc, some e.reg, .none⟩ :=
  editResult_cases (unlessRefused_next h).2

theorem execSrp_next {sh : ShiftField} {i3 : Nibble} (h : execSrp a1 l1 sh i3 cc s = .next t) :
    t = s.raised .data cc ∨
      ∃ res sign ovf neg,
        t = s.completed (s.mem.writeBytes a1.toNat (packField res sign l1.toNat)) (ccShift res ovf neg) := by
  have h := (unlessRefused_next h).2
  have shifted : ∀ {res ovf neg}, storeShifted s a1 l1 res ovf neg = .next t →
      ∃ res sign ovf neg,
        t = s.completed (s.mem.writeBytes a1.toNat (packField res sign l1.toNat)) (ccShift res ovf neg) := by
    intro res ovf neg h
    injection h with h
    exact ⟨_, _, _, _, h.symm⟩
  split at h
  · injection h with h; exact Or.inl h.symm
  · split at h
    · injection h with h; exact Or.inl h.symm
    · dsimp only at h
      (repeat' split at h) <;> exact Or.inr (shifted h)

theorem execCvb_next (h : execCvb a2 cc s = .next t) :
    t = s.raised .data cc ∨
      ∃ ic v, (ic = .none ∨ ic = .fixedPointDivide) ∧ t = s.respond s.mem ⟨ic, cc, .none, some v⟩ := by
  have h := (unlessRefused_next h).2
  split at h
  · injection h with h; exact Or.inl h.symm
  · split at h
    · injection h with h; exact Or.inr ⟨_, _, Or.inr rfl, h.symm⟩
    · injection h with h; exact Or.inr ⟨_, _, Or.inl rfl, h.symm⟩

theorem execCvd_next {val : Word} (h : execCvd a2 val cc s = .next t) :
    t = s.completed (packedEncode s.mem val.toInt a2.toNat 8) cc := by
  have h := (unlessRefused_next h).2
  injection h with h
  exact h.symm

theorem execMvo_next (h : execMvo a1 l1 a2 l2 cc s = .next t) :
    t = s.completed (mvoMemory s.mem a1.toNat l1.toNat a2.toNat l2.toNat) cc := by
  have h := (unlessRefused_next h).2
  injection h with h
  exact h.symm

theorem execPack_next (h : execPack a1 l1 a2 l2 cc s = .next t) :
    t = s.completed (packMemory s.mem a1.toNat l1.toNat a2.toNat l2.toNat) cc := by
  have h := (unlessRefused_next h).2
  injection h with h
  exact h.symm

theorem execUnpk_next (h : execUnpk a1 l1 a2 l2 cc s = .next t) :
    t = s.completed (unpackZoned s.mem a2.toNat l2.toNat a1.toNat l1.toNat zone true).1 cc := by
  have h := (unlessRefused_next h).2
  injection h with h
  exact h.symm

/-- Every meaning ends a request the same way: a new memory and a response, nothing else. -/
theorem exec_next {i : Instr} (h : exec i s = .next t) : ∃ m r, t = s.respond m r := by
  cases i with
  | ap => rcases execAp_next h with h | ⟨_, h⟩ <;> exact ⟨_, _, h⟩
  | sp => rcases execSp_next h with h | ⟨_, h⟩ <;> exact ⟨_, _, h⟩
  | cp => rcases execCp_next h with h | ⟨_, _, h⟩ <;> exact ⟨_, _, h⟩
  | zap => rcases execZap_next h with h | ⟨_, h⟩ <;> exact ⟨_, _, h⟩
  | mp => rcases execMp_next h with h | h | ⟨_, h⟩ <;> exact ⟨_, _, h⟩
  | dp => rcases execDp_next h with h | h | h | ⟨_, _, _, h⟩ <;> exact ⟨_, _, h⟩
  | edmk => rcases execEdmk_next h with ⟨_, _, h⟩ | ⟨_, _, h⟩ <;> exact ⟨_, _, h⟩
  | srp => rcases execSrp_next h with h | ⟨_, _, _, _, h⟩ <;> exact ⟨_, _, h⟩
  | cvb => rcases execCvb_next h with h | ⟨_, _, _, h⟩ <;> exact ⟨_, _, h⟩
  | cvd => exact ⟨_, _, execCvd_next h⟩
  | mvo => exact ⟨_, _, execMvo_next h⟩
  | pack => exact ⟨_, _, execPack_next h⟩
  | unpk => exact ⟨_, _, execUnpk_next h⟩

/-- Every meaning touches only the window it writes, and no memory where it writes none (R34). -/
theorem exec_touches {i : Instr} {s t : State} (h : exec i s = .next t) :
    (i.writes = none → t.mem = s.mem) ∧ (∀ w, i.writes = some w → Touches w s.mem t.mem) := by
  have hin := inside_of_next h
  have fl : ∀ {l : Len1}, l.isFieldLength = true → 1 ≤ l.toNat := by
    intro l hl; simp only [Len1.isFieldLength, decide_eq_true_eq] at hl; exact hl.1
  cases i with
  | ap a1 l1 a2 l2 cc =>
    refine ⟨nofun, fun w hw => ?_⟩
    injection hw with hw; subst hw
    rcases execAp_next h with rfl | ⟨r, rfl⟩
    · exact Touches.refl _ _
    · exact packedEncode_touches _ _ _ _
  | sp a1 l1 a2 l2 cc =>
    refine ⟨nofun, fun w hw => ?_⟩
    injection hw with hw; subst hw
    rcases execSp_next h with rfl | ⟨r, rfl⟩
    · exact Touches.refl _ _
    · exact packedEncode_touches _ _ _ _
  | cp a1 l1 a2 l2 cc =>
    refine ⟨fun _ => ?_, nofun⟩
    rcases execCp_next h with rfl | ⟨_, _, rfl⟩ <;> rfl
  | zap a1 l1 a2 l2 cc =>
    refine ⟨nofun, fun w hw => ?_⟩
    injection hw with hw; subst hw
    rcases execZap_next h with rfl | ⟨r, rfl⟩
    · exact Touches.refl _ _
    · exact packedEncode_touches _ _ _ _
  | mp a1 l1 a2 l2 cc =>
    refine ⟨nofun, fun w hw => ?_⟩
    injection hw with hw; subst hw
    rcases execMp_next h with rfl | rfl | ⟨r, rfl⟩
    · exact Touches.refl _ _
    · exact Touches.refl _ _
    · exact packedEncode_touches _ _ _ _
  | dp a1 l1 a2 l2 cc =>
    refine ⟨nofun, fun w hw => ?_⟩
    injection hw with hw; subst hw
    rcases execDp_next h with rfl | rfl | rfl | ⟨hl, q, r, rfl⟩
    · exact Touches.refl _ _
    · exact Touches.refl _ _
    · exact Touches.refl _ _
    · exact storeQuotient_touches _ _ _ _ _ _ hl
  | edmk a1 l1 a2 reg cc =>
    refine ⟨nofun, fun w hw => ?_⟩
    injection hw with hw; subst hw
    rcases execEdmk_next h with ⟨e, he, rfl⟩ | ⟨e, he, rfl⟩
    · have := editLoop_spec (e' := e) (by rw [he]; rfl)
      refine this.1.mono fun a ha => ?_
      have h2 := this.2.2.1
      simp only [editStart, windowOf, Window.holds] at *
      omega
    · have := editLoop_spec (e' := e) (by rw [he]; rfl)
      refine this.1.mono fun a ha => ?_
      have h2 := this.2.2.1
      simp only [editStart, windowOf, Window.holds] at *
      omega
  | srp a1 l1 sh i3 cc =>
    refine ⟨nofun, fun w hw => ?_⟩
    injection hw with hw; subst hw
    rcases execSrp_next h with rfl | ⟨_, _, _, _, rfl⟩
    · exact Touches.refl _ _
    · exact Touches.writeBytes _ _ _ (by simp)
  | cvb a2 cc =>
    refine ⟨fun _ => ?_, nofun⟩
    rcases execCvb_next h with rfl | ⟨_, _, _, rfl⟩ <;> rfl
  | cvd a2 val cc =>
    refine ⟨nofun, fun w hw => ?_⟩
    injection hw with hw; subst hw
    rw [execCvd_next h]
    exact packedEncode_touches _ _ _ _
  | mvo a1 l1 a2 l2 cc =>
    refine ⟨nofun, fun w hw => ?_⟩
    injection hw with hw; subst hw
    rw [execMvo_next h]
    have hl := hin.lengths
    simp only [Instr.wellFormed, Bool.and_eq_true] at hl
    exact mvoMemory_touches _ _ _ _ _ (fl hl.1)
  | pack a1 l1 a2 l2 cc =>
    refine ⟨nofun, fun w hw => ?_⟩
    injection hw with hw; subst hw
    rw [execPack_next h]
    have hl := hin.lengths
    simp only [Instr.wellFormed, Bool.and_eq_true] at hl
    exact packMemory_touches _ _ _ _ _ (fl hl.1)
  | unpk a1 l1 a2 l2 cc =>
    refine ⟨nofun, fun w hw => ?_⟩
    injection hw with hw; subst hw
    rw [execUnpk_next h]
    have hl := hin.lengths
    simp only [Instr.wellFormed, Bool.and_eq_true] at hl
    exact unpackZoned_touches _ _ _ _ _ _ _ (fl hl.1)

/-- A meaning refuses for one of three reasons (R109). -/
theorem exec_refused {i : Instr} {why : Refusal} (h : exec i s = .refused why) :
    why = .lengthOutOfRange ∨ why = .windowOutsideBuffer ∨ why = .overlappingWindows := by
  cases hr : refusalBefore s i with
  | some why' =>
    rw [exec_of_refusalBefore hr] at h
    injection h with h
    exact h ▸ refusalBefore_some hr
  | none =>
    cases i <;> simp only [refusalBefore] at hr <;>
      simp only [exec, execAp, execSp, execCp, execZap, execMp, execDp, execEdmk, execSrp, execCvb, execCvd, execMvo,
        execPack, execUnpk, hr, unlessRefused_none, withDecoded, storeArith, complete, raise, raiseWith, storeShifted,
        editResult] at h <;> (repeat' split at h) <;> cases h
    exact Or.inr (Or.inl rfl)

/-- What a step that answers a next state did: nothing, or one instruction on the state with its request taken. -/
theorem step_next (h : step s = .next t) :
    (s.request = none ∧ t = s) ∨ ∃ q i, s.request = some q ∧ decode q = .ok i ∧ exec i s.takeRequest = .next t := by
  unfold step at h
  split at h
  · injection h with h; exact Or.inl ⟨‹_›, h.symm⟩
  · split at h
    · exact Or.inr ⟨_, _, ‹_›, ‹_›, h⟩
    · cases h

/-- A step with a request pending that does not decode refuses it. -/
theorem step_of_reject {q : RequestWord} {e : DecodeReject} (hq : s.request = some q) (hd : decode q = .error e) :
    step s = .refused (refusalOf e) := by
  simp only [step, hq, hd]

end Sys2Proof.Machine
end

