-- ==== Sys2Proof/Laws/Decode.lean ====
section
/-! SUPPORT. The request word and its record are two spellings of one thing. -/

namespace Sys2Proof

/-- The record read from the canonical word of a record: bits 59:28 come back under both their names. -/
theorem Request.ofWord_toWord (r : Request) :
    Request.ofWord r.toWord = { r with regIn := r.sharedValue, valIn := r.sharedValue } := by
  simp only [Request.ofWord, Request.toWord, Request.mk.injEq]
  refine ⟨?_, ?_, ?_, ?_, ?_, ?_, ?_, ?_, ?_, ?_, ?_⟩ <;>
    (ext i hi
     simp only [BitVec.getElem_extractLsb', BitVec.getLsbD_append]
     repeat (first | rw [if_pos (by omega)] | rw [if_neg (by omega)])
     rw [BitVec.getLsbD_eq_getElem (by omega)]
     exact getElem_congr_idx (by omega))

/-- The canonical word of the record read from a word is that word. -/
theorem Request.toWord_ofWord (q : RequestWord) : (Request.ofWord q).toWord = q := by
  have hs : (Request.ofWord q).sharedValue = q.extractLsb' 28 32 := by
    unfold Request.sharedValue
    split <;> rfl
  unfold Request.toWord
  rw [hs]
  apply BitVec.eq_of_getLsbD_eq
  intro i hi
  simp only [Request.ofWord, BitVec.getLsbD_append, BitVec.getLsbD_extractLsb']
  repeat' split
  all_goals
    rw [decide_eq_true (by omega), Bool.true_and]
    exact congrArg q.getLsbD (by omega)

/-- The reserved bits of a request read from a word. -/
theorem Request.ofWord_reserved (q : RequestWord) : (Request.ofWord q).reserved = q.extractLsb' 0 28 := rfl

/-- A request whose reserved bits are zero decodes by its OP alone. -/
theorem Request.toInstr_of_reserved {r : Request} (h : r.reserved = 0) :
    r.toInstr = match opTable.find? (fun row => row.1 == r.op) with
      | some row => .ok (row.2 r)
      | none => .error .unknownOp := by
  exact if_pos h

/-- A request with a reserved bit set is rejected. -/
theorem Request.toInstr_of_reserved_ne {r : Request} (h : r.reserved ≠ 0) :
    r.toInstr = .error .reservedBits := by
  exact if_neg h

/-- The decoder reads the request record back from the word it is encoded in. -/
theorem decode_toWord (r : Request) :
    decode r.toWord = { r with regIn := r.sharedValue, valIn := r.sharedValue : Request }.toInstr := by
  rw [decode, Request.ofWord_toWord]

/-- A request record stands for the instruction of the row of the operation map that has its OP. -/
theorem Request.toInstr_ok {r : Request} {i : Instr} :
    r.toInstr = .ok i ↔ r.reserved = 0 ∧ ∃ row ∈ opTable, row.1 = r.op ∧ i = row.2 r := by
  constructor
  · intro h
    by_cases hr : r.reserved = 0
    · rw [Request.toInstr_of_reserved hr] at h
      refine ⟨hr, ?_⟩
      split at h
      · rename_i row hf
        injection h with h
        exact ⟨row, List.mem_of_find?_eq_some hf, by simpa using List.find?_some hf, h.symm⟩
      · cases h
    · rw [Request.toInstr_of_reserved_ne hr] at h; cases h
  · rintro ⟨hr, row, hm, ho, rfl⟩
    rw [Request.toInstr_of_reserved hr]
    simp only [opTable, List.mem_cons, List.not_mem_nil, or_false] at hm
    rcases hm with rfl|rfl|rfl|rfl|rfl|rfl|rfl|rfl|rfl|rfl|rfl|rfl|rfl <;>
      (simp only at ho; rw [← ho]; rfl)

end Sys2Proof
end

