-- ==== Sys2Proof/Laws/Loops.lean ====
section
/-! SUPPORT. What the right-to-left loops of unpack, MVO and PACK leave, byte by byte counted from the right, when the
source does not overlap the bytes they write. -/

namespace Sys2Proof.Machine

/-- Byte j, counted from the right, of the m bytes at a; zero beyond them. -/
def fromRight (mem : Memory) (a m j : Nat) : Byte := if j < m then mem.read (a + (m - 1 - j)) else 0

theorem fromRight_zero (mem : Memory) (a m : Nat) : fromRight mem a (m + 1) 0 = mem.read (a + m) := by
  simp [fromRight]

theorem fromRight_succ (mem : Memory) (a m j : Nat) : fromRight mem a (m + 1) (j + 1) = fromRight mem a m j := by
  unfold fromRight
  by_cases h : j < m
  · rw [if_pos h, if_pos (by omega), show m + 1 - 1 - (j + 1) = m - 1 - j by omega]
  · rw [if_neg h, if_neg (by omega)]

@[simp] theorem fromRight_none (mem : Memory) (a j : Nat) : fromRight mem a 0 j = 0 := by simp [fromRight]

/-- A store outside the bytes leaves them. -/
theorem fromRight_write (mem : Memory) {a m j b : Nat} (v : Byte) (h : b < a ∨ a + m ≤ b) :
    fromRight (mem.write b v) a m j = fromRight mem a m j := by
  unfold fromRight
  split
  · rw [Memory.read_write_of_ne _ _ (by omega)]
  · rfl

@[simp] theorem hiNib_zero : hiNib 0#8 = 0#4 := by decide
@[simp] theorem loNib_zero : loNib 0#8 = 0#4 := by decide

/-- MVO's loop: byte r takes the low nibble of source byte r, and the high nibble of the one to its right, or the
carry. -/
theorem mvoLoop_read {a1 a2 n m r : Nat} {carry : Nibble} {mem : Memory} (h : a2 + m ≤ a1 ∨ a1 + n ≤ a2)
    (hr : r < n) :
    (mvoLoop a1 a2 n m carry mem).read (a1 + (n - 1 - r)) =
      mkByte (loNib (fromRight mem a2 m r)) (if r = 0 then carry else hiNib (fromRight mem a2 m (r - 1))) := by
  induction n generalizing m r carry mem with
  | zero => omega
  | succ n ih =>
    cases m with
    | zero =>
      unfold mvoLoop
      cases r with
      | zero =>
        rw [(mvoLoop_touches a1 a2 n 0 0 _).frame _ (by rw [Window.holds_mk]; omega)]
        simp
      | succ r =>
        rw [show n + 1 - 1 - (r + 1) = n - 1 - r by omega, ih (by omega) (by omega)]
        simp
    | succ m =>
      unfold mvoLoop
      cases r with
      | zero =>
        rw [(mvoLoop_touches a1 a2 n m _ _).frame _ (by rw [Window.holds_mk]; omega)]
        simp [fromRight_zero]
      | succ r =>
        rw [show n + 1 - 1 - (r + 1) = n - 1 - r by omega, ih (by omega) (by omega),
          fromRight_write _ _ (by omega), fromRight_write _ _ (by omega), fromRight_succ, if_neg (Nat.succ_ne_zero r)]
        cases r with
        | zero => simp [fromRight_zero]
        | succ r => simp [fromRight_succ]

/-- PACK's loop: byte r takes the digits of source bytes 2r + 1 and 2r. -/
theorem packLoop_read {a1 a2 n m r : Nat} {mem : Memory} (h : a2 + m ≤ a1 ∨ a1 + n ≤ a2) (hr : r < n) :
    (packLoop a1 a2 n m mem).read (a1 + (n - 1 - r)) =
      mkByte (loNib (fromRight mem a2 m (2 * r + 1))) (loNib (fromRight mem a2 m (2 * r))) := by
  have digit : ∀ (mem : Memory) (m : Nat), zonedDigit mem a2 m = loNib (fromRight mem a2 m 0) := by
    intro mem m
    cases m with
    | zero => simp [zonedDigit]
    | succ m => simp [zonedDigit, fromRight_zero]
  have next : ∀ (mem : Memory) (m : Nat), zonedDigit mem a2 (m - 1) = loNib (fromRight mem a2 m 1) := by
    intro mem m
    cases m with
    | zero => simp [zonedDigit]
    | succ m => rw [Nat.add_sub_cancel, digit, fromRight_succ]
  have skip : ∀ (mem : Memory) (m j : Nat), fromRight mem a2 (m - 2) j = fromRight mem a2 m (j + 2) := by
    intro mem m j
    match m with
    | 0 => simp
    | 1 => simp [fromRight]
    | m + 2 => rw [Nat.add_sub_cancel, fromRight_succ, fromRight_succ]
  induction n generalizing m r mem with
  | zero => omega
  | succ n ih =>
    unfold packLoop
    cases r with
    | zero =>
      rw [(packLoop_touches a1 a2 n _ _).frame _ (by rw [Window.holds_mk]; omega)]
      rw [next, digit]
      simp
    | succ r =>
      rw [show n + 1 - 1 - (r + 1) = n - 1 - r by omega, ih (by omega) (by omega),
        fromRight_write _ _ (by omega), fromRight_write _ _ (by omega), skip, skip,
        show 2 * r + 1 + 2 = 2 * (r + 1) + 1 by omega, show 2 * r + 2 = 2 * (r + 1) by omega]

/-- The digit unpack's loop places at zoned byte r: the low and the high nibble of each source byte in turn. -/
def unpackDigit (mem : Memory) (ap m r : Nat) : Nibble :=
  if r % 2 = 0 then loNib (fromRight mem ap m (r / 2)) else hiNib (fromRight mem ap m (r / 2))

/-- Unpack's loop: zoned byte r takes the fill and its digit, after the pending one where there is one (R68). -/
theorem unpackLoop_read {ap az n m r : Nat} {fill : Nibble} {pend : Option Nibble} {mem : Memory}
    (h : ap + m ≤ az ∨ az + n ≤ ap) (hr : r < n) :
    (unpackLoop ap az fill n m pend mem).read (az + (n - 1 - r)) =
      mkByte fill (match pend with
        | some d => if r = 0 then d else unpackDigit mem ap m (r - 1)
        | none => unpackDigit mem ap m r) := by
  have keep : ∀ (mem : Memory) (v : Byte) (m r b : Nat), b < ap ∨ ap + m ≤ b →
      unpackDigit (mem.write b v) ap m r = unpackDigit mem ap m r := by
    intro mem v m r b hb
    unfold unpackDigit
    rw [fromRight_write _ _ hb]
  induction n generalizing m r pend mem with
  | zero => omega
  | succ n ih =>
    cases pend with
    | some d =>
      unfold unpackLoop
      cases r with
      | zero =>
        rw [(unpackLoop_touches ap az fill n m none _).frame _ (by rw [Window.holds_mk]; omega)]
        simp
      | succ r =>
        rw [show n + 1 - 1 - (r + 1) = n - 1 - r by omega, ih (by omega) (by omega)]
        simp [keep mem _ m r (az + n) (by omega)]
    | none =>
      cases m with
      | zero =>
        unfold unpackLoop
        cases r with
        | zero =>
          rw [(unpackLoop_touches ap az fill n 0 none _).frame _ (by rw [Window.holds_mk]; omega)]
          simp [unpackDigit]
        | succ r =>
          rw [show n + 1 - 1 - (r + 1) = n - 1 - r by omega, ih (by omega) (by omega)]
          simp [unpackDigit]
      | succ m =>
        unfold unpackLoop
        cases r with
        | zero =>
          rw [(unpackLoop_touches ap az fill n m _ _).frame _ (by rw [Window.holds_mk]; omega)]
          simp [unpackDigit, fromRight_zero]
        | succ r =>
          rw [show n + 1 - 1 - (r + 1) = n - 1 - r by omega, ih (by omega) (by omega)]
          cases r with
          | zero => simp [unpackDigit, fromRight_zero]
          | succ r =>
            have h2 : (r + 1 + 1) / 2 = r / 2 + 1 := by omega
            simp only [Nat.add_sub_cancel, if_neg (Nat.succ_ne_zero r), keep mem _ m r (az + n) (by omega)]
            simp only [unpackDigit, h2, fromRight_succ, show (r + 1 + 1) % 2 = r % 2 by omega]

end Sys2Proof.Machine
end

