-- ==== Sys2Proof/Laws/Overlap.lean ====
section
/-! SUPPORT. What the right-to-left loops of MVO, PACK and unpack leave for any two windows, overlapping ones included:
each byte is made of source bytes read as they stand when the bytes to its right have been written (R41). -/

namespace Sys2Proof.Machine

/-- Byte d, counted from the right, of the m source bytes at a, read when n bytes from `right` leftward have been
written; zero beyond the source. -/
def sourceWhenWritten (before after : Memory) (right n a m d : Nat) : Byte :=
  if d < m then readWhenWritten before after right n (a + (m - 1 - d)) else 0

/-- Before the first store the source reads as it was. -/
@[simp] theorem readWhenWritten_zero (before after : Memory) (right x : Nat) :
    readWhenWritten before after right 0 x = before.read x := by
  unfold readWhenWritten
  rw [if_neg (by omega)]

/-- A byte that no store has reached reads as it was. -/
theorem readWhenWritten_before {before after : Memory} {right n x : Nat} (h : right < x ∨ x + n ≤ right) :
    readWhenWritten before after right n x = before.read x := by
  unfold readWhenWritten
  rw [if_neg (by omega)]

theorem sourceWhenWritten_zero (before after : Memory) (right a m d : Nat) :
    sourceWhenWritten before after right 0 a m d = fromRight before a m d := by
  simp [sourceWhenWritten, fromRight]

/-- The source byte j places further left is the same byte of the source without its j rightmost bytes. -/
theorem sourceWhenWritten_skip (before after : Memory) (right n a m d j : Nat) :
    sourceWhenWritten before after right n a (m - j) d = sourceWhenWritten before after right n a m (d + j) := by
  unfold sourceWhenWritten
  by_cases h : d + j < m
  · rw [if_pos h, if_pos (by omega), show m - j - 1 - d = m - 1 - (d + j) by omega]
  · rw [if_neg h, if_neg (by omega)]

/-- The first store of a loop that writes nothing at or right of it again. -/
theorem sourceWhenWritten_step {mem after : Memory} {b n a m d r : Nat} {v : Byte}
    (h : ∀ x, b + n ≤ x → after.read x = (mem.write (b + n) v).read x) (hr : r < n) :
    sourceWhenWritten (mem.write (b + n) v) after (b + n - 1) r a m d =
      sourceWhenWritten mem after (b + n) (r + 1) a m d := by
  unfold sourceWhenWritten
  split
  · generalize a + (m - 1 - d) = x
    unfold readWhenWritten
    by_cases h1 : x ≤ b + n ∧ b + n < x + (r + 1)
    · rw [if_pos h1]
      by_cases h2 : x = b + n
      · rw [if_neg (by omega), h x (by omega)]
      · rw [if_pos (by omega)]
    · rw [if_neg h1, if_neg (by omega), Memory.read_write_of_ne _ _ (by omega)]
  · rfl

/-- MVO's loop, for any two windows: byte r takes the low nibble of source byte r, and the high nibble of the one to
its right as it stood one store earlier, or the carry. -/
theorem mvoLoop_sequential {a1 a2 n m r : Nat} {carry : Nibble} {mem : Memory} (hr : r < n) :
    let after := mvoLoop a1 a2 n m carry mem
    after.read (a1 + (n - 1 - r)) =
      mkByte (loNib (sourceWhenWritten mem after (a1 + n - 1) r a2 m r))
        (if r = 0 then carry else hiNib (sourceWhenWritten mem after (a1 + n - 1) (r - 1) a2 m (r - 1))) := by
  dsimp only
  induction n generalizing m r carry mem with
  | zero => omega
  | succ n ih =>
    have frame : ∀ (m : Nat) (carry : Nibble) (mem : Memory) (x : Nat), a1 + n ≤ x →
        (mvoLoop a1 a2 n m carry mem).read x = mem.read x := fun m carry mem x hx =>
      (mvoLoop_touches a1 a2 n m carry mem).frame _ (by rw [Window.holds_mk]; omega)
    cases r with
    | zero =>
      rw [sourceWhenWritten_zero, if_pos rfl, Nat.add_sub_cancel, Nat.sub_zero]
      cases m with
      | zero =>
        unfold mvoLoop
        rw [frame _ _ _ _ (le_refl _), Memory.read_write_same, fromRight_none]
        rfl
      | succ m =>
        unfold mvoLoop
        rw [frame _ _ _ _ (le_refl _), Memory.read_write_same, fromRight_zero]
    | succ r =>
      have hn : r < n := by omega
      rw [if_neg (Nat.succ_ne_zero r), show n + 1 - 1 - (r + 1) = n - 1 - r by omega, show r + 1 - 1 = r from rfl,
        show a1 + (n + 1) - 1 = a1 + n by omega]
      cases m with
      | zero =>
        unfold mvoLoop
        rw [ih hn]
        simp [sourceWhenWritten]
      | succ m =>
        unfold mvoLoop
        have skip := fun (mem after : Memory) (r d : Nat) =>
          sourceWhenWritten_skip mem after (a1 + n) r a2 (m + 1) d 1
        rw [ih hn, sourceWhenWritten_step (frame _ _ _) hn, show m = m + 1 - 1 from rfl, skip]
        congr 1
        cases r with
        | zero => rw [if_pos rfl, sourceWhenWritten_zero, Nat.add_sub_cancel, fromRight_zero]
        | succ r =>
          rw [if_neg (Nat.succ_ne_zero r), Nat.add_sub_cancel, Nat.add_sub_cancel,
            sourceWhenWritten_step (frame _ _ _) (by omega)]
          congr 1
          rw [← skip]
          rfl

/-- PACK's loop, for any two windows: byte r takes the digits of source bytes 2r + 1 and 2r. -/
theorem packLoop_sequential {a1 a2 n m r : Nat} {mem : Memory} (hr : r < n) :
    let after := packLoop a1 a2 n m mem
    after.read (a1 + (n - 1 - r)) =
      mkByte (loNib (sourceWhenWritten mem after (a1 + n - 1) r a2 m (2 * r + 1)))
        (loNib (sourceWhenWritten mem after (a1 + n - 1) r a2 m (2 * r))) := by
  dsimp only
  have digit : ∀ (mem : Memory) (m : Nat), zonedDigit mem a2 m = loNib (fromRight mem a2 m 0) := by
    intro mem m
    cases m with
    | zero => simp [zonedDigit]
    | succ m => simp [zonedDigit, fromRight_zero]
  have next : ∀ (mem : Memory) (m : Nat), zonedDigit mem a2 (m - 1) = loNib (fromRight mem a2 m 1) := by
    intro mem m
    cases m with
    | zero => simp [zonedDigit]
    | succ m => rw [Nat.add_sub_cancel, digit, fromRight_succ]
  induction n generalizing m r mem with
  | zero => omega
  | succ n ih =>
    have frame : ∀ (m : Nat) (mem : Memory) (x : Nat), a1 + n ≤ x →
        (packLoop a1 a2 n m mem).read x = mem.read x := fun m mem x hx =>
      (packLoop_touches a1 a2 n m mem).frame _ (by rw [Window.holds_mk]; omega)
    cases r with
    | zero =>
      rw [sourceWhenWritten_zero, sourceWhenWritten_zero, Nat.add_sub_cancel, Nat.sub_zero]
      unfold packLoop
      rw [frame _ _ _ (le_refl _), Memory.read_write_same, next, digit]
    | succ r =>
      have hn : r < n := by omega
      rw [show n + 1 - 1 - (r + 1) = n - 1 - r by omega, show a1 + (n + 1) - 1 = a1 + n by omega]
      unfold packLoop
      rw [ih hn, sourceWhenWritten_step (frame _ _) hn, sourceWhenWritten_step (frame _ _) hn,
        sourceWhenWritten_skip, sourceWhenWritten_skip, show 2 * r + 1 + 2 = 2 * (r + 1) + 1 by omega,
        show 2 * r + 2 = 2 * (r + 1) by omega]

/-- The digit unpack's loop places at zoned byte r, for any two windows: the low nibble of a source byte, and one store
later its high nibble, as it stood at the first of the two. -/
def unpackSource (before after : Memory) (right ap m r : Nat) : Nibble :=
  if r % 2 = 0 then loNib (sourceWhenWritten before after right r ap m (r / 2))
  else hiNib (sourceWhenWritten before after right (r - 1) ap m (r / 2))

/-- Unpack's loop with nothing pending, for any two windows (R68). -/
theorem unpackLoop_sequential {ap az n m r : Nat} {fill : Nibble} {mem : Memory} (hr : r < n) :
    let after := unpackLoop ap az fill n m none mem
    after.read (az + (n - 1 - r)) = mkByte fill (unpackSource mem after (az + n - 1) ap m r) := by
  dsimp only
  have frame : ∀ (n m : Nat) (pend : Option Nibble) (mem : Memory) (x : Nat), az + n ≤ x →
      (unpackLoop ap az fill n m pend mem).read x = mem.read x := fun n m pend mem x hx =>
    (unpackLoop_touches ap az fill n m pend mem).frame _ (by rw [Window.holds_mk]; omega)
  induction n using Nat.strong_induction_on generalizing m r mem with
  | _ n ih =>
    obtain ⟨n, rfl⟩ : ∃ j, n = j + 1 := ⟨n - 1, by omega⟩
    rw [Nat.add_sub_cancel, show az + (n + 1) - 1 = az + n by omega]
    cases m with
    | zero =>
      unfold unpackLoop
      have nothing : ∀ (before after : Memory) (right r : Nat), unpackSource before after right ap 0 r = 0 := by
        intro before after right r
        unfold unpackSource sourceWhenWritten
        split <;> simp
      rw [nothing]
      cases r with
      | zero => rw [Nat.sub_zero, frame _ _ _ _ _ (le_refl _), Memory.read_write_same]
      | succ r => rw [show n - (r + 1) = n - 1 - r by omega, ih n (by omega) (by omega), nothing]
    | succ m =>
      unfold unpackLoop
      cases r with
      | zero =>
        rw [Nat.sub_zero, frame _ _ _ _ _ (le_refl _), Memory.read_write_same]
        simp [unpackSource, sourceWhenWritten]
      | succ r =>
        obtain ⟨n, rfl⟩ : ∃ j, n = j + 1 := ⟨n - 1, by omega⟩
        unfold unpackLoop
        cases r with
        | zero =>
          rw [show n + 1 - (0 + 1) = n by omega, frame _ _ _ _ _ (le_refl _), Memory.read_write_same]
          simp [unpackSource, sourceWhenWritten]
        | succ r =>
          rw [show n + 1 - (r + 1 + 1) = n - 1 - r by omega, ih n (by omega) (by omega)]
          generalize hafter : unpackLoop ap az fill n m none _ = after
          have hf : ∀ x, az + n ≤ x → after.read x =
              ((mem.write (az + (n + 1)) (mkByte fill (loNib (mem.read (ap + m))))).write (az + n)
                (mkByte fill (hiNib (mem.read (ap + m))))).read x := fun x hx => by
            rw [← hafter]
            exact frame _ _ _ _ _ hx
          have two : ∀ r < n, ∀ d, sourceWhenWritten
              ((mem.write (az + (n + 1)) (mkByte fill (loNib (mem.read (ap + m))))).write (az + n)
                (mkByte fill (hiNib (mem.read (ap + m))))) after (az + n - 1) r ap m d =
              sourceWhenWritten mem after (az + (n + 1)) (r + 1 + 1) ap (m + 1) (d + 1) := by
            intro r hr d
            rw [sourceWhenWritten_step hf hr, show m = m + 1 - 1 from rfl, sourceWhenWritten_skip,
              ← sourceWhenWritten_step (b := az) (n := n + 1)
                (v := mkByte fill (loNib (mem.read (ap + m)))) ?_ (by omega)]
            · rfl
            · intro x hx
              rw [hf x (by omega), Memory.read_write_of_ne _ _ (by omega)]
          congr 1
          unfold unpackSource
          rw [show (r + 1 + 1) % 2 = r % 2 by omega, show (r + 1 + 1) / 2 = r / 2 + 1 by omega, two r (by omega)]
          split
          · rfl
          · rw [two (r - 1) (by omega), show r - 1 + 1 + 1 = r + 1 + 1 - 1 by omega]

end Sys2Proof.Machine
end

