-- ==== Sys2Proof/Laws/PerInstr.lean ====
section
/-! SUPPORT. Facts about every instruction as syntax, one lemma a constructor. -/

namespace Sys2Proof.Laws.OpcodeField

/-- Bits 159:152 of the request word hold one of the thirteen OP values, bits 109:108 the request's condition code, and
bits 27:0 are zero (R47, R51, R52). -/
def Statement (i : Instr) : Prop :=
  (encode i).extractLsb' 152 8 ∈ opTable.map Prod.fst ∧ (encode i).extractLsb' 108 2 = i.ccIn ∧
    (encode i).extractLsb' 0 28 = 0

/-- The record read from the request word of an instruction gives the three fields. -/
theorem of_record {i : Instr} (hop : i.toRequest.op ∈ opTable.map Prod.fst) (hcc : i.toRequest.ccIn = i.ccIn)
    (hres : i.toRequest.reserved = 0) : Statement i := by
  have h := Request.ofWord_toWord i.toRequest
  have h1 : (encode i).extractLsb' 152 8 = i.toRequest.op := congrArg Request.op h
  have h2 : (encode i).extractLsb' 108 2 = i.toRequest.ccIn := congrArg Request.ccIn h
  have h3 : (encode i).extractLsb' 0 28 = i.toRequest.reserved := congrArg Request.reserved h
  exact ⟨h1 ▸ hop, h2.trans hcc, h3.trans hres⟩

theorem ap (a1 : Addr) (l1 : Len1) (a2 : Addr) (l2 : Len2) (cc : CondCode) :
    Statement (.ap a1 l1 a2 l2 cc) :=
  of_record (by simp [Instr.toRequest, Request.twoFields, Request.blank, opTable]) rfl rfl

theorem sp (a1 : Addr) (l1 : Len1) (a2 : Addr) (l2 : Len2) (cc : CondCode) :
    Statement (.sp a1 l1 a2 l2 cc) :=
  of_record (by simp [Instr.toRequest, Request.twoFields, Request.blank, opTable]) rfl rfl

theorem cp (a1 : Addr) (l1 : Len1) (a2 : Addr) (l2 : Len2) (cc : CondCode) :
    Statement (.cp a1 l1 a2 l2 cc) :=
  of_record (by simp [Instr.toRequest, Request.twoFields, Request.blank, opTable]) rfl rfl

theorem zap (a1 : Addr) (l1 : Len1) (a2 : Addr) (l2 : Len2) (cc : CondCode) :
    Statement (.zap a1 l1 a2 l2 cc) :=
  of_record (by simp [Instr.toRequest, Request.twoFields, Request.blank, opTable]) rfl rfl

theorem mp (a1 : Addr) (l1 : Len1) (a2 : Addr) (l2 : Len2) (cc : CondCode) :
    Statement (.mp a1 l1 a2 l2 cc) :=
  of_record (by simp [Instr.toRequest, Request.twoFields, Request.blank, opTable]) rfl rfl

theorem dp (a1 : Addr) (l1 : Len1) (a2 : Addr) (l2 : Len2) (cc : CondCode) :
    Statement (.dp a1 l1 a2 l2 cc) :=
  of_record (by simp [Instr.toRequest, Request.twoFields, Request.blank, opTable]) rfl rfl

theorem edmk (a1 : Addr) (l1 : Len1) (a2 : Addr) (reg : Word) (cc : CondCode) :
    Statement (.edmk a1 l1 a2 reg cc) :=
  of_record (by simp [Instr.toRequest, Request.blank, opTable]) rfl rfl

theorem srp (a1 : Addr) (l1 : Len1) (sh : ShiftField) (i3 : Nibble) (cc : CondCode) :
    Statement (.srp a1 l1 sh i3 cc) :=
  of_record (by simp [Instr.toRequest, Request.blank, opTable]) rfl rfl

theorem cvb (a2 : Addr) (cc : CondCode) :
    Statement (.cvb a2 cc) :=
  of_record (by simp [Instr.toRequest, Request.blank, opTable]) rfl rfl

theorem cvd (a2 : Addr) (val : Word) (cc : CondCode) :
    Statement (.cvd a2 val cc) :=
  of_record (by simp [Instr.toRequest, Request.blank, opTable]) rfl rfl

theorem mvo (a1 : Addr) (l1 : Len1) (a2 : Addr) (l2 : Len2) (cc : CondCode) :
    Statement (.mvo a1 l1 a2 l2 cc) :=
  of_record (by simp [Instr.toRequest, Request.twoFields, Request.blank, opTable]) rfl rfl

theorem pack (a1 : Addr) (l1 : Len1) (a2 : Addr) (l2 : Len2) (cc : CondCode) :
    Statement (.pack a1 l1 a2 l2 cc) :=
  of_record (by simp [Instr.toRequest, Request.twoFields, Request.blank, opTable]) rfl rfl

theorem unpk (a1 : Addr) (l1 : Len1) (a2 : Addr) (l2 : Len2) (cc : CondCode) :
    Statement (.unpk a1 l1 a2 l2 cc) :=
  of_record (by simp [Instr.toRequest, Request.twoFields, Request.blank, opTable]) rfl rfl

end Sys2Proof.Laws.OpcodeField
end

