-- ==== Sys2Proof/Laws/Scan.lean ====
section
/-! SUPPORT. How far a scan of the pattern gets: when the source has room for the digits the pattern takes, and what
a pattern byte leaves of the bytes to come. -/

namespace Sys2Proof.Machine

/-- The pattern bytes at a that take a source digit: digit selectors and significance starters (R80). -/
def isSelector (p : Byte) : Bool := p == 0x20 || p == 0x21

theorem selectorCount_zero (m : Memory) (a : Nat) : selectorCount m a 0 = 0 := rfl

theorem selectorCount_succ (m : Memory) (a n : Nat) :
    selectorCount m a (n + 1) = (if isSelector (m.read a) then 1 else 0) + selectorCount m (a + 1) n := by
  unfold selectorCount isSelector
  rw [Memory.readBytes_succ, List.countP_cons, Nat.add_comm]

theorem selectorCount_congr {m m' : Memory} {a n : Nat} (h : ∀ j < n, m.read (a + j) = m'.read (a + j)) :
    selectorCount m a n = selectorCount m' a n := by
  unfold selectorCount
  rw [Memory.readBytes_congr h]

theorem selectorCount_le (m : Memory) (a n : Nat) : selectorCount m a n ≤ n := by
  have := List.countP_le_length (l := m.readBytes a n) (p := fun p => p == 0x20 || p == 0x21)
  rwa [Memory.length_readBytes] at this

/-- The class of a byte that takes no digit (R80). -/
theorem patternClass_not_selector {p : Byte} (h : isSelector p = false) :
    patternClass p = .fieldSeparator ∨ patternClass p = .message := by
  simp only [isSelector, Bool.or_eq_false_iff, beq_eq_false_iff_ne] at h
  unfold patternClass
  rw [if_neg h.1, if_neg h.2]
  split <;> simp

/-- The class of a byte that takes one (R80). -/
theorem patternClass_selector {p : Byte} (h : isSelector p = true) :
    patternClass p = .digitSelector ∨ patternClass p = .significanceStarter := by
  simp only [isSelector, Bool.or_eq_true, beq_iff_eq] at h
  unfold patternClass
  rcases h with rfl | rfl <;> simp

/-- A byte that takes no digit goes on, and leaves the source where it is. -/
theorem editByte_plain {cfg : Config} {regIn : Word} {a1 : Nat} {e : EditState}
    (h : isSelector (e.mem.read (a1 + e.k)) = false) :
    ∃ e', editByte cfg regIn a1 e = .more e' ∧ e'.sp = e.sp ∧ e'.half = e.half := by
  unfold editByte
  rcases patternClass_not_selector h with hc | hc <;> rw [hc]
  · exact ⟨_, rfl, rfl, rfl⟩
  · exact ⟨_, rfl, rfl, rfl⟩

/-- A byte that takes a digit ends as taking the digit does. -/
theorem editByte_selector {cfg : Config} {regIn : Word} {a1 : Nat} {e : EditState}
    (h : isSelector (e.mem.read (a1 + e.k)) = true) :
    ∃ starter, editByte cfg regIn a1 e = editSelector cfg regIn a1 starter e := by
  unfold editByte
  rcases patternClass_selector h with hc | hc <;> rw [hc]
  · exact ⟨false, rfl⟩
  · exact ⟨true, rfl⟩

/-- The pattern byte the edit stands at has a mark event: a selector that takes a digit other than zero while
significance is off (R88). -/
def MarksHere (memSize a1 : Nat) (e : EditState) : Prop :=
  isSelector (e.mem.read (a1 + e.k)) = true ∧ e.sig = false ∧ ∃ x, nextDigit memSize e = .more x ∧ x.digit ≠ 0

/-- What a selector leaves of the register and the armed mark (R88). -/
theorem editDigit_mark (policy : MarkPolicy) (regIn : Word) (a1 : Nat) (starter : Bool) (d : Nibble)
    (sign : Option Nibble) (e : EditState) :
    (e.sig = false ∧ d ≠ 0 →
        (editDigit policy regIn a1 starter d sign e).reg =
            (if policy = .everyStart ∨ e.armed = true then markReg regIn a1 e.k else e.reg) ∧
          (editDigit policy regIn a1 starter d sign e).armed = (e.armed && decide (policy ≠ .firstPerField))) ∧
      (¬ (e.sig = false ∧ d ≠ 0) →
        (editDigit policy regIn a1 starter d sign e).reg = e.reg ∧
          (editDigit policy regIn a1 starter d sign e).armed = e.armed) := by
  unfold editDigit markEvent
  cases hs : e.sig <;> by_cases hd : d = 0#4 <;> cases policy <;> cases ha : e.armed <;> simp [hd, ha]

/-- What one pattern byte leaves of the register and the armed mark: a mark event records its address when the policy is
EVERY_START or the mark is armed, and disarms it under FIRST_PER_FIELD; a separator arms it (R86, R88). -/
theorem editByte_mark {cfg : Config} {regIn : Word} {a1 : Nat} {e e' : EditState}
    (h : editByte cfg regIn a1 e = .more e') :
    (MarksHere cfg.memSize a1 e →
        e'.reg = (if cfg.markPolicy = .everyStart ∨ e.armed = true then markReg regIn a1 e.k else e.reg) ∧
          e'.armed = (e.armed && decide (cfg.markPolicy ≠ .firstPerField))) ∧
      (¬ MarksHere cfg.memSize a1 e →
        e'.reg = e.reg ∧ e'.armed = (e.armed || e.mem.read (a1 + e.k) == 0x22)) := by
  cases hs : isSelector (e.mem.read (a1 + e.k)) with
  | true =>
    obtain ⟨starter, he⟩ := editByte_selector (cfg := cfg) (regIn := regIn) (a1 := a1) hs
    have hsep : (e.mem.read (a1 + e.k) == 0x22) = false := by
      simp only [isSelector, Bool.or_eq_true, beq_iff_eq] at hs
      rcases hs with hs | hs <;> rw [hs] <;> rfl
    rw [h, editSelector] at he
    unfold MarksHere
    rw [hs, hsep, Bool.or_false]
    split at he
    · rename_i x hx
      injection he with he
      rw [he, hx]
      obtain ⟨p, q⟩ := editDigit_mark cfg.markPolicy regIn a1 starter x.digit x.sign
        { e with sp := x.sp, half := x.half }
      refine ⟨fun hm => p ⟨hm.2.1, ?_⟩, fun hm => q fun hm' => hm ⟨rfl, hm'.1, x, rfl, hm'.2⟩⟩
      obtain ⟨y, hy, hd⟩ := hm.2.2
      injection hy with hy
      rwa [hy]
    · cases he
    · cases he
  | false =>
    refine ⟨fun hm => absurd (hs.symm.trans hm.1) (by simp), fun _ => ?_⟩
    unfold editByte at h
    rcases patternClass_not_selector hs with hc | hc <;> rw [hc] at h <;> injection h with h <;> subst h
    · refine ⟨rfl, ?_⟩
      have : e.mem.read (a1 + e.k) = 0x22 := by
        unfold patternClass at hc
        (repeat' split at hc) <;> first | assumption | cases hc
      rw [this]
      simp [editSeparator]
    · refine ⟨rfl, ?_⟩
      have : (e.mem.read (a1 + e.k) == 0x22) = false := by
        unfold patternClass at hc
        (repeat' split at hc) <;> first | exact beq_eq_false_iff_ne.2 ‹_› | cases hc
      rw [this, Bool.or_false]
      rfl

/-- A pattern byte leaves the bytes after it as they were. -/
theorem editByte_later {cfg : Config} {regIn : Word} {a1 : Nat} {e e' : EditState}
    (h : editByte cfg regIn a1 e = .more e') (n : Nat) :
    selectorCount e'.mem (a1 + e'.k) n = selectorCount e.mem (a1 + e.k + 1) n := by
  obtain ⟨⟨v, hv⟩, hk, _⟩ := editByte_more h
  rw [hk, ← Nat.add_assoc]
  refine selectorCount_congr fun j _ => ?_
  rw [hv, Memory.read_write_of_ne _ _ (by omega)]

/-- Inside the buffer, taking a digit never leaves it. -/
theorem nextDigit_not_outside {memSize : Nat} {e : EditState} (h : e.sp < memSize) :
    nextDigit memSize e ≠ .outside := by
  unfold nextDigit digitOfByte
  rw [if_pos h]
  intro h'
  split at h'
  · cases h'
  · split at h'
    · cases h'
    · split at h' <;> cases h'

/-- With room in the buffer for a source byte for each selector left, a scan never leaves the buffer. -/
theorem editLoop_not_outside {cfg : Config} {regIn : Word} {a1 n : Nat} {e : EditState}
    (h : e.sp + selectorCount e.mem (a1 + e.k) n ≤ cfg.memSize) : editLoop cfg regIn a1 n e ≠ .outside := by
  induction n generalizing e with
  | zero => simp [editLoop]
  | succ n ih =>
    rw [selectorCount_succ] at h
    unfold editLoop
    cases hs : isSelector (e.mem.read (a1 + e.k)) with
    | false =>
      obtain ⟨e1, h1, hsp, _⟩ := editByte_plain (cfg := cfg) (regIn := regIn) hs
      rw [hs, if_neg (by simp)] at h
      rw [h1]
      exact ih (by rw [editByte_later h1]; omega)
    | true =>
      rw [hs, if_pos rfl] at h
      cases h1 : editByte cfg regIn a1 e with
      | more e1 =>
        refine ih ?_
        rw [editByte_later h1]
        have : e1.sp ≤ e.sp + 1 := by
          rcases (editByte_more h1).2.2.2.2 with ⟨_, hq, _⟩ | ⟨_, x, hx, hq, _⟩
          · omega
          · have := nextDigit_sp hx; omega
        omega
      | badDigit => simp
      | outside =>
        exfalso
        obtain ⟨starter, he⟩ := editByte_selector (cfg := cfg) (regIn := regIn) hs
        have hd := nextDigit_not_outside (memSize := cfg.memSize) (e := e) (by omega)
        rw [he, editSelector] at h1
        split at h1
        · cases h1
        · cases h1
        · exact hd ‹_›

/-- A scan that has to read a source byte outside the buffer leaves it. -/
theorem editLoop_outside {cfg : Config} {regIn : Word} {a1 n : Nat} {e : EditState} (hh : e.half = .high)
    (hsp : cfg.memSize ≤ e.sp) (h : 1 ≤ selectorCount e.mem (a1 + e.k) n) :
    editLoop cfg regIn a1 n e = .outside := by
  induction n generalizing e with
  | zero => simp [selectorCount_zero] at h
  | succ n ih =>
    rw [selectorCount_succ] at h
    unfold editLoop
    cases hs : isSelector (e.mem.read (a1 + e.k)) with
    | false =>
      obtain ⟨e1, h1, hsp1, hh1⟩ := editByte_plain (cfg := cfg) (regIn := regIn) hs
      rw [hs, if_neg (by simp)] at h
      rw [h1]
      exact ih (hh1.trans hh) (by omega) (by rw [editByte_later h1]; omega)
    | true =>
      obtain ⟨starter, he⟩ := editByte_selector (cfg := cfg) (regIn := regIn) hs
      rw [he, editSelector, nextDigit, hh]
      simp only [if_neg (show ¬ e.sp < cfg.memSize by omega)]

end Sys2Proof.Machine
end

