-- ==== Sys2Proof/Laws/Source.lean ====
section
/-! SUPPORT. The source bytes an edit consumes (R83): how many its selectors take, and that a scan leaves the buffer
exactly when they do. -/

namespace Sys2Proof.Machine

@[simp] theorem sourceBytes_zero (m : Memory) (a : Nat) : sourceBytes m a 0 = 0 := rfl

/-- The first digit's byte, and what the digits after it consume: the byte's low nibble is the next digit, or a sign. -/
theorem sourceBytes_succ (m : Memory) (a c : Nat) :
    sourceBytes m a (c + 1) =
      1 + sourceBytes m (a + 1) (if (m.read a).toNat % 16 ≤ 9 then c - 1 else c) := by
  cases c with
  | zero => simp [sourceBytes]
  | succ c =>
    rw [sourceBytes]
    split <;> rfl

/-- How many bytes are consumed depends on those bytes only. -/
theorem sourceBytes_congr {m m' : Memory} {a c : Nat}
    (h : ∀ j < sourceBytes m a c, m'.read (a + j) = m.read (a + j)) : sourceBytes m' a c = sourceBytes m a c := by
  induction c using Nat.strong_induction_on generalizing a with
  | _ c ih =>
    cases c with
    | zero => rfl
    | succ c =>
      rw [sourceBytes_succ] at h
      have h0 := h 0 (by omega)
      rw [Nat.add_zero] at h0
      rw [sourceBytes_succ, sourceBytes_succ, h0]
      congr 1
      refine ih _ (by split <;> omega) fun j hj => ?_
      rw [show a + 1 + j = a + (j + 1) by omega]
      exact h (j + 1) (by omega)

/-- No more bytes are consumed than digits. -/
theorem sourceBytes_le (m : Memory) (a c : Nat) : sourceBytes m a c ≤ c := by
  induction c using Nat.strong_induction_on generalizing a with
  | _ c ih =>
    cases c with
    | zero => exact le_refl _
    | succ c =>
      rw [sourceBytes_succ]
      have := ih (if (m.read a).toNat % 16 ≤ 9 then c - 1 else c) (by split <;> omega) (a + 1)
      split at this <;> split <;> omega

/-- The source bytes from `sp` on that an edit has still to use for c digits, one it has read but not passed included. -/
def stillUsed (e : EditState) (c : Nat) : Nat :=
  match e.half with
  | .high => sourceBytes e.mem e.sp c
  | .low _ => 1 + sourceBytes e.mem (e.sp + 1) (c - 1)

/-- A store outside the bytes still to use does not change how many they are. -/
theorem stillUsed_congr {e e' : EditState} {c : Nat} (hsp : e'.sp = e.sp) (hh : e'.half = e.half)
    (h : ∀ j < stillUsed e c, e'.mem.read (e.sp + j) = e.mem.read (e.sp + j)) : stillUsed e' c = stillUsed e c := by
  unfold stillUsed at *
  rw [hh, hsp]
  split
  · rename_i hx
    rw [hx] at h
    exact sourceBytes_congr h
  · rename_i hx
    rw [hx] at h
    congr 1
    refine sourceBytes_congr fun j hj => ?_
    rw [show e.sp + 1 + j = e.sp + (j + 1) by omega]
    exact h (j + 1) (by dsimp only; omega)

/-- Taking a digit from a byte of the buffer with a digit in its high nibble: one byte less is to be used where the source
moves on, and as many where the byte's low nibble waits. -/
theorem nextDigit_stillUsed {memSize c : Nat} {e : EditState} (hin : e.sp < memSize)
    (hd : (e.mem.read e.sp).toNat / 16 ≤ 9) :
    ∃ x, nextDigit memSize e = .more x ∧
      ∀ e' : EditState, e'.sp = x.sp → e'.half = x.half → e'.mem = e.mem →
        e'.sp + stillUsed e' c = e.sp + stillUsed e (c + 1) ∧ e.sp ≤ e'.sp ∧ e'.sp ≤ memSize ∧
          (∀ b, e'.half = .low b → e'.sp < memSize) := by
  unfold nextDigit
  cases hh : e.half with
  | low sb =>
    refine ⟨_, rfl, fun e' h1 h2 h3 => ?_⟩
    dsimp only at h1 h2
    unfold stillUsed
    rw [h2, h1, h3, hh, Nat.add_sub_cancel]
    dsimp only
    exact ⟨by omega, by omega, by omega, nofun⟩
  | high =>
    have hlo := loNib_toNat (e.mem.read e.sp)
    dsimp only
    rw [if_pos hin]
    unfold digitOfByte
    rw [if_neg (by rw [hiNib_toNat]; omega)]
    by_cases h9 : 9 < (loNib (e.mem.read e.sp)).toNat
    · rw [if_pos h9]
      refine ⟨_, rfl, fun e' h1 h2 h3 => ?_⟩
      dsimp only at h1 h2
      unfold stillUsed
      rw [h2, h1, h3, hh]
      dsimp only
      rw [sourceBytes_succ, if_neg (by omega)]
      exact ⟨by omega, by omega, by omega, nofun⟩
    · rw [if_neg h9]
      refine ⟨_, rfl, fun e' h1 h2 h3 => ?_⟩
      dsimp only at h1 h2
      unfold stillUsed
      rw [h2, h1, h3, hh]
      dsimp only
      rw [sourceBytes_succ, if_pos (by omega)]
      exact ⟨by omega, by omega, by omega, fun _ _ => hin⟩

/-- A scan whose source, so far as it lies in the buffer, is apart from the pattern and holds digits in its high nibbles:
it does every pattern byte if the bytes it uses lie in the buffer, and leaves the buffer if they do not. -/
theorem editLoop_consumes {cfg : Config} {regIn : Word} {a1 n : Nat} {e : EditState} (hsp : e.sp ≤ cfg.memSize)
    (hlow : ∀ b, e.half = .low b → e.sp < cfg.memSize) (hpat : a1 + e.k + n ≤ cfg.memSize)
    (h : ∀ j < stillUsed e (selectorCount e.mem (a1 + e.k) n), e.sp + j < cfg.memSize →
      (e.mem.read (e.sp + j)).toNat / 16 ≤ 9 ∧ ¬ (a1 + e.k ≤ e.sp + j ∧ e.sp + j < a1 + e.k + n)) :
    (e.sp + stillUsed e (selectorCount e.mem (a1 + e.k) n) ≤ cfg.memSize →
        ∃ e', editLoop cfg regIn a1 n e = .done e') ∧
      (cfg.memSize < e.sp + stillUsed e (selectorCount e.mem (a1 + e.k) n) →
        editLoop cfg regIn a1 n e = .outside) := by
  induction n generalizing e with
  | zero =>
    refine ⟨fun _ => ⟨e, rfl⟩, fun hout => ?_⟩
    rw [selectorCount_zero, stillUsed] at hout
    cases hh : e.half with
    | high =>
      rw [hh] at hout
      dsimp only [sourceBytes_zero] at hout
      omega
    | low b =>
      rw [hh] at hout
      simp only [Nat.zero_sub, sourceBytes_zero] at hout
      have := hlow b hh
      omega
  | succ n ih =>
    unfold editLoop
    cases hs : isSelector (e.mem.read (a1 + e.k)) with
    | false =>
      obtain ⟨e1, h1, hsp1, hh⟩ := editByte_plain (cfg := cfg) (regIn := regIn) (a1 := a1) hs
      obtain ⟨⟨v, hv⟩, hk, _⟩ := editByte_more h1
      have hl := editByte_later h1 n
      rw [selectorCount_succ, hs, if_neg (by simp), Nat.zero_add] at h ⊢
      have hu : stillUsed e1 (selectorCount e.mem (a1 + e.k + 1) n) =
          stillUsed e (selectorCount e.mem (a1 + e.k + 1) n) := by
        refine stillUsed_congr hsp1 hh fun j hj => ?_
        rw [hv, Memory.read_write_of_ne]
        intro hj'
        have := h j hj
        omega
      rw [h1]
      have := ih (e := e1) (by omega) (fun b hb => by rw [hsp1]; exact hlow b (hh ▸ hb)) (by omega) (by
        rw [hl, hu, hsp1]
        intro j hj hj'
        obtain ⟨p, q⟩ := h j hj hj'
        rw [hv, Memory.read_write_of_ne _ _ (by omega), hk]
        exact ⟨p, by omega⟩)
      rwa [hl, hu, hsp1] at this
    | true =>
      obtain ⟨starter, he⟩ := editByte_selector (cfg := cfg) (regIn := regIn) (a1 := a1) hs
      rw [selectorCount_succ, hs, if_pos rfl, Nat.add_comm 1] at h ⊢
      have hpos : 1 ≤ stillUsed e (selectorCount e.mem (a1 + e.k + 1) n + 1) := by
        unfold stillUsed
        split
        · rw [sourceBytes_succ]; omega
        · omega
      by_cases hin : e.sp < cfg.memSize
      · obtain ⟨x, hx, hxu⟩ := nextDigit_stillUsed (c := selectorCount e.mem (a1 + e.k + 1) n) hin
          (by simpa using (h 0 (by omega) (by omega)).1)
        obtain ⟨e1, h1, hsp1, hh⟩ : ∃ e1, editByte cfg regIn a1 e = .more e1 ∧ e1.sp = x.sp ∧ e1.half = x.half := by
          rw [he, editSelector, hx]
          exact ⟨_, rfl, by simp, by simp⟩
        obtain ⟨⟨v, hv⟩, hk, _⟩ := editByte_more h1
        have hl := editByte_later h1 n
        rw [h1]
        obtain ⟨hu, hle, hle', hlow'⟩ := hxu { e1 with mem := e.mem } hsp1 hh rfl
        dsimp only at hu hle hle' hlow'
        have hu1 : stillUsed e1 (selectorCount e.mem (a1 + e.k + 1) n) =
            stillUsed { e1 with mem := e.mem } (selectorCount e.mem (a1 + e.k + 1) n) := by
          refine stillUsed_congr rfl rfl fun j hj => ?_
          dsimp only at hj ⊢
          rw [hv, Memory.read_write_of_ne]
          intro hj'
          have := h (e1.sp + j - e.sp) (by omega)
          omega
        have := ih (e := e1) hle' hlow' (by omega) (by
          rw [hl, hu1]
          intro j hj hj'
          obtain ⟨p, q⟩ := h (e1.sp + j - e.sp) (by omega) (by omega)
          rw [show e.sp + (e1.sp + j - e.sp) = e1.sp + j by omega] at p q
          rw [hv, Memory.read_write_of_ne _ _ (by omega), hk]
          exact ⟨p, by omega⟩)
        rwa [hl, hu1, hu] at this
      · have hh : e.half = .high := by
          cases hq : e.half with
          | high => rfl
          | low b => exact absurd (hlow b hq) hin
        have ho : editByte cfg regIn a1 e = .outside := by
          rw [he, editSelector, nextDigit, hh]
          simp only [if_neg hin]
        rw [ho]
        exact ⟨fun h' => by omega, fun _ => rfl⟩

/-- A scan that leaves the buffer stands at a selector whose source byte lies beyond it, reached by a shorter scan that
ended normally. -/
theorem editLoop_outside_at {cfg : Config} {regIn : Word} {a1 n : Nat} {e : EditState}
    (h : editLoop cfg regIn a1 n e = .outside) :
    ∃ e', e.k ≤ e'.k ∧ e'.k < e.k + n ∧ editLoop cfg regIn a1 (e'.k - e.k) e = .done e' ∧
      isSelector (e'.mem.read (a1 + e'.k)) = true ∧ e'.half = .high ∧ cfg.memSize ≤ e'.sp := by
  induction n generalizing e with
  | zero => cases h
  | succ n ih =>
    unfold editLoop at h
    split at h
    · rename_i e1 h1
      have hk := (editByte_more h1).2.1
      obtain ⟨e', p1, p2, p3, p4⟩ := ih h
      refine ⟨e', by omega, by omega, ?_, p4⟩
      rw [show e'.k - e.k = e'.k - e1.k + 1 by omega]
      unfold editLoop
      rw [h1]
      exact p3
    · cases h
    · rename_i h1
      refine ⟨e, le_refl _, by omega, by rw [Nat.sub_self]; rfl, ?_⟩
      cases hs : isSelector (e.mem.read (a1 + e.k)) with
      | false =>
        obtain ⟨e1, h2, _⟩ := editByte_plain (cfg := cfg) (regIn := regIn) (a1 := a1) hs
        rw [h1] at h2
        cases h2
      | true =>
        obtain ⟨starter, he⟩ := editByte_selector (cfg := cfg) (regIn := regIn) (a1 := a1) hs
        rw [h1, editSelector] at he
        have hd : nextDigit cfg.memSize e = .outside := by
          split at he
          · cases he
          · cases he
          · assumption
        refine ⟨rfl, ?_⟩
        unfold nextDigit at hd
        split at hd
        · cases hd
        · rename_i hh
          refine ⟨hh, ?_⟩
          by_contra hlt
          rw [if_pos (by omega)] at hd
          unfold digitOfByte at hd
          (repeat' split at hd) <;> cases hd

/-- A scan leaves the pattern bytes it has not done as they were. -/
theorem scanReaches_frame {s : State} {a1 a2 : Addr} {reg : Word} {e : EditState} (h : ScanReaches s a1 a2 reg e)
    {j : Nat} (hj : e.k ≤ j) : e.mem.read (a1.toNat + j) = s.mem.read (a1.toNat + j) := by
  have spec := editLoop_spec (e' := e) (by rw [ScanReaches] at h; rw [h]; rfl)
  simp only [editStart, Nat.zero_add, Nat.sub_zero] at spec
  exact spec.1.frame _ (by rw [Window.holds_mk]; omega)

/-- The byte a scan stands at is a selector exactly when it was one before the request. -/
theorem scanReaches_selectorAt {s : State} {a1 a2 : Addr} {reg : Word} {e : EditState} (h : ScanReaches s a1 a2 reg e) :
    SelectorAt s a1 e.k ↔ isSelector (e.mem.read (a1.toNat + e.k)) = true := by
  rw [scanReaches_frame h (le_refl _), SelectorAt, isSelector]
  simp

/-- A scan leaves the buffer exactly when it comes to a selector whose source byte lies beyond it. -/
theorem editLoop_eq_outside_iff {s : State} {a1 a2 : Addr} {l1 : Len1} {reg : Word} :
    editLoop s.cfg reg a1.toNat l1.toNat (editStart s.mem a1.toNat a2.toNat reg) = .outside ↔
      ∃ e, SourceLeavesAt s a1 l1 a2 reg e := by
  constructor
  · intro h
    obtain ⟨e, -, hk, hr, hs, hh, hsp⟩ := editLoop_outside_at h
    simp only [editStart, Nat.zero_add, Nat.sub_zero] at hk hr
    exact ⟨e, hk, hr, (scanReaches_selectorAt hr).2 hs, hh, hsp⟩
  · rintro ⟨e, hk, hr, hs, hh, hsp⟩
    obtain ⟨n, hn⟩ : ∃ n, l1.toNat = e.k + (n + 1) := ⟨l1.toNat - e.k - 1, by omega⟩
    obtain ⟨starter, he⟩ := editByte_selector (cfg := s.cfg) (regIn := reg) (a1 := a1.toNat) ((scanReaches_selectorAt hr).1 hs)
    rw [hn, editLoop_add hr, editLoop, he, editSelector, nextDigit, hh]
    simp only [if_neg (show ¬ e.sp < s.cfg.memSize by omega)]

end Sys2Proof.Machine
end

