-- ==== Sys2Proof/Machine/CallerSide.lean ====
section
/-! DEFINITION. The caller's side of a response (30_encoding.md rules R54 and R56, informative): what the caller
writes back to its registers and condition code. No part of the machine calls this; the caller is out of scope (R6)
and its `Caller` record is no machine state. -/

namespace Sys2Proof.Machine

/-- The caller with general register r replaced. -/
def setReg (c : Caller) (r : BitVec 4) (v : Word) : Caller := { c with gpr := c.gpr.set r.toNat v r.isLt }

/-- What a caller does with a response: it takes CC_OUT, writes EDMK's REG_OUT to general register 1 (R54) and CVB's
VAL_OUT to register r1 when IC is 0 (R56). On FIXED_POINT_DIVIDE that last write is the caller's own policy (R104),
the argument `writeTruncated`. -/
def callerAccepts (c : Caller) (writeTruncated : Bool) (si : SourceInstr) (r : Response) : Caller :=
  let c : Caller := { c with cc := r.cc }
  let c : Caller := match r.regOut with
    | some v => setReg c 1 v
    | none => c
  match si, r.valOut with
  | .rx _ r1 _ _, some v =>
    if r.ic = .none ∨ (r.ic = .fixedPointDivide ∧ writeTruncated) then setReg c r1 v else c
  | _, _ => c

end Sys2Proof.Machine
end

