-- ==== Sys2Proof/Tests/Slice0.lean ====
section
/-! SUPPORT. The model's own tests: ill-formed requests, decoding of words written out from the spec, one-step vectors of
95_test_vectors.md, and for each statement with hypotheses a concrete case that meets them. -/

namespace Sys2Proof.Tests

open Sys2Proof.Machine

/-! ## Helpers -/

/-- A machine whose buffer holds those byte strings, nothing else, with no request pending. -/
def holding (cfg : Config) (fields : List (Nat × List Byte)) : State :=
  { State.resetWith cfg with mem := fields.foldl (fun m f => m.writeBytes f.1 f.2) [] }

/-- The default parameters (R8). -/
def dflt : Config := Config.initial

/-- The result is a next state whose response is that one, with those bytes at that address. -/
def gives (res : Result) (a : Nat) (bytes : List Byte) (r : Response) : Bool :=
  match res with
  | .next t => t.response == some r && t.mem.readBytes a bytes.length == bytes
  | _ => false

/-- The result is a refusal for that reason. -/
def refuses (res : Result) (why : Refusal) : Bool :=
  match res with
  | .refused w => w == why
  | _ => false

/-- The decoder reads that instruction from the request word. -/
def reads (q : RequestWord) (i : Instr) : Bool :=
  match decode q with
  | .ok j => j == i
  | .error _ => false

/-- The decoder rejects the request word for that reason. -/
def rejects (q : RequestWord) (e : DecodeReject) : Bool :=
  match decode q with
  | .ok _ => false
  | .error f => f == e

/-- Some next state is answered, its response meets the predicate. -/
def answers (res : Result) (p : State → Response → Bool) : Bool :=
  match res with
  | .next t =>
    match t.response with
    | some r => p t r
    | none => false
  | _ => false

theorem of_answers {res : Result} {p : State → Response → Bool} (h : answers res p = true) :
    ∃ t r, res = .next t ∧ t.response = some r ∧ p t r = true := by
  unfold answers at h
  split at h
  · split at h
    · exact ⟨_, _, rfl, ‹_›, h⟩
    · cases h
  · cases h

theorem of_reads {q : RequestWord} {i : Instr} (h : reads q i = true) : decode q = .ok i := by
  unfold reads at h
  split at h
  · rename_i hq
    rw [hq, beq_iff_eq.1 h]
  · cases h

/-- The request passes every check before it runs. -/
theorem inside {i : Instr} {s : State} (h : (refusalBefore s i).isNone = true) : i.InsideInterface s.cfg :=
  (refusalBefore_eq_none i s).1 (Option.isNone_iff_eq_none.1 h)

/-- The request is refused before it runs. -/
theorem not_inside {i : Instr} {s : State} (h : (refusalBefore s i).isSome = true) : ¬ i.InsideInterface s.cfg :=
  fun hi => by rw [(refusalBefore_eq_none i s).2 hi] at h; cases h

/-- A response without REG_OUT and VAL_OUT. -/
def plain (ic : InterruptionCode) (cc : CondCode) : Response := ⟨ic, cc, none, none⟩

/-! ## WellFormed refuses an ill-formed term of each check (R48), and so does the machine (R109) -/

theorem test_first_length_zero :
    Instr.wellFormed (.ap 0 0 0 1 0) = false ∧ refuses (exec (.ap 0 0 0 1 0) (holding dflt [])) .lengthOutOfRange = true :=
  by decide

/-- V-RF-3. -/
theorem test_first_length_17 :
    Instr.wellFormed (.ap 0 17 0 1 0) = false ∧ refuses (exec (.ap 0 17 0 1 0) (holding dflt [])) .lengthOutOfRange = true :=
  by decide

theorem test_second_length_zero :
    Instr.wellFormed (.pack 0 1 0 0 0) = false ∧ refuses (exec (.pack 0 1 0 0 0) (holding dflt [])) .lengthOutOfRange = true :=
  by decide

theorem test_second_length_17 :
    Instr.wellFormed (.cp 0 1 0 17 0) = false ∧ refuses (exec (.cp 0 1 0 17 0) (holding dflt [])) .lengthOutOfRange = true :=
  by decide

theorem test_pattern_length_zero :
    Instr.wellFormed (.edmk 0 0 0 0 0) = false ∧ refuses (exec (.edmk 0 0 0 0 0) (holding dflt [])) .lengthOutOfRange = true :=
  by decide

theorem test_pattern_length_257 :
    Instr.wellFormed (.edmk 0 257 0 0 0) = false ∧ refuses (exec (.edmk 0 257 0 0 0) (holding dflt [])) .lengthOutOfRange = true :=
  by decide

theorem test_shift_length_17 :
    Instr.wellFormed (.srp 0 17 0 0 0) = false ∧ refuses (exec (.srp 0 17 0 0 0) (holding dflt [])) .lengthOutOfRange = true :=
  by decide

theorem test_longest_lengths :
    Instr.wellFormed (.unpk 0 16 0 16 0) = true ∧ Instr.wellFormed (.edmk 0 256 0 0 0) = true := by decide

/-! ## Decoding: request words written out from R47 and R51, and opcode-table words -/

theorem test_decode_ap :
    reads (0xFA#8 ++ 0x000100#24 ++ 5#9 ++ 3#5 ++ 0#4 ++ 2#2 ++ 0x000200#24 ++ 0#24 ++ 0#32 ++ 0#28) (.ap 0x100 5 0x200 3 2) = true :=
  by decide

theorem test_decode_sp :
    reads (0xFB#8 ++ 0x000100#24 ++ 5#9 ++ 3#5 ++ 0#4 ++ 2#2 ++ 0x000200#24 ++ 0#24 ++ 0#32 ++ 0#28) (.sp 0x100 5 0x200 3 2) = true :=
  by decide

theorem test_decode_cp :
    reads (0xF9#8 ++ 0x000100#24 ++ 5#9 ++ 3#5 ++ 0#4 ++ 2#2 ++ 0x000200#24 ++ 0#24 ++ 0#32 ++ 0#28) (.cp 0x100 5 0x200 3 2) = true :=
  by decide

theorem test_decode_zap :
    reads (0xF8#8 ++ 0x000100#24 ++ 5#9 ++ 3#5 ++ 0#4 ++ 2#2 ++ 0x000200#24 ++ 0#24 ++ 0#32 ++ 0#28) (.zap 0x100 5 0x200 3 2) = true :=
  by decide

theorem test_decode_mp :
    reads (0xFC#8 ++ 0x000100#24 ++ 5#9 ++ 3#5 ++ 0#4 ++ 2#2 ++ 0x000200#24 ++ 0#24 ++ 0#32 ++ 0#28) (.mp 0x100 5 0x200 3 2) = true :=
  by decide

theorem test_decode_dp :
    reads (0xFD#8 ++ 0x000100#24 ++ 5#9 ++ 3#5 ++ 0#4 ++ 2#2 ++ 0x000200#24 ++ 0#24 ++ 0#32 ++ 0#28) (.dp 0x100 5 0x200 3 2) = true :=
  by decide

theorem test_decode_mvo :
    reads (0xF1#8 ++ 0x000100#24 ++ 5#9 ++ 3#5 ++ 0#4 ++ 2#2 ++ 0x000200#24 ++ 0#24 ++ 0#32 ++ 0#28) (.mvo 0x100 5 0x200 3 2) = true :=
  by decide

theorem test_decode_pack :
    reads (0xF2#8 ++ 0x000100#24 ++ 5#9 ++ 3#5 ++ 0#4 ++ 2#2 ++ 0x000200#24 ++ 0#24 ++ 0#32 ++ 0#28) (.pack 0x100 5 0x200 3 2) = true :=
  by decide

theorem test_decode_unpk :
    reads (0xF3#8 ++ 0x000100#24 ++ 5#9 ++ 3#5 ++ 0#4 ++ 2#2 ++ 0x000200#24 ++ 0#24 ++ 0#32 ++ 0#28) (.unpk 0x100 5 0x200 3 2) = true :=
  by decide

/-- The fields EDMK does not use hold ones and are ignored (R47). -/
theorem test_decode_edmk :
    reads (0xDF#8 ++ 0x000100#24 ++ 256#9 ++ 31#5 ++ 15#4 ++ 1#2 ++ 0x000200#24 ++ 0xFFFFFF#24 ++ 0xAB000001#32 ++ 0#28)
      (.edmk 0x100 256 0x200 0xAB000001 1) = true :=
  by decide

/-- The fields SRP does not use hold ones and are ignored (R47). -/
theorem test_decode_srp :
    reads (0xF0#8 ++ 0x000100#24 ++ 16#9 ++ 31#5 ++ 9#4 ++ 3#2 ++ 0xFFFFFF#24 ++ 0x00003E#24 ++ 0xFFFFFFFF#32 ++ 0#28)
      (.srp 0x100 16 0x3E 9 3) = true := by decide

theorem test_decode_cvb :
    reads (0x4F#8 ++ 0xFFFFFF#24 ++ 511#9 ++ 31#5 ++ 15#4 ++ 2#2 ++ 0x000200#24 ++ 0xFFFFFF#24 ++ 0xFFFFFFFF#32 ++ 0#28)
      (.cvb 0x200 2) = true :=
  by decide

theorem test_decode_cvd :
    reads (0x4E#8 ++ 0xFFFFFF#24 ++ 511#9 ++ 31#5 ++ 15#4 ++ 2#2 ++ 0x000200#24 ++ 0xFFFFFF#24 ++ 0xFFFFFF85#32 ++ 0#28)
      (.cvd 0x200 0xFFFFFF85 2) = true :=
  by decide

/-- V-RF-1: X'DE' (ED) is no OP value. -/
theorem test_reject_ed : rejects (0xDE#8 ++ 0#152) .unknownOp = true := by decide

/-- V-RF-2. -/
theorem test_reject_reserved : rejects (0xFA#8 ++ 0#124 ++ 1#28) .reservedBits = true := by decide

/-- A table word: the opcode byte, then zero bytes (R53 with length codes 0). -/
theorem test_table_word_ap : decodeTableWord 8 0xFA = some (.ap 0 1 0 1 0) := by decide

theorem test_table_word_cvd : decodeTableWord 8 0x4E = some (.cvd 0 0 0) := by decide

theorem test_table_word_edmk : decodeTableWord 8 0xDF = some (.edmk 0 1 0 0 0) := by decide

theorem test_table_word_ed : decodeTableWord 8 0xDE = none := by decide

/-- The first step after reset with AP's table word runs AP. -/
theorem test_table_word_runs : gives (step (State.reset.withFetchWord 8 0xFA)) 0 [0x00] (plain .data 0) = true := by decide

/-- P1, `ZAP 0(4,12),16(2,12)`. -/
theorem test_source_zap :
    sourceDecode [0xF8, 0x31, 0xC0, 0x00, 0xC0, 0x10] = some (.ssTwo 0xF8 3 1 ⟨0xC, 0⟩ ⟨0xC, 0x10⟩, []) := by decide

/-- P2, `CVD 3,X'020'(0,12)`. -/
theorem test_source_cvd :
    sourceDecode [0x4E, 0x30, 0xC0, 0x20, 0xFF] = some (.rx 0x4E 3 0 ⟨0xC, 0x20⟩, [0xFF]) := by decide

/-- The caller of 95_test_vectors.md section 4: register 12 is the base of the data. -/
def programCaller : Caller := setReg (setReg (setReg Caller.zero 12 0x1000) 3 0xFFFFCFC7) 1 0xAB000000

/-- P2: the request CVD becomes. -/
theorem test_request_of_cvd :
    (SourceInstr.toRequest programCaller (.rx 0x4E 3 0 ⟨0xC, 0x20⟩)).toInstr.toOption =
      some (.cvd 0x1020 0xFFFFCFC7 0) := by decide

/-- P2: `EDMK X'030'(12,12),X'024'(12)` (R54). -/
theorem test_request_of_edmk :
    (SourceInstr.toRequest programCaller (.ssOne 0xDF 11 ⟨0xC, 0x30⟩ ⟨0xC, 0x24⟩)).toInstr.toOption =
      some (.edmk 0x1030 12 0x1024 0xAB000000 0) := by decide

/-! ## One-step vectors of 95_test_vectors.md -/

/-- V-AP-2. -/
theorem test_ap_overflow :
    gives (step ((holding dflt [(0x100, [0x99, 0x9C]), (0x200, [0x1C])]).submit (encode (.ap 0x100 2 0x200 1 0))))
      0x100 [0x00, 0x0C] (plain .none 3) = true := by decide

/-- V-AP-7. -/
theorem test_ap_invalid_operand :
    gives (step ((holding dflt [(0x100, [0x01, 0x2C]), (0x200, [0x1A, 0x3C])]).submit (encode (.ap 0x100 2 0x200 2 2))))
      0x100 [0x01, 0x2C] (plain .data 2) = true :=
  by decide

/-- V-SP-2. -/
theorem test_sp_negative :
    gives (step ((holding dflt [(0x100, [0x01, 0x0C]), (0x200, [0x02, 0x5C])]).submit (encode (.sp 0x100 2 0x200 2 0))))
      0x100 [0x01, 0x5D] (plain .none 1) = true :=
  by decide

/-- V-SP-3. -/
theorem test_sp_negative_zero_overflow :
    gives (step ((holding dflt [(0x100, [0x99, 0x9D]), (0x200, [0x1C])]).submit (encode (.sp 0x100 2 0x200 1 0))))
      0x100 [0x00, 0x0D] (plain .none 3) = true := by decide

/-- V-CP-1. -/
theorem test_cp_zeros_equal :
    gives (step ((holding dflt [(0x100, [0x0C]), (0x200, [0x0D])]).submit (encode (.cp 0x100 1 0x200 1 3))))
      0x100 [0x0C] (plain .none 0) = true := by decide

/-- V-CP-3. -/
theorem test_cp_low :
    gives (step ((holding dflt [(0x100, [0x5D]), (0x200, [0x3D])]).submit (encode (.cp 0x100 1 0x200 1 0))))
      0x100 [0x5D] (plain .none 1) = true := by decide

/-- V-ZAP-4. -/
theorem test_zap_normalises :
    gives (step ((holding dflt [(0x100, [0x12, 0x3A])]).submit (encode (.zap 0x100 2 0x100 2 0))))
      0x100 [0x12, 0x3C] (plain .none 2) = true := by decide

/-- V-ZAP-5. -/
theorem test_zap_checks_operand_1 :
    gives (step ((holding dflt [(0x100, [0xFF, 0xFF]), (0x200, [0x1C])]).submit (encode (.zap 0x100 2 0x200 1 2))))
      0x100 [0xFF, 0xFF] (plain .data 2) = true := by decide

/-- V-MP-1. -/
theorem test_mp_product :
    gives (step ((holding dflt [(0x100, [0x00, 0x00, 0x12, 0x3C]), (0x200, [0x2D])]).submit (encode (.mp 0x100 4 0x200 1 2))))
      0x100 [0x00, 0x00, 0x24, 0x6D] (plain .none 2) = true :=
  by decide

/-- V-MP-5. -/
theorem test_mp_zero_check_as_data :
    gives (step ((holding { dflt with mpZeroCheck := .data } [(0x100, [0x00, 0x12, 0x34, 0x5C]), (0x200, [0x00, 0x1C])]).submit (encode (.mp 0x100 4 0x200 2 1))))
      0x100 [0x00, 0x12, 0x34, 0x5C] (plain .data 1) = true :=
  by decide

/-- V-DP-1. -/
theorem test_dp_quotient_remainder :
    gives (step ((holding dflt [(0x100, [0x00, 0x00, 0x12, 0x34, 0x56, 0x7C]), (0x200, [0x01, 0x2C])]).submit (encode (.dp 0x100 6 0x200 2 1))))
      0x100 [0x01, 0x02, 0x88, 0x0C, 0x00, 0x7C] (plain .none 1) = true :=
  by decide

/-- V-DP-4. -/
theorem test_dp_truncates :
    gives (step ((holding dflt [(0x100, [0x00, 0x7D]), (0x200, [0x2C])]).submit (encode (.dp 0x100 2 0x200 1 0))))
      0x100 [0x3D, 0x1D] (plain .none 0) = true := by decide

/-- V-SRP-2. -/
theorem test_srp_rounds :
    gives (step ((holding dflt [(0x100, [0x12, 0x35, 0x5C])]).submit (encode (.srp 0x100 3 0x3E 5 0))))
      0x100 [0x00, 0x12, 0x4C] (plain .none 2) = true := by decide

/-- V-SRP-18. -/
theorem test_srp_six_bits :
    gives (step ((holding { dflt with shiftWidth := .six } [(0x100, [0x12, 0x3C])]).submit (encode (.srp 0x100 2 0x20 0 0))))
      0x100 [0x00, 0x0C] (plain .none 0) = true :=
  by decide

/-- V-ED-6. -/
theorem test_edmk_two_fields :
    gives (step ((holding dflt [(0x100, [0x5C, 0x20, 0x20, 0x20, 0x22, 0x20, 0x20, 0x20]), (0x200, [0x01, 0x2C, 0x00, 0x0D])]).submit (encode (.edmk 0x100 8 0x200 0 0))))
      0x100 [0x5C, 0x5C, 0xF1, 0xF2, 0x5C, 0x5C, 0x5C, 0x5C] ⟨.none, 0, some 0x00000102, none⟩ = true :=
  by decide

/-- V-ED-8. -/
theorem test_edmk_first_per_field :
    gives (step ((holding { dflt with markPolicy := .firstPerField } [(0x100, [0x40, 0x20, 0x20]), (0x200, [0x1C, 0x2C])]).submit (encode (.edmk 0x100 3 0x200 0 0))))
      0x100 [0x40, 0xF1, 0xF2] ⟨.none, 2, some 0x00000101, none⟩ = true :=
  by decide

/-- V-CVB-2. -/
theorem test_cvb_above_range :
    gives (step ((holding dflt [(0x200, [0x00, 0x00, 0x02, 0x14, 0x74, 0x83, 0x64, 0x8C])]).submit (encode (.cvb 0x200 2))))
      0x200 [0x00, 0x00, 0x02, 0x14, 0x74, 0x83, 0x64, 0x8C] ⟨.fixedPointDivide, 2, none, some 0x80000000⟩ = true :=
  by decide

/-- V-CVB-3. -/
theorem test_cvb_least :
    gives (step ((holding dflt [(0x200, [0x00, 0x00, 0x02, 0x14, 0x74, 0x83, 0x64, 0x8D])]).submit (encode (.cvb 0x200 1))))
      0x200 [0x00, 0x00, 0x02, 0x14, 0x74, 0x83, 0x64, 0x8D] ⟨.none, 1, none, some 0x80000000⟩ = true :=
  by decide

/-- V-CVD-1. -/
theorem test_cvd_negative :
    gives (step ((holding dflt []).submit (encode (.cvd 0x200 0xFFFFFF85 2))))
      0x200 [0x00, 0x00, 0x00, 0x00, 0x00, 0x00, 0x12, 0x3D] (plain .none 2) = true := by decide

/-- V-CVD-2. -/
theorem test_cvd_least :
    gives (step ((holding dflt []).submit (encode (.cvd 0x200 0x80000000 2))))
      0x200 [0x00, 0x00, 0x02, 0x14, 0x74, 0x83, 0x64, 0x8D] (plain .none 2) = true := by decide

/-- V-MVO-1. -/
theorem test_mvo_offset :
    gives (step ((holding dflt [(0x100, [0x77, 0x88, 0x99, 0x9C]), (0x200, [0x12, 0x34, 0x56])]).submit (encode (.mvo 0x100 4 0x200 3 1))))
      0x100 [0x01, 0x23, 0x45, 0x6C] (plain .none 1) = true :=
  by decide

/-- V-MVO-4. -/
theorem test_mvo_overlap :
    gives (step ((holding dflt [(0x100, [0x12, 0x34, 0x5C])]).submit (encode (.mvo 0x100 3 0x100 3 1))))
      0x100 [0x23, 0x45, 0xCC] (plain .none 1) = true := by decide

/-- V-PK-1. -/
theorem test_pack_digits :
    gives (step ((holding dflt [(0x200, [0xF1, 0xF2, 0xF3, 0xF4, 0xC5])]).submit (encode (.pack 0x100 4 0x200 5 1))))
      0x100 [0x00, 0x12, 0x34, 0x5C] (plain .none 1) = true := by decide

/-- V-PK-4. -/
theorem test_pack_overlap :
    gives (step ((holding dflt [(0x100, [0xF1, 0xF2, 0xF3])]).submit (encode (.pack 0x100 3 0x100 3 1))))
      0x100 [0x00, 0x12, 0x3F] (plain .none 1) = true := by decide

/-- V-UN-1. -/
theorem test_unpk_digits :
    gives (step ((holding dflt [(0x200, [0x12, 0x34, 0x5C])]).submit (encode (.unpk 0x100 5 0x200 3 1))))
      0x100 [0xF1, 0xF2, 0xF3, 0xF4, 0xC5] (plain .none 1) = true := by decide

/-- V-UN-5. -/
theorem test_unpk_overlap :
    gives (step ((holding dflt [(0x100, [0x12, 0x3C])]).submit (encode (.unpk 0x100 2 0x100 2 1))))
      0x100 [0xF2, 0xC3] (plain .none 1) = true := by decide

/-- V-RF-4. -/
theorem test_refuse_window :
    refuses (step ((holding { dflt with memSize := 0x400 } []).submit (encode (.ap 0x3FF 2 0 1 0))))
      .windowOutsideBuffer = true := by decide

/-- V-RF-5. -/
theorem test_refuse_overlap :
    refuses (step ((holding { dflt with overlapMode := .refuse } []).submit (encode (.pack 0x100 3 0x100 3 0))))
      .overlappingWindows = true := by decide

/-! ## For each statement with hypotheses, a case that meets them -/

/-- Two packed fields: +125 at X'100' (3 bytes), −37 at X'200' (2 bytes). -/
def twoFields : State := holding dflt [(0x100, [0x00, 0x12, 0x5C]), (0x200, [0x03, 0x7D])]

/-- The pattern of R91's example at X'100', its source at X'200'. -/
def editing : State :=
  holding dflt [(0x100, [0x40, 0x20, 0x20, 0x21, 0x60, 0x20]), (0x200, [0x01, 0x23, 0x5D])]

/-- As `editing`, with a source whose second byte holds no digits. -/
def editingBad : State := holding dflt [(0x100, [0x40, 0x20, 0x20, 0x20, 0x20]), (0x200, [0x12, 0xA4])]

theorem witness_IllegalRequestWordsAreRefused :
    ∃ (s : State) (q : RequestWord), s.request = some q ∧ q.extractLsb' 0 28 ≠ 0 :=
  ⟨State.reset.submit (0xFA#8 ++ 0#124 ++ 1#28), _, rfl, by decide⟩

theorem witness_IllegalRequestWordsAreRefused_op :
    ∃ (s : State) (q : RequestWord), s.request = some q ∧ q.extractLsb' 0 28 = 0 ∧ q.extractLsb' 152 8 = 0xFE :=
  ⟨State.reset.submit (0xFE#8 ++ 0#152), _, rfl, by decide, by decide⟩

/-- One source instruction of each format. -/
theorem witness_SourceDecodeInvertsSourceEncode :
    ∃ a b c d : SourceInstr, (∀ si ∈ [a, b, c, d], sourceFormat si.op = some si.format) ∧
      [a, b, c, d].map SourceInstr.format = [.ssTwo, .ssOne, .ssSrp, .rx] :=
  ⟨.ssTwo 0xF8 3 1 ⟨0xC, 0⟩ ⟨0xC, 0x10⟩, .ssOne 0xDF 255 ⟨1, 2⟩ ⟨3, 0xFFF⟩, .ssSrp 0xF0 15 9 ⟨0, 0⟩ ⟨0, 0x3E⟩,
    .rx 0x4F 3 2 ⟨0xC, 0x20⟩, by decide, by decide⟩

theorem witness_SourceRequestsAreWellFormed :
    ∃ si : SourceInstr, sourceFormat si.op = some si.format ∧ si.format = .ssOne :=
  ⟨.ssOne 0xDF 255 ⟨1, 2⟩ ⟨3, 0xFFF⟩, by decide, rfl⟩

theorem witness_StepRunsTheDecodedRequest :
    ∃ (s : State) (q : RequestWord) (i : Instr), s.request = some q ∧ decode q = .ok i :=
  ⟨twoFields.submit (encode (.ap 0x100 3 0x200 2 0)), _, .ap 0x100 3 0x200 2 0, rfl, of_reads (by decide)⟩

theorem witness_NothingStartsWithoutARequest : ∃ s : State, s.request = none := ⟨State.reset, rfl⟩

/-- A state that meets the invariant, with a request pending. -/
theorem twoFields_inv (i : Instr) : Inv (twoFields.submit (encode i)) where
  config := by show Config.wf dflt = true; decide
  canonical := by show Memory.wf twoFields.mem = true; decide
  inside := by show ∀ c ∈ twoFields.mem, c.1 < 2 ^ 24; decide
  response := fun _ h => by cases h

theorem witness_StepKeepsInvariant :
    ∃ s t : State, Inv s ∧ step s = .next t ∧ t.response ≠ none := by
  obtain ⟨t, r, h, hr, _⟩ := of_answers
    (res := step (twoFields.submit (encode (.ap 0x100 3 0x200 2 0)))) (p := fun _ r => r.cc == 2) (by decide)
  exact ⟨_, t, twoFields_inv _, h, by rw [hr]; nofun⟩

theorem witness_WritesStayInTheWindow :
    ∃ (i : Instr) (s t : State) (w : Window), exec i s = .next t ∧ i.writes = some w ∧ t.mem ≠ s.mem := by
  obtain ⟨t, r, h, _, hp⟩ := of_answers
    (res := exec (.ap 0x100 3 0x200 2 0) twoFields) (p := fun t _ => t.mem != twoFields.mem) (by decide)
  exact ⟨_, _, t, _, h, rfl, by simpa using hp⟩

theorem witness_WritesStayInTheWindow_none :
    ∃ (i : Instr) (s t : State), exec i s = .next t ∧ i.writes = none := by
  obtain ⟨t, r, h, _⟩ := of_answers
    (res := exec (.cp 0x100 3 0x200 2 0) twoFields) (p := fun _ r => r.cc == 2) (by decide)
  exact ⟨_, _, t, h, rfl⟩

theorem witness_ResultDependsOnTheWindowsOnly :
    ∃ (i : Instr) (s s' : State), s.cfg = s'.cfg ∧ s ≠ s' ∧
      ∀ w ∈ i.windows, ∀ a, w.holds a → s.mem.read a = s'.mem.read a := by
  refine ⟨.ap 0x100 3 0x200 2 0, twoFields, { twoFields with mem := twoFields.mem.write 0x300 1 }, rfl, by decide, ?_⟩
  intro w hw a ha
  refine (Memory.read_write_of_ne twoFields.mem (a := 0x300) 1 ?_).symm
  simp only [Instr.windows, Instr.fixedWindows, List.mem_cons, List.not_mem_nil, or_false] at hw
  rcases hw with rfl | rfl <;> simp [Window.holds, windowOf] at ha <;> omega

theorem witness_ExceptionsKeepTheConditionCode :
    ∃ (s t : State) (r : Response), exec (.ap 0x100 2 0x200 2 3) s = .next t ∧ t.response = some r ∧
      r.ic ≠ .none := by
  obtain ⟨t, r, h, hr, hp⟩ := of_answers
    (res := exec (.ap 0x100 2 0x200 2 3) twoFields) (p := fun _ r => r.ic != .none) (by decide)
  exact ⟨_, t, r, h, hr, by simpa using hp⟩

theorem witness_ExceptionsKeepTheConditionCode_edmk :
    ∃ (s t : State) (r : Response), exec (.edmk 0x100 5 0x200 0 3) s = .next t ∧ t.response = some r ∧
      r.ic ≠ .none := by
  obtain ⟨t, r, h, hr, hp⟩ := of_answers
    (res := exec (.edmk 0x100 5 0x200 0 3) editingBad) (p := fun _ r => r.ic != .none) (by decide)
  exact ⟨_, t, r, h, hr, by simpa using hp⟩

theorem witness_SuppressingExceptionsLeaveMemory :
    ∃ (s t : State) (r : Response), exec (.dp 0x100 3 0x200 3 1) s = .next t ∧ t.response = some r ∧
      r.ic = .specification ∧ Instr.isEdmk (.dp 0x100 3 0x200 3 1) = false :=
  by
  obtain ⟨t, r, h, hr, hp⟩ := of_answers
    (res := exec (.dp 0x100 3 0x200 3 1) twoFields) (p := fun _ r => r.ic == .specification && !Instr.isEdmk (.dp 0x100 3 0x200 3 1)) (by decide)
  exact ⟨_, t, r, h, hr, by simpa using hp⟩

theorem witness_InterruptionCodesPerOperation :
    ∃ (s t : State) (r : Response), exec (.dp 0x100 3 0x300 2 1) s = .next t ∧ t.response = some r ∧
      r.ic = .data := by
  obtain ⟨t, r, h, hr, hp⟩ := of_answers
    (res := exec (.dp 0x100 3 0x300 2 1) twoFields) (p := fun _ r => r.ic == .data) (by decide)
  exact ⟨_, t, r, h, hr, by simpa using hp⟩

theorem witness_UndefinedOutputsAreAbsent_edmk :
    ∃ (s t : State) (r : Response), exec (.edmk 0x100 6 0x200 7 0) s = .next t ∧ t.response = some r ∧
      r.regOut.isSome = true := by
  obtain ⟨t, r, h, hr, hp⟩ := of_answers
    (res := exec (.edmk 0x100 6 0x200 7 0) editing) (p := fun _ r => r.regOut.isSome) (by decide)
  exact ⟨_, t, r, h, hr, by simpa using hp⟩

theorem witness_UndefinedOutputsAreAbsent_cvb :
    ∃ (s t : State) (r : Response), exec (.cvb 0x300 0) s = .next t ∧ t.response = some r ∧
      r.valOut.isSome = true := by
  obtain ⟨t, r, h, hr, hp⟩ := of_answers
    (res := exec (.cvb 0x300 0) (holding dflt [(0x307, [0x1C])])) (p := fun _ r => r.valOut.isSome) (by decide)
  exact ⟨_, t, r, h, hr, by simpa using hp⟩

theorem witness_ConditionCodesPerOperation :
    ∃ (s t : State) (r : Response), exec (.sp 0x100 1 0x200 1 0) s = .next t ∧ t.response = some r ∧
      r.ic = .none ∧ r.cc = 3 :=
  by
  obtain ⟨t, r, h, hr, hp⟩ := of_answers
    (res := exec (.sp 0x100 1 0x200 1 0) (holding dflt [(0x100, [0x9D]), (0x200, [0x1C])])) (p := fun _ r => r.ic == .none && r.cc == 3) (by decide)
  exact ⟨_, t, r, h, hr, by simpa using hp⟩

theorem witness_ConditionCodesPerOperation_srp :
    ∃ (s t : State) (r : Response), exec (.srp 0x100 1 1 0 0) s = .next t ∧ t.response = some r ∧
      r.ic = .none ∧ r.cc = 3 :=
  by
  obtain ⟨t, r, h, hr, hp⟩ := of_answers
    (res := exec (.srp 0x100 1 1 0 0) (holding dflt [(0x100, [0x9D])])) (p := fun _ r => r.ic == .none && r.cc == 3) (by decide)
  exact ⟨_, t, r, h, hr, by simpa using hp⟩

theorem witness_ConditionCodesPerOperation_passed :
    ∃ (s t : State) (r : Response), exec (.cvd 0x100 5 3) s = .next t ∧ t.response = some r ∧
      r.cc = 3 := by
  obtain ⟨t, r, h, hr, hp⟩ := of_answers
    (res := exec (.cvd 0x100 5 3) twoFields) (p := fun _ r => r.cc == 3) (by decide)
  exact ⟨_, t, r, h, hr, by simpa using hp⟩

/-- An EDMK whose source reaches the last byte of the buffer. -/
def editingAtEnd : State := holding { dflt with memSize := 0x202 } [(0x100, [0x40, 0x20, 0x21]), (0x200, [0x01, 0x2C])]

/-- A request that only its own windows bound, or an edit with room for its source. -/
theorem admissible {i : Instr} {s : State} (h : (refusalBefore s i).isNone = true)
    (hs : ((i.sourceWindow s.mem).all fun w => decide (w.fits s.cfg.memSize)) = true) : i.Admissible s where
  toInsideInterface := inside h
  source := fun w hw => by rw [hw] at hs; simpa using hs

/-- Windows that end at the end of the buffer are inside (R33), an empty one at its end too. -/
theorem witness_AdmissibleRequestsComplete :
    Instr.Admissible (.ap 0x100 3 0x200 2 0) twoFields ∧ Instr.Admissible (.edmk 0x100 3 0x200 0 0) editingAtEnd ∧
      Instr.Admissible (.cvb 0xFFFFF8 0) twoFields ∧ Instr.Admissible (.edmk 0x100 1 0x202 0 0) editingAtEnd := by
  refine ⟨?_, ?_, ?_, ?_⟩ <;> exact admissible (by decide) (by decide)

theorem witness_RequestsOutsideTheInterfaceAreRefused :
    ¬ Instr.InsideInterface (.ap 0 0 0 1 0) State.reset.cfg ∧ ¬ Instr.InsideInterface (.cvb 0xFFFFF9 0) State.reset.cfg ∧
      ¬ Instr.InsideInterface (.pack 0 2 1 2 0) (State.resetWith { dflt with overlapMode := .refuse }).cfg :=
  
  ⟨not_inside (by decide), not_inside (by decide), not_inside (by decide)⟩

theorem witness_RequestsOutsideTheInterfaceAreRefused_edmk :
    1 ≤ selectorCount editingAtEnd.mem 0x100 3 ∧ editingAtEnd.cfg.memSize ≤ (0x202 : Addr).toNat := by decide

theorem witness_PackedRoundTrip :
    ∃ (v : Int) (len : Nat), 1 ≤ len ∧ (Nat.digits 10 v.natAbs).length ≤ 2 * len - 1 ∧ v = -9 ∧ len = 1 :=
  ⟨-9, 1, by decide, by simp, rfl, rfl⟩

/-- A negative zero on overflow, a plus zero, and a value that fits (R66). -/
theorem witness_EncodedSignIsPreferred :
    encodeField (-10) 1 = [0x0D] ∧ encodeOverflow (-10) 1 = true ∧ encodeField 0 1 = [0x0C] ∧ encodeField (-9) 1 = [0x9D] :=
  by decide

/-- A digit above 9, a sign below 10, and the largest magnitude of one byte. -/
theorem witness_DecodeRejectsExactlyMalformedFields :
    packedDecode (holding dflt [(0x100, [0xAC])]).mem 0x100 1 = none ∧
      packedDecode (holding dflt [(0x100, [0x99])]).mem 0x100 1 = none ∧
      packedDecode (holding dflt [(0x100, [0x9B])]).mem 0x100 1 = some (-9) := by decide

/-- One byte with a minus sign B, two with a plus sign F, and a minus zero. -/
theorem witness_DecodedDigitsAreTheNibbles :
    packedDecode (holding dflt [(0x100, [0x9B])]).mem 0x100 1 = some (-9) ∧
      packedDecode (holding dflt [(0x100, [0x01, 0x2F])]).mem 0x100 2 = some 12 ∧
      packedDecode (holding dflt [(0x100, [0x0D])]).mem 0x100 1 = some 0 := by decide

/-- Zeros to the left, a value that just fits, and one whose left digit is cut (R64). -/
theorem witness_EncodePlacesTheDigits :
    encodeField (-7) 2 = [0x00, 0x7D] ∧ encodeField 123 2 = [0x12, 0x3C] ∧ encodeField (-12) 1 = [0x2D] ∧
      encodeOverflow (-12) 1 = true := by decide

theorem witness_CodecStaysInItsWindows :
    ∃ m m' : Memory, m ≠ m' ∧
      ∀ b, (0x200 ≤ b ∧ b < 0x200 + 3) ∨ (0x100 ≤ b ∧ b < 0x100 + 2) → m.read b = m'.read b := by
  refine ⟨twoFields.mem, twoFields.mem.write 0x300 1, by decide, fun b hb => ?_⟩
  exact (Memory.read_write_of_ne _ _ (by omega)).symm

/-- Windows that touch, with more zoned bytes than digits. -/
theorem witness_UnpackPlacesTheDigits :
    ∃ ap lp az lz : Nat, 1 ≤ lp ∧ 1 ≤ lz ∧ (ap + lp ≤ az ∨ az + lz ≤ ap) ∧ 2 * lp - 2 < lz :=
  ⟨0x200, 1, 0x1FC, 4, by decide⟩

theorem witness_ArithmeticResults :
    Instr.InsideInterface (.ap 0x100 3 0x200 2 0) twoFields.cfg ∧
      packedDecode twoFields.mem 0x100 3 = some 125 ∧ packedDecode twoFields.mem 0x200 2 = some (-37) :=
  ⟨inside (by decide), by decide, by decide⟩

theorem witness_CompareResults :
    Instr.InsideInterface (.cp 0x100 3 0x200 2 0) twoFields.cfg ∧
      (packedDecode twoFields.mem 0x100 3 = some 125 ∧ packedDecode twoFields.mem 0x200 2 = some (-37)) ∧
      Instr.InsideInterface (.cp 0x100 3 0x300 2 0) twoFields.cfg ∧ packedDecode twoFields.mem 0x300 2 = none :=
  ⟨inside (by decide), by decide, inside (by decide), by decide⟩

/-- Lengths 9 and 8 are the largest divisor or multiplier with one byte more in operand 1. -/
theorem witness_MalformedOperandsRaiseData :
    Instr.InsideInterface (.ap 0x100 3 0x300 2 0) twoFields.cfg ∧ packedDecode twoFields.mem 0x300 2 = none ∧
      Instr.InsideInterface (.ap 0x300 9 0x200 8 0) twoFields.cfg ∧ packedDecode twoFields.mem 0x300 9 = none ∧
      (∀ j < 8, twoFields.mem.read (0x300 + j) = 0) ∧
      Instr.InsideInterface (.cvb 0x100 0) twoFields.cfg ∧ packedDecode twoFields.mem 0x100 8 = none ∧
      Instr.InsideInterface (.srp 0x100 3 0 10 0) twoFields.cfg ∧ 9 < (10 : Nibble).toNat :=
  ⟨inside (by decide), by decide, inside (by decide), by decide, by decide, inside (by decide), by decide,
    inside (by decide), by decide⟩

theorem witness_IllegalLengthsRaiseSpecification :
    Instr.InsideInterface (.mp 0x100 16 0x200 9 0) twoFields.cfg ∧ 8 < (9 : Len2).toNat ∧
      Instr.InsideInterface (.mp 0x100 3 0x200 3 0) twoFields.cfg ∧ (3 : Len1).toNat ≤ (3 : Len2).toNat :=
  ⟨inside (by decide), by decide, inside (by decide), by decide⟩

theorem witness_MultiplyNeedsLeadingZeroBytes :
    Instr.InsideInterface (.mp 0x101 2 0x201 1 0) twoFields.cfg ∧ ∃ j < 1, twoFields.mem.read (0x101 + j) ≠ 0 :=
  ⟨inside (by decide), by decide⟩

theorem witness_MultiplyStoresTheExactProduct :
    Instr.InsideInterface (.mp 0x100 3 0x201 1 0) twoFields.cfg ∧ (∀ j < 1, twoFields.mem.read (0x100 + j) = 0) ∧
      packedDecode twoFields.mem 0x100 3 = some 125 ∧ packedDecode twoFields.mem 0x201 1 = some (-7) :=
  ⟨inside (by decide), by decide, by decide, by decide⟩

/-- The quotient has 2 digits, 3 are free. -/
theorem witness_DivideStoresQuotientAndRemainder :
    Instr.InsideInterface (.dp 0x100 3 0x201 1 0) twoFields.cfg ∧
      packedDecode twoFields.mem 0x100 3 = some 125 ∧ packedDecode twoFields.mem 0x201 1 = some (-7) ∧
      (Nat.digits 10 ((125 : Int).natAbs / (-7 : Int).natAbs)).length ≤ 2 * (3 - 1) - 1 :=
  ⟨inside (by decide), by decide, by decide, by simp⟩

/-- A zero dividend with a minus sign: quotient and remainder are zero. -/
theorem witness_DivideStoresQuotientAndRemainder_zero :
    packedDecode (holding dflt [(0x100, [0x00, 0x0D]), (0x201, [0x7D])]).mem 0x100 2 = some 0 ∧
      packedDecode (holding dflt [(0x100, [0x00, 0x0D]), (0x201, [0x7D])]).mem 0x201 1 = some (-7) ∧
      (Nat.digits 10 ((0 : Int).natAbs / (-7 : Int).natAbs)).length ≤ 2 * (2 - 1) - 1 :=
  ⟨by decide, by decide, by simp⟩

/-- A one-digit quotient (3) that just fits, and a divisor that is zero. -/
theorem witness_DecimalDivideConditions :
    Instr.InsideInterface (.dp 0x100 3 0x200 2 0) twoFields.cfg ∧
      packedDecode twoFields.mem 0x100 3 = some 125 ∧ packedDecode twoFields.mem 0x200 2 = some (-37) ∧
      packedDecode (holding dflt [(0x300, [0x0C])]).mem 0x300 1 = some 0 :=
  ⟨inside (by decide), by decide, by decide, by decide⟩

theorem witness_RightShiftRounds :
    ∃ m k r : Nat, 1 ≤ k ∧ r ≤ 9 ∧ (Nat.digits 10 m).length = k ∧ k = 3 :=
  ⟨999, 3, 9, by decide, by decide, by simp, rfl⟩

theorem witness_RightShiftRounds_beyond :
    ∃ m k r : Nat, 1 ≤ k ∧ r ≤ 9 ∧ (Nat.digits 10 m).length < k ∧ 1 ≤ m :=
  ⟨99, 3, 9, by decide, by decide, by simp, by decide⟩

theorem witness_ShiftAndRoundResults :
    Instr.InsideInterface (.srp 0x100 3 0x3F 9 0) twoFields.cfg ∧ (9 : Nibble).toNat ≤ 9 ∧
      packedDecode twoFields.mem 0x100 3 = some 125 :=
  ⟨inside (by decide), by decide, by decide⟩

/-- Each clause at the ends of its range. -/
theorem witness_ConvertToBinaryResults :
    Instr.InsideInterface (.cvb 0x200 0) dflt ∧
      packedDecode (holding dflt [(0x200, [0, 0, 0x02, 0x14, 0x74, 0x83, 0x64, 0x7C])]).mem 0x200 8 = some (2 ^ 31 - 1) ∧
      packedDecode (holding dflt [(0x200, [0, 0, 0x02, 0x14, 0x74, 0x83, 0x64, 0x8C])]).mem 0x200 8 = some (2 ^ 31) ∧
      packedDecode (holding dflt [(0x200, [0, 0, 0x02, 0x14, 0x74, 0x83, 0x64, 0x8D])]).mem 0x200 8 = some (-(2 ^ 31)) ∧
      packedDecode (holding dflt [(0x200, [0, 0, 0x02, 0x14, 0x74, 0x83, 0x64, 0x9D])]).mem 0x200 8 =
        some (-(2 ^ 31) - 1) ∧
      packedDecode (holding dflt []).mem 0x200 8 = none :=
  
  ⟨inside (s := holding dflt []) (by decide), by decide, by decide, by decide, by decide, by decide⟩

theorem witness_ConvertToDecimalResults :
    Instr.InsideInterface (.cvd 0xFFFFF8 0x80000000 0) twoFields.cfg := inside (by decide)

theorem witness_BinaryDecimalRoundTrip :
    ∃ (s t : State), exec (.cvd 0x300 0x80000000 1) s = .next t :=
  by
  obtain ⟨t, _, h, _⟩ := of_answers (res := exec (.cvd 0x300 0x80000000 1) twoFields) (p := fun _ _ => true) (by decide)
  exact ⟨_, t, h⟩

/-- Windows that touch, and the same window twice. -/
theorem witness_MoveWithOffsetResults :
    Instr.InsideInterface (.mvo 0x100 3 0x103 2 0) twoFields.cfg ∧
      ¬ (windowOf 0x100 (3 : Len1)).meets (windowOf 0x103 (2 : Len2)) ∧
      Instr.InsideInterface (.mvo 0x100 3 0x100 3 0) twoFields.cfg ∧
      (0x100 : Addr).toNat + (3 : Len2).toNat ≤ (0x100 : Addr).toNat + (3 : Len1).toNat :=
  ⟨inside (by decide), by decide, inside (by decide), by decide⟩

/-- Windows that touch, and the same window twice. -/
theorem witness_PackResults :
    Instr.InsideInterface (.pack 0x100 3 0x103 2 0) twoFields.cfg ∧
      ¬ (windowOf 0x100 (3 : Len1)).meets (windowOf 0x103 (2 : Len2)) ∧
      Instr.InsideInterface (.pack 0x100 3 0x100 3 0) twoFields.cfg ∧
      (0x100 : Addr).toNat + (3 : Len2).toNat ≤ (0x100 : Addr).toNat + (3 : Len1).toNat :=
  ⟨inside (by decide), by decide, inside (by decide), by decide⟩

/-- Windows that touch, and the same window of two bytes twice. -/
theorem witness_UnpackResults :
    Instr.InsideInterface (.unpk 0x100 3 0x103 2 0) twoFields.cfg ∧
      ¬ (windowOf 0x100 (3 : Len1)).meets (windowOf 0x103 (2 : Len2)) ∧
      Instr.InsideInterface (.unpk 0x100 2 0x100 2 0) twoFields.cfg ∧
      (0x100 : Addr).toNat + (2 : Len2).toNat + (2 : Len2).toNat ≤ (0x100 : Addr).toNat + (2 : Len1).toNat + 2 :=
  ⟨inside (by decide), by decide, inside (by decide), by decide⟩

/-- Windows that overlap to the left and to the right. -/
theorem witness_MovesFollowTheByteOrder :
    Instr.InsideInterface (.mvo 0x100 3 0x101 3 0) twoFields.cfg ∧ Instr.InsideInterface (.mvo 0x101 3 0x100 3 0) twoFields.cfg ∧
      Instr.InsideInterface (.pack 0x100 3 0x101 3 0) twoFields.cfg ∧
      Instr.InsideInterface (.unpk 0x100 3 0x100 3 0) twoFields.cfg :=
  ⟨inside (by decide), inside (by decide), inside (by decide), inside (by decide)⟩

theorem witness_PackRestoresUnpackedField :
    ∃ (s t u : State), exec (.unpk 0x300 3 0x200 2 0) s = .next t ∧ exec (.pack 0x400 2 0x300 3 0) t = .next u ∧
      (3 : Len1).toNat = 2 * (2 : Len2).toNat - 1 ∧ ¬ (windowOf 0x300 (3 : Len1)).meets (windowOf 0x200 (2 : Len2)) ∧
      ¬ (windowOf 0x400 (2 : Len1)).meets (windowOf 0x300 (3 : Len2)) := by
  obtain ⟨t, _, h, _, hp⟩ := of_answers (res := exec (.unpk 0x300 3 0x200 2 0) twoFields)
    (p := fun t _ => answers (exec (.pack 0x400 2 0x300 3 0) t) fun _ _ => true) (by decide)
  obtain ⟨u, _, hu, _⟩ := of_answers hp
  exact ⟨_, t, u, h, hu, by decide, by decide, by decide⟩

/-- Where a scan starts, for a pattern at X'100' and a source at X'200'. -/
def scanStart (s : State) : EditState := editStart s.mem 0x100 0x200 0

/-- The state n pattern bytes later, where the scan gets there. -/
def scanned (s : State) (n : Nat) : Option EditState :=
  match editLoop s.cfg 0 0x100 n (scanStart s) with
  | .done e => some e
  | _ => none

theorem of_scanned {s : State} {n : Nat} {p : EditState → Bool} (h : (scanned s n).any p = true) :
    ∃ e, editLoop s.cfg 0 0x100 n (scanStart s) = .done e ∧ p e = true := by
  unfold scanned at h
  split at h
  · exact ⟨_, ‹_›, by simpa using h⟩
  · cases h

theorem witness_EditSelectorTransition :
    ∃ (e : EditState) (x : SourceDigit),
      e.mem.read (0x100 + e.k) = 0x21 ∧ nextDigit dflt.memSize e = .more x ∧ x.digit = 2 := by
  obtain ⟨e, _, hp⟩ := of_scanned (s := editing) (n := 3)
    (p := fun e => e.mem.read (0x100 + e.k) == 0x21 && nextDigit dflt.memSize e == .more ⟨2, none, 0x201, .low 0x23⟩)
    (by decide)
  simp only [Bool.and_eq_true, beq_iff_eq] at hp
  exact ⟨e, _, hp.1, hp.2, rfl⟩

theorem witness_EditSeparatorAndMessage :
    ∃ e e' : EditState, e.mem.read (0x100 + e.k) = 0x22 ∧
      (e'.mem.read (0x100 + e'.k) ≠ 0x20 ∧ e'.mem.read (0x100 + e'.k) ≠ 0x21 ∧ e'.mem.read (0x100 + e'.k) ≠ 0x22) :=
  ⟨scanStart (holding dflt [(0x100, [0x22])]), scanStart editing, by decide, by decide⟩

theorem witness_EditTakesSourceDigits :
    (scanStart editing).half = .high ∧ (scanStart editing).sp < dflt.memSize ∧
      ((scanStart editing).mem.read (scanStart editing).sp).toNat / 16 ≤ 9 ∧
      ((scanStart editing).mem.read (scanStart editing).sp).toNat % 16 ≤ 9 ∧
      9 < ((holding dflt [(0x200, [0xA0])]).mem.read 0x200).toNat / 16 ∧
      9 < ((holding dflt [(0x200, [0x9A])]).mem.read 0x200).toNat % 16 := by decide

/-- An edit whose two selectors take both digits of the last byte of the buffer. -/
def editingLastByte : State := holding { dflt with memSize := 0x201 } [(0x100, [0x40, 0x20, 0x21]), (0x200, [0x12])]

/-- The same with a sign in that byte: the second selector needs the byte at MEM_SIZE. -/
def editingPastEnd : State := holding { dflt with memSize := 0x201 } [(0x100, [0x40, 0x20, 0x21]), (0x200, [0x2C])]

/-- How the scan of n pattern bytes ends: 0 done, 1 DATA, 2 outside the buffer. -/
def scanEnd (s : State) (n : Nat) : Nat :=
  match editLoop s.cfg 0 0x100 n (scanStart s) with
  | .done _ => 0
  | .data _ => 1
  | .outside => 2

/-- Room to spare, and a source that ends with the buffer. -/
theorem witness_EditCompletes :
    (Instr.InsideInterface (.edmk 0x100 6 0x200 0 0) editing.cfg ∧ sourceBytes editing.mem 0x200 4 = 2 ∧
      selectorCount editing.mem 0x100 6 = 4 ∧
      ∀ j < 2, (editing.mem.read (0x200 + j)).toNat / 16 ≤ 9 ∧ ¬ (windowOf 0x100 (6 : Len1)).holds (0x200 + j)) ∧
    Instr.InsideInterface (.edmk 0x100 3 0x200 0 0) editingLastByte.cfg ∧
      0x200 + sourceBytes editingLastByte.mem 0x200 (selectorCount editingLastByte.mem 0x100 3) = 0x201 ∧
      ∀ j < 1, (editingLastByte.mem.read (0x200 + j)).toNat / 16 ≤ 9 ∧
        ¬ (windowOf 0x100 (3 : Len1)).holds (0x200 + j) :=
  ⟨⟨inside (by decide), by decide, by decide, by decide⟩, inside (by decide), by decide, by decide⟩

/-- Each of the three ends of a scan. -/
theorem witness_EditStartsFresh :
    Instr.InsideInterface (.edmk 0x100 6 0x200 0 0) editing.cfg ∧ scanEnd editing 6 = 0 ∧
      Instr.InsideInterface (.edmk 0x100 5 0x200 0 0) editingBad.cfg ∧ scanEnd editingBad 5 = 1 ∧
      Instr.InsideInterface (.edmk 0x100 3 0x200 0 0) editingPastEnd.cfg ∧ scanEnd editingPastEnd 3 = 2 :=
  ⟨inside (by decide), by decide, inside (by decide), by decide, inside (by decide), by decide⟩

/-- One byte of the two used lies in the buffer: refused. With both digits in it: not refused. -/
theorem witness_EditNeedsTheSourceItConsumes :
    (Instr.InsideInterface (.edmk 0x100 3 0x200 0 0) editingPastEnd.cfg ∧
      0x200 + sourceBytes editingPastEnd.mem 0x200 (selectorCount editingPastEnd.mem 0x100 3) = 0x202 ∧
      ∀ j < 2, 0x200 + j < 0x201 → (editingPastEnd.mem.read (0x200 + j)).toNat / 16 ≤ 9 ∧
        ¬ (windowOf 0x100 (3 : Len1)).holds (0x200 + j)) ∧
    0x200 + sourceBytes editingLastByte.mem 0x200 (selectorCount editingLastByte.mem 0x100 3) = 0x201 :=
  ⟨⟨inside (by decide), by decide, by decide⟩, by decide⟩

/-- The scan comes to the second selector with the source at MEM_SIZE. -/
theorem witness_RequestsOutsideTheInterfaceAreRefused_consumed :
    Instr.InsideInterface (.edmk 0x100 3 0x200 0 0) editingPastEnd.cfg ∧
      ∃ e, SourceLeavesAt editingPastEnd 0x100 3 0x200 0 e ∧ e.k = 2 ∧ e.sp = 0x201 := by
  obtain ⟨e, h, hp⟩ := of_scanned (s := editingPastEnd) (n := 2)
    (p := fun e => e.k == 2 && (e.half == .high && e.sp == 0x201)) (by decide)
  simp only [Bool.and_eq_true, beq_iff_eq] at hp
  refine ⟨inside (by decide), e, ⟨?_, ?_, ?_, hp.2.1, ?_⟩, hp.1, hp.2.2⟩
  · rw [hp.1]; decide
  · rw [ScanReaches, hp.1]; exact h
  · rw [hp.1]; exact Or.inr (by decide)
  · rw [hp.2.2]; decide

/-- No selector of this edit needs a byte beyond the buffer. -/
theorem witness_EditAnswersUnlessTheSourceLeaves :
    Instr.InsideInterface (.edmk 0x100 3 0x200 0 0) editingLastByte.cfg ∧
      ∀ e, ¬ SourceLeavesAt editingLastByte 0x100 3 0x200 0 e := by
  refine ⟨inside (by decide), fun e he => ?_⟩
  have h : scanEnd editingLastByte 3 = 0 := by decide
  have ho := editLoop_eq_outside_iff.2 ⟨e, he⟩
  unfold scanEnd at h
  rw [show editLoop editingLastByte.cfg 0 0x100 3 (scanStart editingLastByte) = .outside from ho] at h
  cases h

/-- An edit of one field with two starts of significance, a plus sign between them. -/
def editingTwice (policy : MarkPolicy) : State :=
  holding { dflt with markPolicy := policy } [(0x100, [0x40, 0x20, 0x20]), (0x200, [0x1C, 0x23])]

theorem editingTwice_marks (policy : MarkPolicy) (k : Nat) :
    MarkEventAt (editingTwice policy) 0x100 3 0x200 0 k ↔ k = 1 ∨ k = 2 := by
  have mark : ∀ (k : Nat) (x : SourceDigit), k < 3 → SelectorAt (editingTwice policy) 0x100 k → x.digit ≠ 0 →
      ((scanned (editingTwice policy) k).any fun e =>
        e.k == k && (e.sig == false && nextDigit (editingTwice policy).cfg.memSize e == .more x)) = true →
      MarkEventAt (editingTwice policy) 0x100 3 0x200 0 k := by
    intro k x hk hs hx h
    obtain ⟨e, he, hp⟩ := of_scanned h
    simp only [Bool.and_eq_true, beq_iff_eq] at hp
    exact ⟨hk, hs, e, x, hp.1, by rw [ScanReaches, hp.1]; exact he, hp.2.1, hp.2.2, hx⟩
  constructor
  · rintro ⟨hk, hs, _⟩
    have h0 : ¬ SelectorAt (editingTwice policy) 0x100 0 := by cases policy <;> (unfold SelectorAt; decide)
    have : k ≠ 0 := fun h => h0 (h ▸ hs)
    have : k < 3 := hk
    omega
  · rintro (rfl | rfl)
    · refine mark 1 ⟨1, some 0xC, 0x201, .high⟩ (by decide) (Or.inl ?_) (by decide) ?_ <;> cases policy <;> decide
    · refine mark 2 ⟨2, none, 0x201, .low 0x23⟩ (by decide) (Or.inl ?_) (by decide) ?_ <;> cases policy <;> decide

/-- Two mark events in one field: EVERY_START asks for the second, FIRST_PER_FIELD for the first. -/
theorem witness_EditRegisterPerPolicy (policy : MarkPolicy) :
    (∃ t, exec (.edmk 0x100 3 0x200 0 0) (editingTwice policy) = .next t) ∧
      MarkEventAt (editingTwice policy) 0x100 3 0x200 0 2 ∧
      (∀ k', 2 < k' → ¬ MarkEventAt (editingTwice policy) 0x100 3 0x200 0 k') ∧
      MarkEventAt (editingTwice policy) 0x100 3 0x200 0 1 ∧
      (∀ k', k' < 1 → ¬ MarkEventAt (editingTwice policy) 0x100 3 0x200 0 k') ∧
      ∀ k', 1 < k' → MarkEventAt (editingTwice policy) 0x100 3 0x200 0 k' →
        ¬ ∃ f, 1 < f ∧ f < k' ∧ (editingTwice policy).mem.read (0x100 + f) = 0x22 := by
  simp only [editingTwice_marks]
  refine ⟨?_, by simp, by omega, by simp, by omega, by omega⟩
  obtain ⟨t, _, h, _⟩ := of_answers (res := exec (.edmk 0x100 3 0x200 0 0) (editingTwice policy))
    (p := fun _ _ => true) (by cases policy <;> decide)
  exact ⟨t, h⟩

/-- No mark event at all. -/
theorem witness_EditRegisterPerPolicy_none :
    (∃ t, exec (.edmk 0x200 2 0x100 7 0) twoFields = .next t) ∧ ∀ k, ¬ MarkEventAt twoFields 0x200 2 0x100 7 k := by
  refine ⟨?_, ?_⟩
  · obtain ⟨t, _, h, _⟩ := of_answers (res := exec (.edmk 0x200 2 0x100 7 0) twoFields) (p := fun _ _ => true) (by decide)
    exact ⟨t, h⟩
  · rintro k ⟨hk, hs, _⟩
    have none : ∀ k < 2, twoFields.mem.read (0x200 + k) ≠ 0x20 ∧ twoFields.mem.read (0x200 + k) ≠ 0x21 := by decide
    rcases hs with hs | hs
    · exact (none k hk).1 hs
    · exact (none k hk).2 hs

theorem witness_EditDataStopsAtTheFault :
    Instr.InsideInterface (.edmk 0x100 5 0x200 0 0) editingBad.cfg ∧
      ∃ e, editLoop editingBad.cfg 0 0x100 3 (scanStart editingBad) = .done e ∧ e.k = 3 ∧
        editingBad.mem.read (0x100 + 3) = 0x20 ∧ e.half = .high ∧ e.sp < editingBad.cfg.memSize ∧
        9 < (e.mem.read e.sp).toNat / 16 := by
  obtain ⟨e, h, hp⟩ := of_scanned (s := editingBad) (n := 3)
    (p := fun e => e.k == 3 && (e.half == .high && (decide (e.sp < editingBad.cfg.memSize) &&
      decide (9 < (e.mem.read e.sp).toNat / 16)))) (by decide)
  simp only [Bool.and_eq_true, beq_iff_eq, decide_eq_true_eq] at hp
  exact ⟨inside (by decide), e, h, hp.1, by decide, hp.2.1, hp.2.2.1, hp.2.2.2⟩

theorem witness_EditRegisterKeepsTheHighByte :
    ∃ (s t : State), exec (.edmk 0x100 6 0x200 0xAB000000 0) s = .next t := by
  obtain ⟨t, _, h, _⟩ := of_answers (res := exec (.edmk 0x100 6 0x200 0xAB000000 0) editing)
    (p := fun _ r => r.regOut == some 0xAB000102) (by decide)
  exact ⟨_, t, h⟩

theorem witness_EditWithoutSelectorsFills :
    Instr.InsideInterface (.edmk 0x200 2 0x100 7 0) twoFields.cfg ∧ selectorCount twoFields.mem 0x200 2 = 0 :=
  ⟨inside (by decide), by decide⟩

/-! ## Memory -/

theorem test_memory_keeps_canonical_form :
    Memory.wf ((twoFields.mem.write 0x101 0).write 0x50 1) = true ∧ (twoFields.mem.write 0x101 0).read 0x101 = 0 :=
  by decide

theorem test_write_of_zero_is_not_listed : Memory.write [(5, 1)] 5 0 = [] ∧ Memory.write [] 5 0 = [] := by decide

theorem test_reset_memory_wf : Memory.wf State.reset.mem = true := by decide

end Sys2Proof.Tests
end

section
/-! The statements of the whole machine that every request meets: the invariant (R8, R20 to R24, R32), and what a
result depends on (R12, R33). Each meaning is treated once, from the laws above. -/

namespace Sys2Proof.Machine

variable {s s' t : State}

/-! ## The step and reset -/

/-- A step with a request that decodes runs its instruction (R12, R123). -/
theorem step_of_decode {q : RequestWord} {i : Instr} (hq : s.request = some q) (hd : decode q = .ok i) :
    step s = exec i s.takeRequest := by
  simp only [step, hq, hd]

/-- The reset state of a machine with legal parameters meets the invariant: its buffer lists nothing. -/
theorem inv_resetWith {c : Config} (hc : c.wf = true) : Inv (State.resetWith c) where
  config := hc
  canonical := rfl
  inside := nofun
  response := nofun

/-! ## The invariant -/

/-- The window an instruction writes is one of those the request gives (R34). -/
theorem writes_mem_fixedWindows {i : Instr} {w : Window} (h : i.writes = some w) : w ∈ i.fixedWindows := by
  cases i <;> simp only [Instr.writes, Option.some.injEq, reduceCtorEq] at h <;> subst h <;>
    exact List.mem_cons_self

/-- Every meaning answers a legal response (R20 to R24, R100, R104). -/
theorem exec_responseLegal {i : Instr} (h : exec i s = .next t) :
    ∃ r, t.response = some r ∧ responseLegal r = true := by
  cases i with
  | ap => rcases execAp_next h with rfl | ⟨_, rfl⟩ <;> exact ⟨_, rfl, rfl⟩
  | sp => rcases execSp_next h with rfl | ⟨_, rfl⟩ <;> exact ⟨_, rfl, rfl⟩
  | cp => rcases execCp_next h with rfl | ⟨_, _, rfl⟩ <;> exact ⟨_, rfl, rfl⟩
  | zap => rcases execZap_next h with rfl | ⟨_, rfl⟩ <;> exact ⟨_, rfl, rfl⟩
  | mp => rcases execMp_next h with rfl | rfl | ⟨_, rfl⟩ <;> exact ⟨_, rfl, rfl⟩
  | dp => rcases execDp_next h with rfl | rfl | rfl | ⟨_, _, _, rfl⟩ <;> exact ⟨_, rfl, rfl⟩
  | edmk => rcases execEdmk_next h with ⟨_, _, rfl⟩ | ⟨_, _, rfl⟩ <;> exact ⟨_, rfl, rfl⟩
  | srp => rcases execSrp_next h with rfl | ⟨_, _, _, _, rfl⟩ <;> exact ⟨_, rfl, rfl⟩
  | cvb => rcases execCvb_next h with rfl | ⟨_, _, rfl | rfl, rfl⟩ <;> exact ⟨_, rfl, rfl⟩
  | cvd => exact ⟨_, congrArg State.response (execCvd_next h), rfl⟩
  | mvo => exact ⟨_, congrArg State.response (execMvo_next h), rfl⟩
  | pack => exact ⟨_, congrArg State.response (execPack_next h), rfl⟩
  | unpk => exact ⟨_, congrArg State.response (execUnpk_next h), rfl⟩

/-- Every meaning's stores lie in some window inside the buffer (R33, R34), the empty one where it stores nothing. -/
theorem exec_touches_inside {i : Instr} (h : exec i s = .next t) :
    ∃ w : Window, w.fits s.cfg.memSize ∧ Touches w s.mem t.mem := by
  obtain ⟨hnone, hsome⟩ := exec_touches h
  cases hw : i.writes with
  | none => exact ⟨⟨0, 0⟩, Nat.zero_le _, hnone hw ▸ Touches.refl _ _⟩
  | some w => exact ⟨w, (inside_of_next h).windows w (writes_mem_fixedWindows hw), hsome w hw⟩

/-- Every meaning keeps the invariant. -/
theorem exec_inv {i : Instr} (hs : Inv s) (h : exec i s = .next t) : Inv t := by
  have hcfg : t.cfg = s.cfg := by obtain ⟨m, r, rfl⟩ := exec_next h; rfl
  obtain ⟨w, hfits, htouch⟩ := exec_touches_inside h
  obtain ⟨r, hr, hlegal⟩ := exec_responseLegal h
  refine ⟨hcfg ▸ hs.config, htouch.canonical hs.canonical, fun c hc => ?_, fun r' hr' => ?_⟩
  · rw [hcfg]
    exact (htouch.cells c hc).elim (hs.inside c) fun hheld => Nat.lt_of_lt_of_le hheld.2 hfits
  · obtain rfl : r = r' := Option.some.inj (hr.symm.trans hr')
    exact hlegal

/-- Taking the request from the port keeps the invariant, which does not speak of it. -/
theorem takeRequest_inv (hs : Inv s) : Inv s.takeRequest :=
  ⟨hs.config, hs.canonical, hs.inside, hs.response⟩

/-- Every step keeps the invariant. -/
theorem step_inv (hs : Inv s) (h : step s = .next t) : Inv t := by
  rcases step_next h with ⟨_, rfl⟩ | ⟨_, _, _, _, hexec⟩
  · exact hs
  · exact exec_inv (takeRequest_inv hs) hexec

/-! ## What a result depends on

Two results are alike on a set of addresses that holds the instruction's windows. One rule per shared operation,
then one per meaning. -/

/-- Both a next state, with the same response and memories that agree on the set, or both the same refusal. -/
def Alike (S : Nat → Prop) (x y : Result) : Prop :=
  (∃ t t', x = .next t ∧ y = .next t' ∧ t.response = t'.response ∧ Agree S t.mem t'.mem) ∨
    ∃ r, x = .refused r ∧ y = .refused r

/-- The set holds the window [a, a+n). -/
def Covers (S : Nat → Prop) (a n : Nat) : Prop := ∀ b, a ≤ b → b < a + n → S b

variable {S : Nat → Prop} {m m' : Memory} {a1 a2 : Addr} {l1 : Len1} {l2 : Len2} {cc : CondCode}

theorem refused_alike (r : Refusal) : Alike S (.refused r) (.refused r) := Or.inr ⟨r, rfl, rfl⟩

theorem respond_alike (h : Agree S m m') (r : Response) :
    Alike S (.next (s.respond m r)) (.next (s'.respond m' r)) :=
  Or.inl ⟨_, _, rfl, rfl, rfl, h⟩

theorem raise_alike (h : Agree S s.mem s'.mem) (ic : InterruptionCode) : Alike S (raise s ic cc) (raise s' ic cc) :=
  respond_alike h _

theorem complete_alike (h : Agree S m m') : Alike S (complete s m cc) (complete s' m' cc) := respond_alike h _

/-- A test that both make the same way. -/
theorem ite_alike {c : Prop} [Decidable c] {x y x' y' : Result} (ht : Alike S x y) (hf : Alike S x' y') :
    Alike S (if c then x else x') (if c then y else y') := by
  split
  · exact ht
  · exact hf

/-- The checks of a request read the parameters only. -/
theorem refusalBefore_congr (hcfg : s.cfg = s'.cfg) (i : Instr) : refusalBefore s i = refusalBefore s' i := by
  obtain ⟨cfg, mem, request, response⟩ := s
  obtain rfl : cfg = s'.cfg := hcfg
  cases i <;> rfl

/-- Two requests with the same check: it refuses both or neither. -/
theorem unlessRefused_alike {r r' : Option Refusal} {k k' : Result} (hr : r = r') (hk : r = none → Alike S k k') :
    Alike S (unlessRefused r k) (unlessRefused r' k') := by
  subst hr
  cases r with
  | none => exact hk rfl
  | some why => exact refused_alike why

theorem withDecoded_alike {k k' : Int → Int → Result} (h : Agree S s.mem s'.mem)
    (h1 : Covers S a1.toNat l1.toNat) (h2 : Covers S a2.toNat l2.toNat) (hk : ∀ v1 v2, Alike S (k v1 v2) (k' v1 v2)) :
    Alike S (withDecoded s cc a1 l1 a2 l2 k) (withDecoded s' cc a1 l1 a2 l2 k') := by
  unfold withDecoded
  rw [← h.packedDecode h1, ← h.packedDecode h2]
  split
  · exact raise_alike h _
  · split
    · exact raise_alike h _
    · exact hk _ _

theorem packedEncode_agree (h : Agree S m m') (v : Int) (a n : Nat) :
    Agree S (packedEncode m v a n) (packedEncode m' v a n) :=
  (h.packedEncode v a n).mono fun _ => Or.inl

theorem storeArith_alike (h : Agree S s.mem s'.mem) (r : Int) :
    Alike S (storeArith s a1 l1 r) (storeArith s' a1 l1 r) :=
  complete_alike (packedEncode_agree h _ _ _)

theorem storeShifted_alike (h : Agree S s.mem s'.mem) (res : Nat) (ovf neg : Bool) :
    Alike S (storeShifted s a1 l1 res ovf neg) (storeShifted s' a1 l1 res ovf neg) :=
  complete_alike ((h.writeBytes _ _).mono fun _ => Or.inl)

theorem editResult_alike : ∀ {x x' : EditEnd}, EditEndAgree S x x' → Alike S (editResult s cc x) (editResult s' cc x')
  | .done _, .done _, ⟨_, rfl, hm⟩ => respond_alike hm _
  | .data _, .data _, ⟨_, rfl, hm⟩ => respond_alike hm _
  | .outside, .outside, _ => refused_alike _

/-- The operands of a move that is not refused have at least one byte (R48). -/
theorem one_le_of_refusalMove (h : refusalMove s a1 l1 a2 l2 = none) : 1 ≤ l1.toNat ∧ 1 ≤ l2.toNat := by
  have hlen := (refusalTwoFields_eq_none.1 (refusalMove_eq_none.1 h).1).1
  simp only [Len1.isFieldLength, Len2.isFieldLength, Bool.and_eq_true, decide_eq_true_eq] at hlen
  exact ⟨hlen.1.1, hlen.2.1⟩

/-- The pattern of an edit that is not refused has at least one byte (R48). -/
theorem one_le_of_refusalEdit (h : refusalEdit s a1 l1 a2 = none) : 1 ≤ l1.toNat := by
  have hlen := (refusalEdit_eq_none.1 h).1
  simp only [Len1.isPatternLength, decide_eq_true_eq] at hlen
  exact hlen.1

section Meanings

variable (hcfg : s.cfg = s'.cfg) (h : Agree S s.mem s'.mem)
include hcfg h

section TwoOperands

variable (h1 : Covers S a1.toNat l1.toNat) (h2 : Covers S a2.toNat l2.toNat)
include h1 h2

theorem execAp_alike : Alike S (execAp a1 l1 a2 l2 cc s) (execAp a1 l1 a2 l2 cc s') :=
  unlessRefused_alike (refusalBefore_congr hcfg (.ap a1 l1 a2 l2 cc)) fun _ =>
    withDecoded_alike h h1 h2 fun _ _ => storeArith_alike h _

theorem execSp_alike : Alike S (execSp a1 l1 a2 l2 cc s) (execSp a1 l1 a2 l2 cc s') :=
  unlessRefused_alike (refusalBefore_congr hcfg (.sp a1 l1 a2 l2 cc)) fun _ =>
    withDecoded_alike h h1 h2 fun _ _ => storeArith_alike h _

theorem execCp_alike : Alike S (execCp a1 l1 a2 l2 cc s) (execCp a1 l1 a2 l2 cc s') :=
  unlessRefused_alike (refusalBefore_congr hcfg (.cp a1 l1 a2 l2 cc)) fun _ =>
    withDecoded_alike h h1 h2 fun _ _ => complete_alike h

theorem execZap_alike : Alike S (execZap a1 l1 a2 l2 cc s) (execZap a1 l1 a2 l2 cc s') :=
  unlessRefused_alike (refusalBefore_congr hcfg (.zap a1 l1 a2 l2 cc)) fun _ =>
    withDecoded_alike h h1 h2 fun _ _ => storeArith_alike h _

/-- MP's zero check reads the leftmost L2 bytes of operand 1; the length check before it keeps them inside. -/
theorem execMp_alike : Alike S (execMp a1 l1 a2 l2 cc s) (execMp a1 l1 a2 l2 cc s') := by
  refine unlessRefused_alike (refusalBefore_congr hcfg (.mp a1 l1 a2 l2 cc)) fun _ => ?_
  by_cases hl : illegalLengths l1 l2 = true
  · rw [if_pos hl, if_pos hl]
    exact raise_alike h _
  · rw [if_neg hl, if_neg hl, ← hcfg]
    simp only [illegalLengths, decide_eq_true_eq] at hl
    have hlead : leadingNonzero s.mem a1.toNat l2.toNat = leadingNonzero s'.mem a1.toNat l2.toNat := by
      rw [leadingNonzero, leadingNonzero, h.readBytes fun b hb hb' => h1 b hb (by omega)]
    rw [← hlead]
    exact ite_alike (raise_alike h _)
      (withDecoded_alike h h1 h2 fun _ _ => complete_alike (packedEncode_agree h _ _ _))

theorem execDp_alike : Alike S (execDp a1 l1 a2 l2 cc s) (execDp a1 l1 a2 l2 cc s') :=
  unlessRefused_alike (refusalBefore_congr hcfg (.dp a1 l1 a2 l2 cc)) fun _ =>
    ite_alike (raise_alike h _) <| withDecoded_alike h h1 h2 fun _ _ =>
      ite_alike (raise_alike h _) <| ite_alike (raise_alike h _) <|
        complete_alike (packedEncode_agree (packedEncode_agree h _ _ _) _ _ _)

theorem execMvo_alike : Alike S (execMvo a1 l1 a2 l2 cc s) (execMvo a1 l1 a2 l2 cc s') :=
  unlessRefused_alike (refusalBefore_congr hcfg (.mvo a1 l1 a2 l2 cc)) fun hr =>
    have ⟨hl1, hl2⟩ := one_le_of_refusalMove hr
    complete_alike (h.mvoMemory hl1 hl2 h1 h2)

end TwoOperands

/-- PACK reads its source only; every byte of operand 1 is stored whole. -/
theorem execPack_alike (h2 : Covers S a2.toNat l2.toNat) :
    Alike S (execPack a1 l1 a2 l2 cc s) (execPack a1 l1 a2 l2 cc s') :=
  unlessRefused_alike (refusalBefore_congr hcfg (.pack a1 l1 a2 l2 cc)) fun hr =>
    complete_alike (h.packMemory (one_le_of_refusalMove hr).2 h2)

/-- UNPK reads its source only; every byte of operand 1 is stored whole. -/
theorem execUnpk_alike (h2 : Covers S a2.toNat l2.toNat) :
    Alike S (execUnpk a1 l1 a2 l2 cc s) (execUnpk a1 l1 a2 l2 cc s') :=
  unlessRefused_alike (refusalBefore_congr hcfg (.unpk a1 l1 a2 l2 cc)) fun hr =>
    have ⟨hl1, hl2⟩ := one_le_of_refusalMove hr
    complete_alike ((h.unpackZoned hl2 hl1 h2).2.mono fun _ => Or.inl)

/-- EDMK reads its pattern and at most L1 source bytes (R83). -/
theorem execEdmk_alike {reg : Word} (h1 : Covers S a1.toNat l1.toNat) (h2 : Covers S a2.toNat l1.toNat) :
    Alike S (execEdmk a1 l1 a2 reg cc s) (execEdmk a1 l1 a2 reg cc s') := by
  refine unlessRefused_alike (refusalBefore_congr hcfg (.edmk a1 l1 a2 reg cc)) fun hr => editResult_alike ?_
  have hpos := one_le_of_refusalEdit hr
  have hstart : editStart s'.mem a1.toNat a2.toNat reg =
      { editStart s.mem a1.toNat a2.toNat reg with mem := s'.mem } := by
    rw [editStart, ← h a1.toNat (h1 _ (le_refl _) (by omega))]
    rfl
  rw [hstart, ← hcfg]
  exact editLoop_agree h h1 h2

theorem execSrp_alike {sh : ShiftField} {i3 : Nibble} (h1 : Covers S a1.toNat l1.toNat) :
    Alike S (execSrp a1 l1 sh i3 cc s) (execSrp a1 l1 sh i3 cc s') := by
  refine unlessRefused_alike (refusalBefore_congr hcfg (.srp a1 l1 sh i3 cc)) fun _ => ?_
  unfold packedIsValid
  rw [← h.readBytes h1, ← hcfg]
  refine ite_alike (raise_alike h _) (ite_alike (raise_alike h _) ?_)
  exact ite_alike (storeShifted_alike h _ _ _) <| ite_alike (storeShifted_alike h _ _ _) <|
    ite_alike (storeShifted_alike h _ _ _) (storeShifted_alike h _ _ _)

theorem execCvb_alike (h2 : Covers S a2.toNat 8) : Alike S (execCvb a2 cc s) (execCvb a2 cc s') := by
  refine unlessRefused_alike (refusalBefore_congr hcfg (.cvb a2 cc)) fun _ => ?_
  rw [← h.packedDecode h2]
  split
  · exact raise_alike h _
  · exact ite_alike (respond_alike h _) (respond_alike h _)

theorem execCvd_alike {val : Word} : Alike S (execCvd a2 val cc s) (execCvd a2 val cc s') :=
  unlessRefused_alike (refusalBefore_congr hcfg (.cvd a2 val cc)) fun _ =>
    complete_alike (packedEncode_agree h _ _ _)

/-- Every meaning depends on the parameters and the bytes of the instruction's windows only (R12, R33). -/
theorem exec_alike {i : Instr} (hS : ∀ w ∈ i.windows, Covers S w.base w.len) : Alike S (exec i s) (exec i s') := by
  cases i <;> simp only [Instr.windows, Instr.fixedWindows, windowOf, List.forall_mem_cons] at hS
  case ap => exact execAp_alike hcfg h hS.1 hS.2.1
  case sp => exact execSp_alike hcfg h hS.1 hS.2.1
  case cp => exact execCp_alike hcfg h hS.1 hS.2.1
  case zap => exact execZap_alike hcfg h hS.1 hS.2.1
  case mp => exact execMp_alike hcfg h hS.1 hS.2.1
  case dp => exact execDp_alike hcfg h hS.1 hS.2.1
  case edmk => exact execEdmk_alike hcfg h hS.2.1 hS.1
  case srp => exact execSrp_alike hcfg h hS.1
  case cvb => exact execCvb_alike hcfg h hS.1
  case cvd => exact execCvd_alike hcfg h
  case mvo => exact execMvo_alike hcfg h hS.1 hS.2.1
  case pack => exact execPack_alike hcfg h hS.2.1
  case unpk => exact execUnpk_alike hcfg h hS.2.1

end Meanings

/-- The window an instruction writes is among those it may touch. -/
theorem writes_mem_windows {i : Instr} {w : Window} (h : i.writes = some w) : w ∈ i.windows := by
  cases i with
  | edmk => exact List.mem_cons_of_mem _ (writes_mem_fixedWindows h)
  | _ => exact writes_mem_fixedWindows h

end Sys2Proof.Machine

namespace Sys2Proof

open Machine

/-- Settles O10: the parameters never change, every store lies in a window inside the buffer and keeps the canonical
form, and every response a meaning answers is legal. -/
theorem stepKeepsInvariant : Obligations.StepKeepsInvariant := fun _ _ => step_inv

/-- Settles O13: the results are alike on the union of the instruction's windows, which holds the one it writes. -/
theorem resultDependsOnTheWindowsOnly : Obligations.ResultDependsOnTheWindowsOnly := by
  intro i s s' hcfg hagree
  have halike : Alike (fun a => ∃ w ∈ i.windows, w.holds a) (exec i s) (exec i s') :=
    exec_alike hcfg (fun a ⟨w, hw, ha⟩ => hagree w hw a ha) fun w hw _ hlo hhi => ⟨w, hw, hlo, hhi⟩
  refine halike.imp_left ?_
  rintro ⟨t, t', ht, ht', hresp, hmem⟩
  exact ⟨t, t', ht, ht', hresp, fun w hw a ha => hmem a ⟨w, writes_mem_windows hw, ha⟩⟩

/-- Settles O7: both tests of the step, for a request and for its decoding, have their answer. -/
theorem stepRunsTheDecodedRequest : Obligations.StepRunsTheDecodedRequest := fun _ _ _ => step_of_decode

/-- Settles O11: the parameters of `State.reset` are legal. -/
theorem resetMeetsInvariant : Obligations.ResetMeetsInvariant := inv_resetWith (by decide)

end Sys2Proof
end

section
/-! The statements about responses and about what an instruction leaves unchanged (R15, R20, R24, R34), and about EDMK's
scan as a whole and the register it answers (R22, R27, R88). -/

namespace Sys2Proof

/-- The operations whose condition code 3 says overflow (R20). -/
def Instr.canOverflow : Instr → Bool
  | .ap _ _ _ _ _ => true
  | .sp _ _ _ _ _ => true
  | .zap _ _ _ _ _ => true
  | .srp _ _ _ _ _ => true
  | _ => false

variable {i : Instr}

theorem Instr.canOverflow_iff :
    i.canOverflow = true ↔
      (∃ a1 l1 a2 l2 cc, i = .ap a1 l1 a2 l2 cc ∨ i = .sp a1 l1 a2 l2 cc ∨ i = .zap a1 l1 a2 l2 cc) ∨
        ∃ a1 l1 sh i3 cc, i = .srp a1 l1 sh i3 cc := by
  cases i <;> simp [Instr.canOverflow]

/-- An operation with an overflow code answers neither a register nor a value (R24). -/
theorem Instr.plain_of_canOverflow (h : i.canOverflow = true) :
    i.isEdmk = false ∧ i.isCvb = false ∧ i.passesCondCode = false := by
  cases i <;> simp_all [Instr.canOverflow, Instr.isEdmk, Instr.isCvb, Instr.passesCondCode]

/-- EDMK sets the condition code. -/
theorem Instr.isEdmk_of_passesCondCode (h : i.passesCondCode = true) : i.isEdmk = false := by
  cases i <;> simp_all [Instr.isEdmk, Instr.passesCondCode]

/-- What an operation can raise is an exception. -/
theorem Instr.none_not_mem_mayRaise (i : Instr) : Machine.InterruptionCode.none ∉ i.mayRaise := by
  cases i <;> simp [Instr.mayRaise]

end Sys2Proof

namespace Sys2Proof.Machine

variable {s t : State} {a1 a2 : Addr} {l1 : Len1} {reg : Word} {cc : CondCode} {e e' : EditState} {j k n : Nat}

/-! ## What a meaning answers -/

/-- CP sets no overflow code (R74). -/
theorem ccCompare_ne_three (v1 v2 : Int) : ccCompare v1 v2 ≠ 3 := by
  unfold ccCompare
  (repeat' split) <;> decide

/-- EDMK sets no overflow code (R89). -/
theorem ccEdit_ne_three (fz sig : Bool) : ccEdit fz sig ≠ 3 := by
  revert fz sig; decide

/-- The responses an instruction can answer with, by how its request ends (R20 to R24, R100). -/
inductive Answers : Instr → Response → Prop
  /-- An exception that carries no value. -/
  | raised {i : Instr} {ic : InterruptionCode} (code : ic ∈ i.mayRaise) (noReg : i.isEdmk = false)
      (cvbData : i.isCvb = true → ic = .data) : Answers i ⟨ic, i.ccIn, none, none⟩
  /-- A completion with the request's condition code. -/
  | passed {i : Instr} (passes : i.passesCondCode = true) (noVal : i.isCvb = false) :
      Answers i ⟨.none, i.ccIn, none, none⟩
  /-- A completion whose condition code may say overflow. -/
  | computed {i : Instr} (cc : CondCode) (overflows : i.canOverflow = true) : Answers i ⟨.none, cc, none, none⟩
  /-- CP's completion. -/
  | compared {a1 : Addr} {l1 : Len1} {a2 : Addr} {l2 : Len2} {cc : CondCode} (v1 v2 : Int) :
      Answers (.cp a1 l1 a2 l2 cc) ⟨.none, ccCompare v1 v2, none, none⟩
  /-- CVB with a value, FIXED_POINT_DIVIDE included (R104). -/
  | converted {a2 : Addr} {cc : CondCode} {ic : InterruptionCode} (v : Word)
      (code : ic = .none ∨ ic = .fixedPointDivide) : Answers (.cvb a2 cc) ⟨ic, cc, none, some v⟩
  /-- EDMK's completion (R89). -/
  | edited {a1 : Addr} {l1 : Len1} {a2 : Addr} {reg : Word} {cc : CondCode} (fz sig : Bool) (v : Word) :
      Answers (.edmk a1 l1 a2 reg cc) ⟨.none, ccEdit fz sig, some v, none⟩
  /-- EDMK's DATA, which carries the register (R90). -/
  | editStopped {a1 : Addr} {l1 : Len1} {a2 : Addr} {reg : Word} {cc : CondCode} (v : Word) :
      Answers (.edmk a1 l1 a2 reg cc) ⟨.data, cc, some v, none⟩

/-- Every meaning answers one of those responses. -/
theorem exec_answers {i : Instr} (h : exec i s = .next t) : ∃ r, t.response = some r ∧ Answers i r := by
  cases i with
  | ap a1 l1 a2 l2 cc =>
    rcases execAp_next h with rfl | ⟨_, rfl⟩
    · exact ⟨_, rfl, .raised (by simp [Instr.mayRaise]) rfl nofun⟩
    · exact ⟨_, rfl, .computed _ rfl⟩
  | sp a1 l1 a2 l2 cc =>
    rcases execSp_next h with rfl | ⟨_, rfl⟩
    · exact ⟨_, rfl, .raised (by simp [Instr.mayRaise]) rfl nofun⟩
    · exact ⟨_, rfl, .computed _ rfl⟩
  | cp a1 l1 a2 l2 cc =>
    rcases execCp_next h with rfl | ⟨v1, v2, rfl⟩
    · exact ⟨_, rfl, .raised (by simp [Instr.mayRaise]) rfl nofun⟩
    · exact ⟨_, rfl, .compared v1 v2⟩
  | zap a1 l1 a2 l2 cc =>
    rcases execZap_next h with rfl | ⟨_, rfl⟩
    · exact ⟨_, rfl, .raised (by simp [Instr.mayRaise]) rfl nofun⟩
    · exact ⟨_, rfl, .computed _ rfl⟩
  | mp a1 l1 a2 l2 cc =>
    rcases execMp_next h with rfl | rfl | ⟨_, rfl⟩
    · exact ⟨_, rfl, .raised (by simp [Instr.mayRaise]) rfl nofun⟩
    · exact ⟨_, rfl, .raised (by simp [Instr.mayRaise]) rfl nofun⟩
    · exact ⟨_, rfl, .passed rfl rfl⟩
  | dp a1 l1 a2 l2 cc =>
    rcases execDp_next h with rfl | rfl | rfl | ⟨_, _, _, rfl⟩
    · exact ⟨_, rfl, .raised (by simp [Instr.mayRaise]) rfl nofun⟩
    · exact ⟨_, rfl, .raised (by simp [Instr.mayRaise]) rfl nofun⟩
    · exact ⟨_, rfl, .raised (by simp [Instr.mayRaise]) rfl nofun⟩
    · exact ⟨_, rfl, .passed rfl rfl⟩
  | edmk a1 l1 a2 reg cc =>
    rcases execEdmk_next h with ⟨e, _, rfl⟩ | ⟨e, _, rfl⟩
    · exact ⟨_, rfl, .edited e.fz e.sig e.reg⟩
    · exact ⟨_, rfl, .editStopped e.reg⟩
  | srp a1 l1 sh i3 cc =>
    rcases execSrp_next h with rfl | ⟨_, _, _, _, rfl⟩
    · exact ⟨_, rfl, .raised (by simp [Instr.mayRaise]) rfl nofun⟩
    · exact ⟨_, rfl, .computed _ rfl⟩
  | cvb a2 cc =>
    rcases execCvb_next h with rfl | ⟨_, v, hic, rfl⟩
    · exact ⟨_, rfl, .raised (by simp [Instr.mayRaise]) rfl fun _ => rfl⟩
    · exact ⟨_, rfl, .converted v hic⟩
  | cvd => exact ⟨_, congrArg State.response (execCvd_next h), .passed rfl rfl⟩
  | mvo => exact ⟨_, congrArg State.response (execMvo_next h), .passed rfl rfl⟩
  | pack => exact ⟨_, congrArg State.response (execPack_next h), .passed rfl rfl⟩
  | unpk => exact ⟨_, congrArg State.response (execUnpk_next h), .passed rfl rfl⟩

/-- The response of a next state is one of those. -/
theorem answers_of_response {i : Instr} {r : Response} (h : exec i s = .next t) (hr : t.response = some r) :
    Answers i r := by
  obtain ⟨r', hr', ha⟩ := exec_answers h
  obtain rfl : r' = r := Option.some.inj (hr'.symm.trans hr)
  exact ha

/-- A register value is answered by EDMK only, and always (R22, R24). -/
theorem Answers.regOut_isSome {i : Instr} {r : Response} (h : Answers i r) :
    r.regOut.isSome = true ↔ i.isEdmk = true := by
  cases h with
  | raised _ noReg => simp [noReg]
  | passed passes => simp [Instr.isEdmk_of_passesCondCode passes]
  | computed _ overflows => simp [(Instr.plain_of_canOverflow overflows).1]
  | compared | converted => simp [Instr.isEdmk]
  | edited | editStopped => simp [Instr.isEdmk]

/-- A binary value is answered by CVB only, and by it unless it raised DATA (R23, R24). -/
theorem Answers.valOut_isSome {i : Instr} {r : Response} (h : Answers i r) :
    r.valOut.isSome = true ↔ i.isCvb = true ∧ r.ic ≠ .data := by
  cases h with
  | raised _ _ cvbData => simpa using cvbData
  | passed _ noVal => simp [noVal]
  | computed _ overflows => simp [(Instr.plain_of_canOverflow overflows).2.1]
  | converted _ code => rcases code with rfl | rfl <;> simp [Instr.isCvb]
  | compared | edited | editStopped => simp [Instr.isCvb]

/-- An operation that passes the condition code through answers the request's (R20). -/
theorem Answers.cc_of_passes {i : Instr} {r : Response} (h : Answers i r) (hp : i.passesCondCode = true) :
    r.cc = i.ccIn := by
  cases h with
  | raised | passed | converted | editStopped => rfl
  | computed _ overflows => simp [(Instr.plain_of_canOverflow overflows).2.2] at hp
  | compared | edited => cases hp

/-- A completion with condition code 3 passed it through or reports overflow (R20). -/
theorem Answers.passes_or_overflows {i : Instr} {r : Response} (h : Answers i r) (hic : r.ic = .none)
    (hcc : r.cc = 3) : i.passesCondCode = true ∨ i.canOverflow = true := by
  cases h with
  | raised code => exact absurd (hic ▸ code) i.none_not_mem_mayRaise
  | passed passes => exact Or.inl passes
  | computed _ overflows => exact Or.inr overflows
  | compared v1 v2 => exact absurd hcc (ccCompare_ne_three v1 v2)
  | converted => exact Or.inl rfl
  | edited fz sig => exact absurd hcc (ccEdit_ne_three fz sig)
  | editStopped => cases hic

/-! ## EDMK as a scan -/

/-- Inside the interface EDMK is its scan from the start of R27. -/
theorem exec_edmk_of_inside (h : (Instr.edmk a1 l1 a2 reg cc).InsideInterface s.cfg) :
    exec (.edmk a1 l1 a2 reg cc) s =
      editResult s cc (editLoop s.cfg reg a1.toNat l1.toNat (editStart s.mem a1.toNat a2.toNat reg)) := by
  have hr : refusalEdit s a1 l1 a2 = none := (refusalBefore_eq_none (.edmk a1 l1 a2 reg cc) s).2 h
  rw [exec, execEdmk, hr, unlessRefused_none]

/-- An EDMK that answers has a scan that ended in some state, and answers its register (R22, R89, R90). -/
theorem exec_edmk_regOut (h : exec (.edmk a1 l1 a2 reg cc) s = .next t) :
    ∃ e r, (editLoop s.cfg reg a1.toNat l1.toNat (editStart s.mem a1.toNat a2.toNat reg)).state? = some e ∧
      t.response = some r ∧ r.regOut = some e.reg := by
  rcases execEdmk_next h with ⟨e, he, rfl⟩ | ⟨e, he, rfl⟩
  · exact ⟨e, _, congrArg EditEnd.state? he, rfl, rfl⟩
  · exact ⟨e, _, congrArg EditEnd.state? he, rfl, rfl⟩

/-- A mark keeps bits 31:24 of REG_IN (R22). -/
theorem markReg_high (reg : Word) (a k : Nat) : (markReg reg a k).extractLsb' 24 8 = reg.extractLsb' 24 8 :=
  BitVec.extractLsb'_append_eq_left

/-- A mark holds the address of its pattern byte in bits 23:0 (R22, R88). -/
theorem markReg_low (reg : Word) (a k : Nat) : (markReg reg a k).extractLsb' 0 24 = BitVec.ofNat 24 (a + k) :=
  BitVec.extractLsb'_append_eq_right

/-- A mark as a number. -/
theorem markReg_toNat (reg : Word) (a k : Nat) :
    (markReg reg a k).toNat = reg.toNat / 2 ^ 24 * 2 ^ 24 + (a + k) % 2 ^ 24 := by
  have hhigh : reg.toNat / 2 ^ 24 < 2 ^ 8 := Nat.div_lt_of_lt_mul reg.isLt
  rw [markReg, BitVec.toNat_append, ← Nat.shiftLeft_add_eq_or_of_lt (BitVec.isLt _), Nat.shiftLeft_eq,
    BitVec.extractLsb'_toNat, Nat.shiftRight_eq_div_pow, Nat.mod_eq_of_lt hhigh, BitVec.toNat_ofNat]

/-! ## The states a scan reaches -/

/-- What every pattern byte keeps holds where a scan ends. -/
theorem editLoop_preserves {cfg : Config} {a : Nat} {P : EditState → Prop}
    (step : ∀ e e', P e → editByte cfg reg a e = .more e' → P e') (h0 : P e)
    (h : editLoop cfg reg a n e = .done e') : P e' := by
  induction n generalizing e with
  | zero =>
    obtain rfl : e = e' := EditEnd.done.inj h
    exact h0
  | succ n ih =>
    unfold editLoop at h
    split at h
    · exact ih (step _ _ h0 ‹_›) h
    · cases h
    · cases h

theorem scanReaches_start : ScanReaches s a1 a2 reg (editStart s.mem a1.toNat a2.toNat reg) := rfl

/-- A scan goes on to where its next pattern byte leaves it. -/
theorem scanReaches_step (hr : ScanReaches s a1 a2 reg e) (h : editByte s.cfg reg a1.toNat e = .more e') :
    ScanReaches s a1 a2 reg e' := by
  obtain ⟨_, hk, _⟩ := editByte_more h
  rw [ScanReaches, hk, editLoop_add hr, editLoop, h]
  rfl

/-- A scan passes through one state at each pattern byte. -/
theorem scanReaches_unique (hr : ScanReaches s a1 a2 reg e) (hr' : ScanReaches s a1 a2 reg e') (hk : e.k = e'.k) :
    e = e' := by
  rw [ScanReaches, hk] at hr
  exact EditEnd.done.inj (hr.symm.trans hr')

/-- What the start has and every pattern byte keeps holds wherever a scan comes. -/
theorem scanReaches_induction {P : EditState → Prop} (start : P (editStart s.mem a1.toNat a2.toNat reg))
    (step : ∀ e e', ScanReaches s a1 a2 reg e → P e → editByte s.cfg reg a1.toNat e = .more e' → P e')
    (hr : ScanReaches s a1 a2 reg e) : P e := by
  have both : ScanReaches s a1 a2 reg e ∧ P e :=
    editLoop_preserves (P := fun e => ScanReaches s a1 a2 reg e ∧ P e)
      (fun e e' he h => ⟨scanReaches_step he.1 h, step e e' he.1 he.2 h⟩) ⟨scanReaches_start, start⟩ hr
  exact both.2

/-- A mark event at the pattern byte a scan stands at is one of the state it stands in (R88). -/
theorem markEventAt_iff (hr : ScanReaches s a1 a2 reg e) :
    MarkEventAt s a1 l1 a2 reg e.k ↔ e.k < l1.toNat ∧ MarksHere s.cfg.memSize a1.toNat e := by
  rw [MarkEventAt, MarksHere, scanReaches_selectorAt hr]
  refine and_congr_right fun _ => and_congr_right fun _ => ⟨?_, ?_⟩
  · rintro ⟨e', x, hk, hr', hsig, hx⟩
    obtain rfl := scanReaches_unique hr' hr hk
    exact ⟨hsig, x, hx⟩
  · rintro ⟨hsig, x, hx⟩
    exact ⟨e, x, rfl, hr, hsig, hx⟩

/-- At a mark event a scan goes on (R84). -/
theorem scanReaches_of_markEventAt (hm : MarkEventAt s a1 l1 a2 reg k) :
    ∃ e, ScanReaches s a1 a2 reg e ∧ e.k = k + 1 := by
  obtain ⟨_, hsel, e, x, rfl, hr, _, hx, _⟩ := hm
  obtain ⟨starter, he⟩ := editByte_selector (cfg := s.cfg) (regIn := reg) ((scanReaches_selectorAt hr).1 hsel)
  rw [editSelector, hx] at he
  exact ⟨_, scanReaches_step hr he, (editByte_more he).2.1⟩

/-- A scan stopped by DATA comes to no byte after the one it stopped at (R90). -/
theorem scanReaches_le_of_badDigit (hr : ScanReaches s a1 a2 reg e)
    (hbad : editByte s.cfg reg a1.toNat e = .badDigit) (hr' : ScanReaches s a1 a2 reg e') : e'.k ≤ e.k := by
  by_contra hlt
  obtain ⟨m, hm⟩ : ∃ m, e'.k = e.k + (m + 1) := ⟨e'.k - e.k - 1, by omega⟩
  rw [ScanReaches, hm, editLoop_add hr, editLoop, hbad] at hr'
  cases hr'

/-- Where an answered scan ends: a state it reaches, with every mark event behind it. -/
theorem scanReaches_of_end
    (h : (editLoop s.cfg reg a1.toNat l1.toNat (editStart s.mem a1.toNat a2.toNat reg)).state? = some e) :
    ScanReaches s a1 a2 reg e ∧ e.k ≤ l1.toNat ∧ ∀ k, MarkEventAt s a1 l1 a2 reg k → k < e.k := by
  cases hend : editLoop s.cfg reg a1.toNat l1.toNat (editStart s.mem a1.toNat a2.toNat reg) with
  | outside => rw [hend] at h; cases h
  | done e' =>
    rw [hend] at h
    obtain rfl : e' = e := Option.some.inj h
    have hk : e'.k = l1.toNat := by simpa [editStart] using editLoop_done_k hend
    exact ⟨by rw [ScanReaches, hk, hend], le_of_eq hk, fun k hm => hk ▸ hm.1⟩
  | data e' =>
    rw [hend] at h
    obtain rfl : e' = e := Option.some.inj h
    obtain ⟨hk, hr, hbad⟩ := editLoop_data hend
    simp only [editStart, Nat.zero_add, Nat.sub_zero] at hk hr
    refine ⟨hr, le_of_lt hk, fun k hm => ?_⟩
    obtain ⟨e₁, hr₁, hk₁⟩ := scanReaches_of_markEventAt hm
    have := scanReaches_le_of_badDigit hr hbad hr₁
    omega

/-! ## The register of a whole edit

Under both policies the register holds a recorded mark event: one that no earlier mark event keeps from being recorded,
and that keeps every later one from it. -/

/-- A mark recorded at pattern byte j does not keep one at byte k from being recorded: every start is recorded, or a
separator between the two ends the field of j (R86, R88). -/
def Renewed (s : State) (a1 : Addr) (j k : Nat) : Prop :=
  s.cfg.markPolicy = .everyStart ∨ ∃ f, j < f ∧ f < k ∧ s.mem.read (a1.toNat + f) = 0x22

theorem renewed_succ_self : Renewed s a1 k (k + 1) ↔ s.cfg.markPolicy = .everyStart := by
  refine or_iff_left ?_
  rintro ⟨f, hlt, hlt', _⟩
  omega

/-- One byte more renews the mark where it is a separator. -/
theorem renewed_succ (h : j < k) :
    Renewed s a1 j (k + 1) ↔ Renewed s a1 j k ∨ s.mem.read (a1.toNat + k) = 0x22 := by
  rw [Renewed, Renewed, or_assoc]
  refine or_congr_right ⟨?_, ?_⟩
  · rintro ⟨f, hj, hf, hsep⟩
    rcases Nat.lt_succ_iff_lt_or_eq.1 hf with hf | rfl
    · exact Or.inl ⟨f, hj, hf, hsep⟩
    · exact Or.inr hsep
  · rintro (⟨f, hj, hf, hsep⟩ | hsep)
    · exact ⟨f, hj, Nat.lt_succ_of_lt hf, hsep⟩
    · exact ⟨k, h, Nat.lt_succ_self k, hsep⟩

/-- A byte with a mark event is a selector, so no separator (R80). -/
theorem ne_separator_of_markEventAt (h : MarkEventAt s a1 l1 a2 reg k) : s.mem.read (a1.toNat + k) ≠ 0x22 := by
  obtain ⟨_, hsel | hsel, _⟩ := h <;> rw [hsel] <;> decide

/-- Of the mark events before byte n, the one at j is recorded last (R88). -/
structure RecordedLast (s : State) (a1 : Addr) (l1 : Len1) (a2 : Addr) (reg : Word) (n j : Nat) : Prop where
  below : j < n
  mark : MarkEventAt s a1 l1 a2 reg j
  recorded : ∀ i < j, MarkEventAt s a1 l1 a2 reg i → Renewed s a1 i j
  last : ∀ i, j < i → i < n → MarkEventAt s a1 l1 a2 reg i → ¬ Renewed s a1 j i

theorem RecordedLast.unique (h : RecordedLast s a1 l1 a2 reg n j) (h' : RecordedLast s a1 l1 a2 reg n k) : j = k := by
  rcases Nat.lt_trichotomy j k with hlt | heq | hlt
  · exact absurd (h'.recorded j hlt h.mark) (h.last k hlt h'.below h'.mark)
  · exact heq
  · exact absurd (h.recorded k hlt h'.mark) (h'.last j hlt h.below h.mark)

/-- One byte more, with no mark event to record, leaves the last recorded one. -/
theorem RecordedLast.succ (h : RecordedLast s a1 l1 a2 reg n j)
    (hn : MarkEventAt s a1 l1 a2 reg n → ¬ Renewed s a1 j n) : RecordedLast s a1 l1 a2 reg (n + 1) j where
  below := Nat.lt_succ_of_lt h.below
  mark := h.mark
  recorded := h.recorded
  last i hj hi hm := by
    rcases Nat.lt_succ_iff_lt_or_eq.1 hi with hi | rfl
    · exact h.last i hj hi hm
    · exact hn hm

/-- Where the last recorded mark is renewed, so is every mark event before. -/
theorem RecordedLast.renewed (h : RecordedLast s a1 l1 a2 reg n j) (hn : Renewed s a1 j n) {i : Nat} (hi : i < n)
    (hm : MarkEventAt s a1 l1 a2 reg i) : Renewed s a1 i n := by
  refine hn.imp_right ?_
  rintro ⟨f, hj, hf, hsep⟩
  refine ⟨f, ?_, hf, hsep⟩
  rcases Nat.lt_trichotomy i f with hlt | rfl | hlt
  · exact hlt
  · exact absurd hsep (ne_separator_of_markEventAt hm)
  · exact absurd (Or.inr ⟨f, hj, hlt, hsep⟩) (h.last i (hj.trans hlt) hi hm)

/-- A mark event at the state would be recorded (R88). -/
def Recording (s : State) (e : EditState) : Prop := s.cfg.markPolicy = .everyStart ∨ e.armed = true

/-- A mark event takes the register where it is recorded, and leaves recording on under EVERY_START only (R88). -/
theorem editByte_of_mark (h : editByte s.cfg reg a1.toNat e = .more e') (hm : MarksHere s.cfg.memSize a1.toNat e) :
    (Recording s e → e'.reg = markReg reg a1.toNat e.k) ∧ (¬ Recording s e → e'.reg = e.reg) ∧
      (Recording s e' ↔ s.cfg.markPolicy = .everyStart) := by
  obtain ⟨hreg, harmed⟩ := (editByte_mark h).1 hm
  refine ⟨fun hrec => hreg.trans (if_pos hrec), fun hrec => hreg.trans (if_neg hrec), ?_⟩
  rw [Recording, harmed]
  cases s.cfg.markPolicy <;> simp

/-- A byte without a mark event leaves the register, and turns recording on where it is a separator (R86). -/
theorem editByte_of_not_mark (h : editByte s.cfg reg a1.toNat e = .more e')
    (hm : ¬ MarksHere s.cfg.memSize a1.toNat e) :
    e'.reg = e.reg ∧ (Recording s e' ↔ Recording s e ∨ e.mem.read (a1.toNat + e.k) = 0x22) := by
  obtain ⟨hreg, harmed⟩ := (editByte_mark h).2 hm
  refine ⟨hreg, ?_⟩
  rw [Recording, Recording, harmed, Bool.or_eq_true, beq_iff_eq, or_assoc]

/-- What the register holds at a state of the scan, and whether the next mark event is recorded. -/
inductive RegisterTracks (s : State) (a1 : Addr) (l1 : Len1) (a2 : Addr) (reg : Word) (e : EditState) : Prop
  /-- No mark event yet: REG_IN, and the first one will be recorded. -/
  | unmarked (hreg : e.reg = reg) (hrec : Recording s e) (hnone : ∀ i < e.k, ¬ MarkEventAt s a1 l1 a2 reg i)
  /-- The last recorded mark event. -/
  | marked (j : Nat) (hreg : e.reg = markReg reg a1.toNat j) (hlast : RecordedLast s a1 l1 a2 reg e.k j)
      (hrec : Recording s e ↔ Renewed s a1 j e.k)

theorem registerTracks_start : RegisterTracks s a1 l1 a2 reg (editStart s.mem a1.toNat a2.toNat reg) :=
  .unmarked rfl (Or.inr rfl) nofun

/-- A recorded mark event is the last one recorded. -/
theorem RegisterTracks.recordedLast (ht : RegisterTracks s a1 l1 a2 reg e) (hrec : Recording s e)
    (hm : MarkEventAt s a1 l1 a2 reg e.k) : RecordedLast s a1 l1 a2 reg (e.k + 1) e.k where
  below := Nat.lt_succ_self _
  mark := hm
  recorded i hi hmi := by
    cases ht with
    | unmarked _ _ hnone => exact absurd hmi (hnone i hi)
    | marked j _ hlast hrec' => exact hlast.renewed (hrec'.1 hrec) hi hmi
  last i hi hi' := by omega

/-- A byte with a mark event leaves the register on the last recorded one, itself or the one before. -/
theorem registerTracks_of_mark (hk : e'.k = e.k + 1) (h : editByte s.cfg reg a1.toNat e = .more e')
    (hm : MarksHere s.cfg.memSize a1.toNat e) (hme : MarkEventAt s a1 l1 a2 reg e.k)
    (ht : RegisterTracks s a1 l1 a2 reg e) : RegisterTracks s a1 l1 a2 reg e' := by
  obtain ⟨htaken, hkept, hrec'⟩ := editByte_of_mark h hm
  by_cases hrec : Recording s e
  · refine .marked e.k (htaken hrec) (hk ▸ ht.recordedLast hrec hme) ?_
    rw [hk, renewed_succ_self, hrec']
  · cases ht with
    | unmarked _ hrec₀ => exact absurd hrec₀ hrec
    | marked j hreg hlast hrec₀ =>
      have hren : ¬ Renewed s a1 j e.k := fun hren => hrec (hrec₀.2 hren)
      refine .marked j ((hkept hrec).trans hreg) (hk ▸ hlast.succ fun _ => hren) ?_
      rw [hk, renewed_succ hlast.below, hrec']
      exact iff_of_false (fun hpol => hren (Or.inl hpol)) (not_or.2 ⟨hren, ne_separator_of_markEventAt hme⟩)

/-- A byte without a mark event leaves the register on the last recorded one. -/
theorem registerTracks_of_not_mark (hr : ScanReaches s a1 a2 reg e) (hk : e'.k = e.k + 1)
    (h : editByte s.cfg reg a1.toNat e = .more e') (hm : ¬ MarksHere s.cfg.memSize a1.toNat e)
    (ht : RegisterTracks s a1 l1 a2 reg e) : RegisterTracks s a1 l1 a2 reg e' := by
  have hme : ¬ MarkEventAt s a1 l1 a2 reg e.k := fun hme => hm ((markEventAt_iff hr).1 hme).2
  obtain ⟨hreg', hrec'⟩ := editByte_of_not_mark h hm
  rw [scanReaches_frame hr (le_refl _)] at hrec'
  cases ht with
  | unmarked hreg hrec hnone =>
    refine .unmarked (hreg'.trans hreg) (hrec'.2 (Or.inl hrec)) fun i hi => ?_
    rw [hk] at hi
    rcases Nat.lt_succ_iff_lt_or_eq.1 hi with hi | rfl
    · exact hnone i hi
    · exact hme
  | marked j hreg hlast hrec =>
    refine .marked j (hreg'.trans hreg) (hk ▸ hlast.succ fun h => absurd h hme) ?_
    rw [hk, renewed_succ hlast.below, hrec', hrec]

/-- The register holds the last recorded mark event wherever a scan comes inside the pattern. -/
theorem registerTracks_of_scanReaches (hr : ScanReaches s a1 a2 reg e) (hle : e.k ≤ l1.toNat) :
    RegisterTracks s a1 l1 a2 reg e := by
  refine scanReaches_induction (P := fun e => e.k ≤ l1.toNat → RegisterTracks s a1 l1 a2 reg e)
    (fun _ => registerTracks_start) (fun e e' hr ih h hle' => ?_) hr hle
  have hk : e'.k = e.k + 1 := (editByte_more h).2.1
  have ht := ih (by omega)
  by_cases hm : MarksHere s.cfg.memSize a1.toNat e
  · exact registerTracks_of_mark hk h hm ((markEventAt_iff hr).2 ⟨by omega, hm⟩) ht
  · exact registerTracks_of_not_mark hr hk h hm ht

/-- With no mark event the register is REG_IN. -/
theorem RegisterTracks.reg_of_none (ht : RegisterTracks s a1 l1 a2 reg e)
    (hnone : ∀ k, ¬ MarkEventAt s a1 l1 a2 reg k) : e.reg = reg := by
  cases ht with
  | unmarked hreg => exact hreg
  | marked j _ hlast => exact absurd hlast.mark (hnone j)

/-- With a last recorded mark event the register holds its address. -/
theorem RegisterTracks.reg_of_recordedLast (ht : RegisterTracks s a1 l1 a2 reg e)
    (hlast : RecordedLast s a1 l1 a2 reg e.k k) : e.reg = markReg reg a1.toNat k := by
  cases ht with
  | unmarked _ _ hnone => exact absurd hlast.mark (hnone k hlast.below)
  | marked j hreg hlast' => rw [hreg, hlast'.unique hlast]

end Sys2Proof.Machine

namespace Sys2Proof

open Machine

/-- Settles O58: the scan keeps the register on the last recorded mark event, and each policy's wording singles out that
event. -/
theorem editRegisterPerPolicy : Obligations.EditRegisterPerPolicy := by
  intro a1 l1 a2 reg cc s t marks separator h
  obtain ⟨e, r, hend, hresp, hreg⟩ := exec_edmk_regOut h
  obtain ⟨hreach, hle, hbehind⟩ := scanReaches_of_end hend
  have htracks : RegisterTracks s a1 l1 a2 reg e := registerTracks_of_scanReaches hreach hle
  have hvalue {k : Nat} (hlast : RecordedLast s a1 l1 a2 reg e.k k) :
      e.reg.toNat = reg.toNat / 2 ^ 24 * 2 ^ 24 + (a1.toNat + k) % 2 ^ 24 := by
    rw [htracks.reg_of_recordedLast hlast, markReg_toNat]
  refine ⟨r, e.reg, hresp, hreg, htracks.reg_of_none, fun hpol k hm hlater => ?_, fun hpol k hm hfirst hfield => ?_⟩
  · exact hvalue ⟨hbehind k hm, hm, fun _ _ _ => Or.inl hpol, fun i hi _ hmi => absurd hmi (hlater i hi)⟩
  · refine hvalue ⟨hbehind k hm, hm, fun i hi hmi => Or.inr (hfirst i hi hmi), fun i hi _ hmi => ?_⟩
    rintro (hpol' | hsep)
    · rw [hpol] at hpol'
      cases hpol'
    · exact hfield i hi hmi hsep

/-- Settles O50: the register a scan ends with is REG_IN or the mark of a byte it has done. -/
theorem editRegisterKeepsTheHighByte : Obligations.EditRegisterKeepsTheHighByte := by
  intro a1 l1 a2 reg cc s t h
  obtain ⟨e, r, hend, hresp, hreg⟩ := exec_edmk_regOut h
  obtain ⟨_, _, hk, _, hor⟩ := editLoop_spec hend
  refine ⟨r, e.reg, hresp, hreg, ?_⟩
  rcases hor with hor | ⟨k, _, hlt, hor⟩
  · exact ⟨congrArg _ hor, Or.inl hor⟩
  · rw [hor]
    refine ⟨markReg_high _ _ _, Or.inr ⟨k, ?_, markReg_low _ _ _⟩⟩
    simp only [editStart] at hk
    omega

/-- Settles O12: every meaning ends in a new memory and a response, and touches only the window it writes. -/
theorem writesStayInTheWindow : Obligations.WritesStayInTheWindow := by
  intro i s t h
  obtain ⟨hnone, hsome⟩ := exec_touches h
  obtain ⟨m, r, rfl⟩ := exec_next h
  refine ⟨rfl, rfl, hnone, fun a ha => ?_⟩
  cases hw : i.writes with
  | none => rw [hnone hw]
  | some w => exact (hsome w hw).frame a (ha w hw)

/-- Settles O17, by the kinds of response. -/
theorem undefinedOutputsAreAbsent : Obligations.UndefinedOutputsAreAbsent := by
  intro i s t r h hr
  have hans : Answers i r := answers_of_response h hr
  exact ⟨hans.regOut_isSome, hans.valOut_isSome⟩

/-- Settles O18, by the kinds of response. -/
theorem conditionCodesPerOperation : Obligations.ConditionCodesPerOperation := by
  intro i s t r h hr
  have hans : Answers i r := answers_of_response h hr
  exact ⟨hans.cc_of_passes, fun hic hcc => (hans.passes_or_overflows hic hcc).imp_right Instr.canOverflow_iff.1⟩

/-- Settles O55: inside the interface nothing is refused before the scan, and its end is answered as R89 and R90 say. -/
theorem editStartsFresh : Obligations.EditStartsFresh := by
  intro a1 l1 a2 reg cc s hin start scan
  have hexec : exec (.edmk a1 l1 a2 reg cc) s = editResult s cc scan := exec_edmk_of_inside hin
  exact ⟨fun e hend => hexec.trans (congrArg (editResult s cc) hend),
    fun e hend => hexec.trans (congrArg (editResult s cc) hend),
    fun hend => hexec.trans (congrArg (editResult s cc) hend)⟩

end Sys2Proof
end

section
/-! The statements about which requests are answered and which are refused (R33, R42, R48, R109), and about the ends of
EDMK's scan (R83, R89 to R91). -/

namespace Sys2Proof.Machine

variable {s : State} {a1 a2 : Addr} {l1 : Len1} {l2 : Len2} {reg : Word} {cc : CondCode}

/-! ## Requests that are answered -/

/-- The request gets a response. -/
def Responds (x : Result) : Prop := ∃ t, x = .next t

theorem respond_responds (m : Memory) (r : Response) : Responds (.next (s.respond m r)) := ⟨_, rfl⟩

theorem raise_responds (ic : InterruptionCode) : Responds (raise s ic cc) := respond_responds _ _

theorem complete_responds (m : Memory) : Responds (complete s m cc) := respond_responds _ _

theorem ite_responds {c : Prop} [Decidable c] {x y : Result} (hx : Responds x) (hy : Responds y) :
    Responds (if c then x else y) := by
  split
  · exact hx
  · exact hy

theorem unlessRefused_responds {r : Option Refusal} {k : Result} (hr : r = none) (hk : Responds k) :
    Responds (unlessRefused r k) := by
  subst hr
  exact hk

theorem withDecoded_responds {k : Int → Int → Result} (hk : ∀ v1 v2, Responds (k v1 v2)) :
    Responds (withDecoded s cc a1 l1 a2 l2 k) := by
  unfold withDecoded
  split
  · exact raise_responds _
  · split
    · exact raise_responds _
    · exact hk _ _

theorem editResult_responds {x : EditEnd} (hx : x ≠ .outside) : Responds (editResult s cc x) := by
  cases x with
  | done e => exact respond_responds _ _
  | data e => exact respond_responds _ _
  | outside => exact absurd rfl hx

/-- An edit is refused for its window exactly when its scan leaves the buffer (assumption log 10). -/
theorem editResult_eq_refused_iff {x : EditEnd} :
    editResult s cc x = .refused .windowOutsideBuffer ↔ x = .outside := by
  cases x <;> simp [editResult, raiseWith]

/-- Inside the interface every meaning answers, but an edit whose scan leaves the buffer (R109, R124). -/
theorem exec_responds {i : Instr} (hin : i.InsideInterface s.cfg)
    (hscan : ∀ a1 l1 a2 reg cc, i = .edmk a1 l1 a2 reg cc →
      editLoop s.cfg reg a1.toNat l1.toNat (editStart s.mem a1.toNat a2.toNat reg) ≠ .outside) :
    Responds (exec i s) := by
  have hr := (refusalBefore_eq_none i s).2 hin
  cases i with
  | ap | sp | cp | zap =>
    exact unlessRefused_responds hr <| withDecoded_responds fun _ _ => complete_responds _
  | mp =>
    exact unlessRefused_responds hr <| ite_responds (raise_responds _) <| ite_responds (raise_responds _) <|
      withDecoded_responds fun _ _ => complete_responds _
  | dp =>
    exact unlessRefused_responds hr <| ite_responds (raise_responds _) <| withDecoded_responds fun _ _ =>
      ite_responds (raise_responds _) <| ite_responds (raise_responds _) (complete_responds _)
  | edmk => exact unlessRefused_responds hr (editResult_responds (hscan _ _ _ _ _ rfl))
  | srp =>
    refine unlessRefused_responds hr <| ite_responds (raise_responds _) <| ite_responds (raise_responds _) ?_
    exact ite_responds (complete_responds _) <| ite_responds (complete_responds _) <|
      ite_responds (complete_responds _) (complete_responds _)
  | cvb =>
    refine unlessRefused_responds hr ?_
    split
    · exact raise_responds _
    · exact ite_responds (respond_responds _ _) (respond_responds _ _)
  | cvd | mvo | pack | unpk => exact unlessRefused_responds hr (complete_responds _)

/-- A request that gets a response keeps the parameters and the port. -/
theorem Responds.response {i : Instr} (h : Responds (exec i s)) :
    ∃ t r, exec i s = .next t ∧ t.response = some r ∧ t.cfg = s.cfg ∧ t.request = s.request := by
  obtain ⟨t, ht⟩ := h
  obtain ⟨m, r, rfl⟩ := exec_next ht
  exact ⟨_, r, ht, rfl, rfl, rfl⟩

/-! ## The end of an edit's scan -/

/-- Inside the interface EDMK is refused for its window exactly when its scan leaves the buffer (assumption log 10). -/
theorem exec_edmk_eq_refused_iff (hin : (Instr.edmk a1 l1 a2 reg cc).InsideInterface s.cfg) :
    exec (.edmk a1 l1 a2 reg cc) s = .refused .windowOutsideBuffer ↔
      editLoop s.cfg reg a1.toNat l1.toNat (editStart s.mem a1.toNat a2.toNat reg) = .outside := by
  rw [exec_edmk_of_inside hin, editResult_eq_refused_iff]

/-- The fixed windows of an EDMK inside the interface: its pattern, and its source with no byte consumed (R33). -/
theorem edmk_windows_fit (hin : (Instr.edmk a1 l1 a2 reg cc).InsideInterface s.cfg) :
    a1.toNat + l1.toNat ≤ s.cfg.memSize ∧ a2.toNat ≤ s.cfg.memSize := by
  have hfit := hin.windows
  simp only [Instr.fixedWindows, windowOf, List.forall_mem_cons] at hfit
  exact ⟨hfit.1, hfit.2.1⟩

/-- The whole scan, where the source bytes it consumes hold digits and lie outside the pattern so far as they lie in the
buffer: it finishes when they all do, and leaves the buffer when they do not (R83). -/
theorem editLoop_start_consumes (hin : (Instr.edmk a1 l1 a2 reg cc).InsideInterface s.cfg)
    (hsrc : ∀ j < sourceBytes s.mem a2.toNat (selectorCount s.mem a1.toNat l1.toNat), a2.toNat + j < s.cfg.memSize →
      (s.mem.read (a2.toNat + j)).toNat / 16 ≤ 9 ∧ ¬ (windowOf a1 l1).holds (a2.toNat + j)) :
    (a2.toNat + sourceBytes s.mem a2.toNat (selectorCount s.mem a1.toNat l1.toNat) ≤ s.cfg.memSize →
        ∃ e, editLoop s.cfg reg a1.toNat l1.toNat (editStart s.mem a1.toNat a2.toNat reg) = .done e) ∧
      (s.cfg.memSize < a2.toNat + sourceBytes s.mem a2.toNat (selectorCount s.mem a1.toNat l1.toNat) →
        editLoop s.cfg reg a1.toNat l1.toNat (editStart s.mem a1.toNat a2.toNat reg) = .outside) := by
  obtain ⟨hpat, hsp⟩ := edmk_windows_fit hin
  exact editLoop_consumes (e := editStart s.mem a1.toNat a2.toNat reg) hsp nofun hpat hsrc

/-- Where the source starts at MEM_SIZE or beyond, a pattern with a selector is refused. -/
theorem exec_edmk_refused_of_selector (hsel : 1 ≤ selectorCount s.mem a1.toNat l1.toNat)
    (hsp : s.cfg.memSize ≤ a2.toNat) : ∃ why, exec (.edmk a1 l1 a2 reg cc) s = .refused why := by
  cases hr : refusalBefore s (.edmk a1 l1 a2 reg cc) with
  | some why => exact ⟨why, exec_of_refusalBefore hr⟩
  | none =>
    have hin := (refusalBefore_eq_none _ s).1 hr
    exact ⟨_, (exec_edmk_eq_refused_iff hin).2 (editLoop_outside rfl hsp hsel)⟩

/-- A request outside the interface is refused for its lengths, its windows or its overlap (R109). -/
theorem exec_refused_of_not_inside {i : Instr} (hout : ¬ i.InsideInterface s.cfg) :
    ∃ why, exec i s = .refused why ∧
      why ∈ [Refusal.lengthOutOfRange, Refusal.windowOutsideBuffer, Refusal.overlappingWindows] := by
  cases hr : refusalBefore s i with
  | none => exact absurd ((refusalBefore_eq_none i s).1 hr) hout
  | some why => exact ⟨why, exec_of_refusalBefore hr, by simpa using refusalBefore_some hr⟩

end Sys2Proof.Machine

namespace Sys2Proof

open Machine

/-- Settles O19: inside the interface only a scan that leaves the buffer is refused, and with room for a byte for each
selector none does. -/
theorem admissibleRequestsComplete : Obligations.AdmissibleRequestsComplete := by
  intro i s hadm
  refine (exec_responds hadm.toInsideInterface ?_).response
  rintro a1 l1 a2 reg cc rfl
  exact editLoop_not_outside (hadm.source _ rfl)

/-- Settles O20: the checks refuse what is outside the interface, and the scan refuses a source that leaves the buffer. -/
theorem requestsOutsideTheInterfaceAreRefused : Obligations.RequestsOutsideTheInterfaceAreRefused :=
  ⟨fun _ _ => exec_refused_of_not_inside, fun _ _ _ _ _ _ => exec_edmk_refused_of_selector,
    fun _ _ _ _ _ _ e hin hleaves => (exec_edmk_eq_refused_iff hin).2 (editLoop_eq_outside_iff.2 ⟨e, hleaves⟩)⟩

/-- Settles O57: EDMK is refused where its scan leaves the buffer, which it does where it comes to such a selector. -/
theorem editAnswersUnlessTheSourceLeaves : Obligations.EditAnswersUnlessTheSourceLeaves := by
  intro a1 l1 a2 reg cc s hin
  refine ⟨(exec_edmk_eq_refused_iff hin).trans editLoop_eq_outside_iff, fun hstays => (exec_responds hin ?_).response⟩
  rintro _ _ _ _ _ ⟨⟩ hout
  obtain ⟨e, hleaves⟩ := editLoop_eq_outside_iff.1 hout
  exact hstays e hleaves

/-- Settles O48: the scan finishes, and its end is answered as R89 says. -/
theorem editCompletes : Obligations.EditCompletes := by
  intro a1 l1 a2 reg cc s used hin hroom hsrc
  obtain ⟨e, hend⟩ := (editLoop_start_consumes hin fun j hj _ => hsrc j hj).1 hroom
  refine ⟨e, hend, by simpa [editStart] using editLoop_done_k hend, ?_⟩
  exact (editStartsFresh a1 l1 a2 reg cc s hin).1 e hend

/-- Settles O56: the scan finishes where the bytes it consumes lie in the buffer, and leaves it where they do not. -/
theorem editNeedsTheSourceItConsumes : Obligations.EditNeedsTheSourceItConsumes := by
  intro a1 l1 a2 reg cc s used hin hsrc
  obtain ⟨hfinish, hleave⟩ := editLoop_start_consumes hin hsrc
  rw [exec_edmk_eq_refused_iff hin]
  refine ⟨fun hout => ?_, hleave⟩
  by_contra hroom
  obtain ⟨e, hend⟩ := hfinish (Nat.le_of_not_lt hroom)
  rw [hout] at hend
  cases hend

end Sys2Proof
end

section
/-! The statement about the digits of a decoded field (R35, R59, R60, R62): its magnitude is the number its digit positions
spell. -/

namespace Sys2Proof.Machine

/-- The number with the n digits d 0, d 1, and so on, the most significant first. -/
def decimalValue (d : Nat → Nat) (n : Nat) : Nat := ((List.range n).map fun p => d p * 10 ^ (n - 1 - p)).sum

theorem fieldMagnitude_eq_decimalValue (field : List Byte) :
    fieldMagnitude field = decimalValue (fun p => (nib field p).toNat) (capacity field.length) := rfl

/-- One digit more on the right. -/
theorem decimalValue_succ (d : Nat → Nat) (n : Nat) : decimalValue d (n + 1) = 10 * decimalValue d n + d n := by
  have shift : ∀ p ∈ List.range n, d p * 10 ^ (n + 1 - 1 - p) = 10 * (d p * 10 ^ (n - 1 - p)) := by
    intro p hp
    rw [List.mem_range] at hp
    rw [show n + 1 - 1 - p = n - 1 - p + 1 by omega, pow_succ]
    ring
  rw [decimalValue, List.range_succ, List.map_append, List.sum_append, List.map_congr_left shift,
    List.sum_map_mul_left, decimalValue]
  simp

/-- Digit p of n stands with weight 10^(n−1−p). -/
theorem decimalValue_digit {d : Nat → Nat} {n p : Nat} (hd : ∀ q < n, d q ≤ 9) (hp : p < n) :
    decimalValue d n / 10 ^ (n - 1 - p) % 10 = d p := by
  induction n with
  | zero => omega
  | succ n ih =>
    have hn := hd n (Nat.lt_succ_self n)
    rw [decimalValue_succ]
    rcases Nat.lt_succ_iff_lt_or_eq.1 hp with hlt | rfl
    · rw [show n + 1 - 1 - p = n - 1 - p + 1 by omega, pow_succ', ← Nat.div_div_eq_div_mul,
        show (10 * decimalValue d n + d n) / 10 = decimalValue d n by omega]
      exact ih (fun q hq => hd q (by omega)) hlt
    · rw [show p + 1 - 1 - p = 0 by omega, pow_zero, Nat.div_one]
      omega

/-- A nibble of a field in memory as a number (R35). -/
theorem nibbleAt_eq {m : Memory} {a len p : Nat} (h : p < 2 * len) :
    nibbleAt m a p = (nib (m.readBytes a len) p).toNat := by
  rw [nib_readBytes m a len p h, nibbleAt]
  split
  · rw [hiNib_toNat]
  · rw [loNib_toNat]

/-- The last nibble of a field in memory is its sign (R35, R59). -/
theorem nibbleAt_sign {m : Memory} {a len : Nat} (h : 1 ≤ len) :
    nibbleAt m a (2 * len - 1) = (signNib (m.readBytes a len)).toNat := by
  have hne : m.readBytes a len ≠ [] := by
    rw [← List.length_pos_iff, Memory.length_readBytes]
    exact h
  rw [nibbleAt_eq (len := len) (by omega), signNib_eq_nib hne, Memory.length_readBytes, capacity]

theorem minusSign_iff (s : Nibble) : minusSign s = true ↔ s.toNat = 0xB ∨ s.toNat = 0xD := by
  revert s; decide

/-- A field's value is negative by its sign, where it is not zero (R59, R62). -/
theorem fieldValue_neg_iff (field : List Byte) :
    fieldValue field < 0 ↔ fieldValue field ≠ 0 ∧ minusSign (signNib field) = true := by
  unfold fieldValue
  cases minusSign (signNib field)
  · simp
  · simp [Nat.pos_iff_ne_zero]

/-- A digit position of a decoded field (R62). -/
theorem packedDecode_digit {m : Memory} {a len p : Nat} {v : Int} (h : packedDecode m a len = some v)
    (hp : p < 2 * len - 1) : v.natAbs / 10 ^ (2 * len - 2 - p) % 10 = nibbleAt m a p := by
  obtain ⟨hvalid, rfl⟩ := packedDecode_eq_some.1 h
  have hdigits := ((fieldValid_iff _).1 hvalid).1
  rw [natAbs_fieldValue, fieldMagnitude_eq_decimalValue, nibbleAt_eq (len := len) (by omega),
    ← decimalValue_digit (p := p) hdigits (by rwa [Memory.length_readBytes]), Memory.length_readBytes, capacity,
    show 2 * len - 1 - 1 - p = 2 * len - 2 - p by omega]

end Sys2Proof.Machine

namespace Sys2Proof

open Machine

/-- Settles O52: the magnitude is the number its digit positions spell, and the sign nibble decides where it is not
zero. -/
theorem decodedDigitsAreTheNibbles : Obligations.DecodedDigitsAreTheNibbles := by
  intro m a len v hlen h
  refine ⟨fun p hp => packedDecode_digit h hp, Nat.div_eq_of_lt (natAbs_lt_of_packedDecode h), ?_⟩
  rw [(packedDecode_eq_some.1 h).2, fieldValue_neg_iff, nibbleAt_sign hlen, minusSign_iff]

end Sys2Proof
end

section
/-! The statements about MVO, PACK and UNPK on any two windows (R41, R42, R97 to R99). What a move leaves is said once, in
its own order; where no store reaches a source byte before it is read, the source reads as it was. -/

namespace Sys2Proof.Machine

/-! ## The source of a move -/

variable {s : State} {a1 a2 : Addr} {l1 : Len1} {l2 : Len2} {cc : CondCode}
variable {mem after : Memory} {b n a m d r : Nat} {fill : Nibble}

/-- The source byte of the byte order (R41), counted back from operand 2's right end. -/
theorem sourceWhenWritten_eq (before after : Memory) (right n a m d : Nat) :
    sourceWhenWritten before after right n a m d =
      if d < m then readWhenWritten before after right n (a + m - 1 - d) else 0 := by
  unfold sourceWhenWritten
  split
  · rw [show a + (m - 1 - d) = a + m - 1 - d by omega]
  · rfl

/-- A source byte that no store has reached when it is read, or none at all, reads as it was. -/
theorem sourceWhenWritten_before {before after : Memory} {right : Nat}
    (h : d < m → right < a + (m - 1 - d) ∨ a + (m - 1 - d) + n ≤ right) :
    sourceWhenWritten before after right n a m d = fromRight before a m d := by
  unfold sourceWhenWritten fromRight
  split
  · exact readWhenWritten_before (h ‹_›)
  · rfl

/-- The byte at y with its nibbles swapped, stored at x: how PACK and unpack with the sign kept begin (R98, R99). -/
def storeSwapped (mem : Memory) (x y : Nat) : Memory :=
  mem.write x (mkByte (loNib (mem.read y)) (hiNib (mem.read y)))

/-- After that store, at operand 1's right end, the source is one byte shorter. -/
theorem sourceWhenWritten_storeSwapped {y : Nat}
    (h : ∀ x, b + n ≤ x → after.read x = (storeSwapped mem (b + n) y).read x) (hr : r < n) :
    sourceWhenWritten (storeSwapped mem (b + n) y) after (b + n - 1) r a m d =
      sourceWhenWritten mem after (b + n) (r + 1) a (m + 1) (d + 1) := by
  rw [storeSwapped, sourceWhenWritten_step h hr, ← sourceWhenWritten_skip, Nat.add_sub_cancel]

/-! ## What each move leaves, byte by byte from the right

Operand 1 is the n + 1 bytes at b, operand 2 the m + 1 bytes at a. -/

/-- MVO is its own loop, with operand 1's rightmost nibble carried in. -/
theorem mvoMemory_eq_mvoLoop :
    mvoMemory mem b (n + 1) a (m + 1) = mvoLoop b a (n + 1) (m + 1) (loNib (mem.read (b + n))) mem := rfl

theorem mvoMemory_read_right :
    (mvoMemory mem b (n + 1) a (m + 1)).read (b + n) =
      mkByte (loNib (mem.read (a + m))) (loNib (mem.read (b + n))) :=
  ((mvoLoop_touches b a n m _ _).frame _ (by rw [Window.holds_mk]; omega)).trans (Memory.read_write_same _ _ _)

theorem mvoMemory_read (hr : r ≤ n) :
    let after := mvoMemory mem b (n + 1) a (m + 1)
    after.read (b + (n - r)) =
      mkByte (loNib (sourceWhenWritten mem after (b + n) r a (m + 1) r))
        (if r = 0 then loNib (mem.read (b + n))
          else hiNib (sourceWhenWritten mem after (b + n) (r - 1) a (m + 1) (r - 1))) := by
  rw [mvoMemory_eq_mvoLoop]
  exact mvoLoop_sequential (Nat.lt_succ_of_le hr)

theorem packMemory_eq_packLoop :
    packMemory mem b (n + 1) a (m + 1) = packLoop b a n m (storeSwapped mem (b + n) (a + m)) := rfl

/-- No later store of PACK reaches the first one. -/
theorem packMemory_frame {x : Nat} (hx : b + n ≤ x) :
    (packMemory mem b (n + 1) a (m + 1)).read x = (storeSwapped mem (b + n) (a + m)).read x :=
  (packLoop_touches b a n m _).frame _ (by rw [Window.holds_mk]; omega)

theorem packMemory_read_right :
    (packMemory mem b (n + 1) a (m + 1)).read (b + n) =
      mkByte (loNib (mem.read (a + m))) (hiNib (mem.read (a + m))) := by
  rw [packMemory_frame (le_refl _), storeSwapped, Memory.read_write_same]

theorem packMemory_read (hr : r < n) :
    let after := packMemory mem b (n + 1) a (m + 1)
    after.read (b + (n - (r + 1))) =
      mkByte (loNib (sourceWhenWritten mem after (b + n) (r + 1) a (m + 1) (2 * (r + 1))))
        (loNib (sourceWhenWritten mem after (b + n) (r + 1) a (m + 1) (2 * (r + 1) - 1))) := by
  dsimp only
  rw [show n - (r + 1) = n - 1 - r by omega, packMemory_eq_packLoop, packLoop_sequential hr, ← packMemory_eq_packLoop,
    sourceWhenWritten_storeSwapped (fun _ => packMemory_frame) hr,
    sourceWhenWritten_storeSwapped (fun _ => packMemory_frame) hr]
  rfl

theorem unpackZoned_eq_unpackLoop :
    (unpackZoned mem a (m + 1) b (n + 1) fill true).1 =
      unpackLoop a b fill n m none (storeSwapped mem (b + n) (a + m)) := rfl

/-- No later store of unpack reaches the first one. -/
theorem unpackZoned_frame {x : Nat} (hx : b + n ≤ x) :
    (unpackZoned mem a (m + 1) b (n + 1) fill true).1.read x = (storeSwapped mem (b + n) (a + m)).read x :=
  (unpackLoop_touches a b fill n m none _).frame _ (by rw [Window.holds_mk]; omega)

theorem unpackZoned_read_right :
    (unpackZoned mem a (m + 1) b (n + 1) fill true).1.read (b + n) =
      mkByte (loNib (mem.read (a + m))) (hiNib (mem.read (a + m))) := by
  rw [unpackZoned_frame (le_refl _), storeSwapped, Memory.read_write_same]

theorem unpackZoned_read (hr : r < n) :
    let after := (unpackZoned mem a (m + 1) b (n + 1) fill true).1
    after.read (b + (n - (r + 1))) =
      mkByte fill
        (if (r + 1) % 2 = 1 then loNib (sourceWhenWritten mem after (b + n) (r + 1) a (m + 1) ((r + 1 + 1) / 2))
        else hiNib (sourceWhenWritten mem after (b + n) r a (m + 1) ((r + 1) / 2))) := by
  dsimp only
  rw [show n - (r + 1) = n - 1 - r by omega, unpackZoned_eq_unpackLoop, unpackLoop_sequential hr,
    ← unpackZoned_eq_unpackLoop, unpackSource]
  by_cases hr2 : r % 2 = 0
  · rw [if_pos hr2, if_pos (by omega), sourceWhenWritten_storeSwapped (fun _ => unpackZoned_frame) hr,
      show (r + 1 + 1) / 2 = r / 2 + 1 by omega]
  · rw [if_neg hr2, if_neg (by omega), sourceWhenWritten_storeSwapped (fun _ => unpackZoned_frame) (by omega),
      show (r + 1) / 2 = r / 2 + 1 by omega, show r - 1 + 1 = r by omega]

/-! ## Moves whose source reads as it was -/

/-- Nibble r from the right of the len bytes at a, zero beyond them: the digit unpack places. -/
theorem unpackDigit_eq_nibFromRight (m : Memory) (a len r : Nat) :
    unpackDigit m a len r = if r < 2 * len then nibFromRight (m.readBytes a len) r else 0 := by
  unfold unpackDigit fromRight nibFromRight
  by_cases h : r < 2 * len
  · rw [if_pos h, if_pos (show r / 2 < len by omega), Memory.length_readBytes, nib_readBytes m a len _ (by omega),
      show (2 * len - 1 - r) / 2 = len - 1 - r / 2 by omega]
    by_cases hr : r % 2 = 0
    · rw [if_pos hr, if_neg (by omega)]
    · rw [if_neg hr, if_pos (by omega)]
  · rw [if_neg h, if_neg (show ¬ r / 2 < len by omega)]
    simp

theorem unpackDigit_of_lt {len : Nat} (h : r < 2 * len) :
    unpackDigit mem a len r = nibFromRight (mem.readBytes a len) r := by
  rw [unpackDigit_eq_nibFromRight, if_pos h]

/-- The nibbles of a field from the right, where its bytes from the right are known. -/
theorem nibFromRight_of_bytes {lo hi : Nat → Nibble}
    (h : ∀ j ≤ n, mem.read (b + (n - j)) = mkByte (hi j) (lo j)) (hr : r < 2 * (n + 1)) :
    nibFromRight (mem.readBytes b (n + 1)) r = if r % 2 = 0 then lo (r / 2) else hi (r / 2) := by
  rw [← unpackDigit_of_lt hr, unpackDigit, fromRight, if_pos (show r / 2 < n + 1 by omega), Nat.add_sub_cancel,
    h _ (by omega), loNib_mkByte, hiNib_mkByte]

/-- MVO where operand 2 ends no further right than operand 1, or lies to its right: nibble by nibble it is operand 1's
rightmost, then operand 2's as they were. -/
theorem mvoMemory_nibFromRight (h : a + m ≤ b + n ∨ b + n < a) (hr : r < 2 * (n + 1)) :
    nibFromRight ((mvoMemory mem b (n + 1) a (m + 1)).readBytes b (n + 1)) r =
      if r = 0 then nibFromRight (mem.readBytes b (n + 1)) 0 else unpackDigit mem a (m + 1) (r - 1) := by
  have hsource : ∀ j after, sourceWhenWritten mem after (b + n) j a (m + 1) j = fromRight mem a (m + 1) j :=
    fun j after => sourceWhenWritten_before (by omega)
  have hright : nibFromRight (mem.readBytes b (n + 1)) 0 = loNib (mem.read (b + n)) := by
    rw [← unpackDigit_of_lt (by omega), unpackDigit, if_pos rfl, fromRight_zero]
  rw [nibFromRight_of_bytes (fun j hj => mvoMemory_read hj) hr, hsource, hsource, hright]
  unfold unpackDigit
  by_cases h0 : r = 0
  · subst h0
    rfl
  · rw [if_neg h0]
    by_cases hr2 : r % 2 = 0
    · rw [if_pos hr2, if_neg (by omega), if_neg (by omega), show (r - 1) / 2 = r / 2 - 1 by omega]
    · rw [if_neg hr2, if_pos (by omega), show (r - 1) / 2 = r / 2 by omega]

/-- PACK where operand 2 ends no further right than operand 1, or lies to its right: the zone of the rightmost source
byte, then the low nibbles of the source bytes as they were. -/
theorem packMemory_nibFromRight (h : a + m ≤ b + n ∨ b + n < a) (hr : r < 2 * (n + 1)) :
    nibFromRight ((packMemory mem b (n + 1) a (m + 1)).readBytes b (n + 1)) r =
      if r = 0 then hiNib (mem.read (a + m)) else loNib (fromRight mem a (m + 1) (r - 1)) := by
  have hbytes : ∀ j ≤ n, (packMemory mem b (n + 1) a (m + 1)).read (b + (n - j)) =
      mkByte (loNib (fromRight mem a (m + 1) (2 * j)))
        (if j = 0 then hiNib (mem.read (a + m)) else loNib (fromRight mem a (m + 1) (2 * j - 1))) := by
    intro j hj
    cases j with
    | zero => rw [if_pos rfl, Nat.sub_zero, packMemory_read_right, Nat.mul_zero, fromRight_zero]
    | succ j =>
      rw [if_neg (Nat.succ_ne_zero j), packMemory_read (by omega), sourceWhenWritten_before (by omega),
        sourceWhenWritten_before (by omega)]
  rw [nibFromRight_of_bytes hbytes hr]
  by_cases h0 : r = 0
  · subst h0
    rfl
  · rw [if_neg h0]
    by_cases hr2 : r % 2 = 0
    · rw [if_pos hr2, if_neg (by omega), show 2 * (r / 2) - 1 = r - 1 by omega]
    · rw [if_neg hr2, show 2 * (r / 2) = r - 1 by omega]

/-- UNPK where operand 1 ends far enough right of operand 2, or the windows are apart: each byte takes the next nibble of
the source as it was. -/
theorem unpackZoned_read_before (h : a + 2 * m ≤ b + n + 1 ∨ a + m < b ∨ b + n < a) (hr : r ≤ n) :
    (unpackZoned mem a (m + 1) b (n + 1) fill true).1.read (b + (n - r)) =
      mkByte (if r = 0 then unpackDigit mem a (m + 1) 0 else fill) (unpackDigit mem a (m + 1) (r + 1)) := by
  cases r with
  | zero =>
    rw [Nat.sub_zero, unpackZoned_read_right, if_pos rfl]
    simp [unpackDigit, fromRight_zero]
  | succ r =>
    rw [unpackZoned_read (by omega), if_neg (Nat.succ_ne_zero r), unpackDigit]
    by_cases hr2 : r % 2 = 0
    · rw [if_pos (by omega), if_pos (by omega), sourceWhenWritten_before (by omega)]
    · rw [if_neg (by omega), if_neg (by omega), sourceWhenWritten_before (by omega),
        show (r + 1 + 1) / 2 = (r + 1) / 2 by omega]

/-! ## The moves as instructions -/

/-- Operands that lie in legal windows have n + 1 and m + 1 bytes (R48). -/
theorem exists_succ_of_isFieldLength (h : (l1.isFieldLength && l2.isFieldLength) = true) :
    ∃ n m, l1.toNat = n + 1 ∧ l2.toNat = m + 1 := by
  simp only [Len1.isFieldLength, Len2.isFieldLength, Bool.and_eq_true, decide_eq_true_eq] at h
  exact ⟨l1.toNat - 1, l2.toNat - 1, by omega, by omega⟩

/-- Windows that are apart lie one to the left of the other. -/
theorem apart_of_not_meets (h1 : l1.toNat = n + 1) (h2 : l2.toNat = m + 1)
    (h : ¬ (windowOf a1 l1).meets (windowOf a2 l2)) :
    a2.toNat + m < a1.toNat ∨ a1.toNat + n < a2.toNat := by
  simp only [Window.meets, windowOf, h1, h2] at h
  omega

/-- Operand 2, apart from operand 1 or ending no further right, ends no further right or lies wholly to its right. -/
theorem ends_no_further_right (h1 : l1.toNat = n + 1) (h2 : l2.toNat = m + 1)
    (h : ¬ (windowOf a1 l1).meets (windowOf a2 l2) ∨ a2.toNat + l2.toNat ≤ a1.toNat + l1.toNat) :
    a2.toNat + m ≤ a1.toNat + n ∨ a1.toNat + n < a2.toNat := by
  rcases h with hapart | hends
  · have := apart_of_not_meets h1 h2 hapart
    omega
  · omega

theorem exec_mvo_of_inside (h : (Instr.mvo a1 l1 a2 l2 cc).InsideInterface s.cfg) :
    exec (.mvo a1 l1 a2 l2 cc) s =
      .next (s.completed (mvoMemory s.mem a1.toNat l1.toNat a2.toNat l2.toNat) cc) := by
  have hr : refusalMove s a1 l1 a2 l2 = none := (refusalBefore_eq_none (.mvo a1 l1 a2 l2 cc) s).2 h
  rw [exec, execMvo, hr, unlessRefused_none, complete_eq]

theorem exec_pack_of_inside (h : (Instr.pack a1 l1 a2 l2 cc).InsideInterface s.cfg) :
    exec (.pack a1 l1 a2 l2 cc) s =
      .next (s.completed (packMemory s.mem a1.toNat l1.toNat a2.toNat l2.toNat) cc) := by
  have hr : refusalMove s a1 l1 a2 l2 = none := (refusalBefore_eq_none (.pack a1 l1 a2 l2 cc) s).2 h
  rw [exec, execPack, hr, unlessRefused_none, complete_eq]

theorem exec_unpk_of_inside (h : (Instr.unpk a1 l1 a2 l2 cc).InsideInterface s.cfg) :
    exec (.unpk a1 l1 a2 l2 cc) s =
      .next (s.completed (unpackZoned s.mem a2.toNat l2.toNat a1.toNat l1.toNat zone true).1 cc) := by
  have hr : refusalMove s a1 l1 a2 l2 = none := (refusalBefore_eq_none (.unpk a1 l1 a2 l2 cc) s).2 h
  rw [exec, execUnpk, hr, unlessRefused_none, complete_eq]

end Sys2Proof.Machine

namespace Sys2Proof

open Machine

/-- Settles O41: with operand 2 ending no further right, MVO stores over no source byte before it has read it. -/
theorem moveWithOffsetResults : Obligations.MoveWithOffsetResults := by
  intro a1 l1 a2 l2 cc s hin
  refine ⟨exec_mvo_of_inside hin, fun hover r hr => ?_⟩
  obtain ⟨n, m, h1, h2⟩ := exists_succ_of_isFieldLength hin.lengths
  have hreads := ends_no_further_right h1 h2 hover
  rw [h1] at hr
  rw [h1, h2, mvoMemory_nibFromRight hreads hr, unpackDigit_eq_nibFromRight]

/-- Settles O42: with operand 2 ending no further right, PACK stores over no source byte before it has read it. -/
theorem packResults : Obligations.PackResults := by
  intro a1 l1 a2 l2 cc s hin
  refine ⟨exec_pack_of_inside hin, fun hover r hr => ?_⟩
  obtain ⟨n, m, h1, h2⟩ := exists_succ_of_isFieldLength hin.lengths
  have hreads := ends_no_further_right h1 h2 hover
  rw [h1] at hr
  rw [h1, h2, packMemory_nibFromRight hreads hr, fromRight, apply_ite loNib, show loNib 0 = 0 from loNib_zero,
    Nat.add_sub_cancel]

/-- Settles O43: with operand 1 ending far enough right, UNPK stores over no source byte before it has read it. -/
theorem unpackResults : Obligations.UnpackResults := by
  intro a1 l1 a2 l2 cc s hin
  refine ⟨exec_unpk_of_inside hin, fun hover r hr => ?_⟩
  obtain ⟨n, m, h1, h2⟩ := exists_succ_of_isFieldLength hin.lengths
  have hreads : a2.toNat + 2 * m ≤ a1.toNat + n + 1 ∨ a2.toNat + m < a1.toNat ∨ a1.toNat + n < a2.toNat := by
    rcases hover with hapart | hover
    · exact Or.inr (apart_of_not_meets h1 h2 hapart)
    · omega
  rw [h1] at hr
  rw [h1, h2, Nat.add_sub_cancel, unpackZoned_read_before hreads (Nat.le_of_lt_succ hr), unpackDigit_of_lt (by omega),
    unpackDigit_eq_nibFromRight]

/-- Settles O54: what each loop leaves in its own order, with the source counted back from operand 2's right end. -/
theorem movesFollowTheByteOrder : Obligations.MovesFollowTheByteOrder := by
  intro a1 l1 a2 l2 cc s e1 e2 source
  have hsource : ∀ m r d, source m r d = sourceWhenWritten s.mem m e1 r a2.toNat l2.toNat d :=
    fun m r d => (sourceWhenWritten_eq _ _ _ _ _ _ _).symm
  simp only [hsource]
  refine ⟨fun hin => ⟨_, exec_mvo_of_inside hin, ?_⟩, fun hin => ⟨_, exec_pack_of_inside hin, ?_⟩,
    fun hin => ⟨_, exec_unpk_of_inside hin, ?_⟩⟩
  all_goals
    obtain ⟨n, m, h1, h2⟩ := exists_succ_of_isFieldLength hin.lengths
    have he1 : e1 = a1.toNat + n := by omega
    have he2 : e2 = a2.toNat + m := by omega
    rw [completed_mem, he1, he2, h1, h2]
  · refine ⟨mvoMemory_read_right, fun r hr0 hr => ?_⟩
    rw [Nat.add_sub_assoc (Nat.le_of_lt_succ hr), mvoMemory_read (Nat.le_of_lt_succ hr), if_neg (by omega)]
  · refine ⟨packMemory_read_right, fun r hr0 hr => ?_⟩
    obtain ⟨r, rfl⟩ := Nat.exists_eq_succ_of_ne_zero (Nat.one_le_iff_ne_zero.1 hr0)
    rw [Nat.add_sub_assoc (Nat.le_of_lt_succ hr)]
    exact packMemory_read (Nat.lt_of_succ_lt_succ hr)
  · refine ⟨unpackZoned_read_right, fun r hr0 hr => ?_⟩
    obtain ⟨r, rfl⟩ := Nat.exists_eq_succ_of_ne_zero (Nat.one_le_iff_ne_zero.1 hr0)
    rw [Nat.add_sub_assoc (Nat.le_of_lt_succ hr)]
    exact unpackZoned_read (Nat.lt_of_succ_lt_succ hr)

end Sys2Proof
end

section
/-! The statements about request words (R47, R51, R52) and about the requests a caller builds from its source instructions
(R48, R53 to R56): each is a fact about the rows of the operation map. -/

namespace Sys2Proof

open Machine

variable {q : RequestWord} {i : Instr} {row : BitVec 8 × (Request → Instr)}

/-! ## Decoding a request word -/

/-- A word reads as the instruction that the row with its OP makes of its fields. -/
theorem readsAs_of_row (hrow : row ∈ opTable) (hop : row.1 = (Request.ofWord q).op) :
    ReadsAs q (row.2 (Request.ofWord q)) := by
  simp only [opTable, List.mem_cons, List.not_mem_nil, or_false] at hrow
  rcases hrow with rfl | rfl | rfl | rfl | rfl | rfl | rfl | rfl | rfl | rfl | rfl | rfl | rfl
  case inl => exact ⟨hop.symm, rfl, rfl, rfl⟩
  case inr.inl => exact ⟨hop.symm, rfl, rfl⟩
  all_goals exact ⟨hop.symm, rfl, rfl, rfl, rfl, rfl⟩

/-- A word with the OP of an instruction and its fields at their bits decodes to it. -/
theorem decode_of_readsAs (hres : q.extractLsb' 0 28 = 0) (h : ReadsAs q i) : decode q = .ok i := by
  rw [decode, Request.toInstr_of_reserved hres]
  have hrecord {op : BitVec 8} (hop : q.extractLsb' 152 8 = op) : (Request.ofWord q).op = op := hop
  cases i with
  | cvd =>
    obtain ⟨hop, rfl, rfl, rfl⟩ := h
    rw [hrecord hop]
    rfl
  | cvb =>
    obtain ⟨hop, rfl, rfl⟩ := h
    rw [hrecord hop]
    rfl
  | _ =>
    obtain ⟨hop, rfl, rfl, rfl, rfl, rfl⟩ := h
    rw [hrecord hop]
    rfl

theorem decode_eq_reservedBits_iff : decode q = .error .reservedBits ↔ q.extractLsb' 0 28 ≠ 0 := by
  refine ⟨fun h hres => ?_, fun hres => Request.toInstr_of_reserved_ne hres⟩
  rw [decode, Request.toInstr_of_reserved hres] at h
  split at h <;> cases h

/-- With zero reserved bits a word is rejected exactly when no row of the operation map has its OP. -/
theorem decode_eq_unknownOp_iff :
    decode q = .error .unknownOp ↔ q.extractLsb' 0 28 = 0 ∧ q.extractLsb' 152 8 ∉ opTable.map Prod.fst := by
  by_cases hres : q.extractLsb' 0 28 = 0
  · have hfind : opTable.find? (fun row => row.1 == (Request.ofWord q).op) = none ↔
        q.extractLsb' 152 8 ∉ opTable.map Prod.fst := by
      simp only [List.find?_eq_none, beq_iff_eq, List.mem_map, not_exists, not_and]
      rfl
    rw [decode, Request.toInstr_of_reserved hres, ← hfind, and_iff_right hres]
    cases opTable.find? (fun row => row.1 == (Request.ofWord q).op) <;> simp
  · rw [decode_eq_reservedBits_iff.2 hres]
    simp only [hres, false_and, iff_false]
    nofun

/-- The two reasons of the decoder are two reasons of the step. -/
theorem Machine.refusalOf_injective {e e' : DecodeReject} (h : refusalOf e = refusalOf e') : e = e' := by
  cases e <;> cases e' <;> simp [refusalOf] at h ⊢

/-- A step refuses a request for a reason of the decoder exactly when the decoder rejects it for this reason: no meaning
refuses for one of these. -/
theorem Machine.step_eq_refused_iff {s : State} {e : DecodeReject} (hq : s.request = some q) :
    step s = .refused (refusalOf e) ↔ decode q = .error e := by
  refine ⟨fun h => ?_, fun h => step_of_reject hq h⟩
  cases hd : decode q with
  | ok i =>
    rw [step_of_decode hq hd] at h
    have hwhy := exec_refused h
    cases e <;> simp [refusalOf] at hwhy
  | error e' =>
    rw [step_of_reject hq hd] at h
    injection h with h
    rw [refusalOf_injective h]

/-! ## The rows of the operation map -/

/-- The lengths a request of that source format uses lie in their ranges (R48). -/
def Request.lengthsLegal (r : Request) : SourceFormat → Bool
  | .ssTwo => r.l1.isFieldLength && r.l2.isFieldLength
  | .ssOne => r.l1.isPatternLength
  | .ssSrp => r.l1.isFieldLength
  | .rx => true

/-- An opcode with a source format has a row (R51, R53 to R56). -/
theorem exists_row_of_sourceFormat {op : BitVec 8} {f : SourceFormat} (h : sourceFormat op = some f) :
    ∃ row ∈ opTable, row.1 = op := by
  have hall : ∀ op : BitVec 8, (sourceFormat op).isSome = true → op ∈ opTable.map Prod.fst := by decide
  exact List.mem_map.1 (hall op (by rw [h]; rfl))

/-- What a row makes of a request has the row's OP and the request's condition code, and is well-formed exactly where the
lengths its source format uses are legal. -/
theorem row_spec (hrow : row ∈ opTable) (r : Request) :
    (encode (row.2 r)).extractLsb' 152 8 = row.1 ∧ (row.2 r).ccIn = r.ccIn ∧
      ∀ f, sourceFormat row.1 = some f → (row.2 r).wellFormed = r.lengthsLegal f := by
  have hop (i : Instr) : (encode i).extractLsb' 152 8 = i.toRequest.op :=
    congrArg Request.op (Request.ofWord_toWord i.toRequest)
  rw [hop]
  simp only [opTable, List.mem_cons, List.not_mem_nil, or_false] at hrow
  rcases hrow with rfl | rfl | rfl | rfl | rfl | rfl | rfl | rfl | rfl | rfl | rfl | rfl | rfl <;>
  · refine ⟨rfl, rfl, ?_⟩
    rintro f ⟨⟩
    rfl

/-! ## The requests of source instructions -/

/-- A length is one more than its code, where the field has room for it (R53). -/
theorem toNat_lengthOfCode {w v : Nat} (h : v < w) (code : BitVec v) :
    (lengthOfCode w code).toNat = code.toNat + 1 := by
  have hw : 2 ^ v * 2 ≤ 2 ^ w := pow_succ 2 v ▸ Nat.pow_le_pow_right (by decide) h
  have hcode := code.isLt
  change (code.setWidth w + 1#w).toNat = code.toNat + 1
  rw [BitVec.toNat_add, BitVec.toNat_setWidth, BitVec.toNat_ofNat, ← Nat.add_mod, Nat.mod_eq_of_lt (by omega)]

/-- Length codes give legal lengths (R48, R53 to R55). -/
theorem lengthsLegal_toRequest (c : Caller) (si : SourceInstr) :
    (si.toRequest c).lengthsLegal si.format = true := by
  have field1 (code : BitVec 4) : Len1.isFieldLength (lengthOfCode 9 code) = true := by
    rw [Len1.isFieldLength, toNat_lengthOfCode (by decide), Config.packedMaxLen, decide_eq_true_eq]
    omega
  have field2 (code : BitVec 4) : Len2.isFieldLength (lengthOfCode 5 code) = true := by
    rw [Len2.isFieldLength, toNat_lengthOfCode (by decide), Config.packedMaxLen, decide_eq_true_eq]
    omega
  have pattern (code : BitVec 8) : Len1.isPatternLength (lengthOfCode 9 code) = true := by
    rw [Len1.isPatternLength, toNat_lengthOfCode (by decide), Config.edmkMaxLen, decide_eq_true_eq]
    omega
  cases si with
  | ssTwo _ c1 c2 => exact Bool.and_eq_true_iff.2 ⟨field1 c1, field2 c2⟩
  | ssOne _ code => exact pattern code
  | ssSrp _ c1 => exact field1 c1
  | rx => rfl

/-- A source instruction's request carries its opcode and the caller's condition code, and no reserved bit. -/
theorem toRequest_fields (c : Caller) (si : SourceInstr) :
    (si.toRequest c).op = si.op ∧ (si.toRequest c).ccIn = c.cc ∧ (si.toRequest c).reserved = 0 := by
  cases si <;> exact ⟨rfl, rfl, rfl⟩

end Sys2Proof

namespace Sys2Proof

open Machine

/-- Settles O2: a word decodes by the row that has its OP, and each row takes the fields its instruction uses. -/
theorem decodeReadsTheFieldsOfQ : Obligations.DecodeReadsTheFieldsOfQ := by
  intro q i
  refine ⟨fun h => ?_, fun ⟨hres, hreads⟩ => decode_of_readsAs hres hreads⟩
  obtain ⟨hres, row, hrow, hop, rfl⟩ := Request.toInstr_ok.1 h
  exact ⟨hres, readsAs_of_row hrow hop⟩

/-- Settles O3: the step refuses for a reason of the decoder exactly where the decoder rejects for it. -/
theorem illegalRequestWordsAreRefused : Obligations.IllegalRequestWordsAreRefused := by
  intro s q hq
  exact ⟨(step_eq_refused_iff hq).trans decode_eq_reservedBits_iff,
    (step_eq_refused_iff hq).trans decode_eq_unknownOp_iff⟩

/-- Settles O6: the opcode's row makes the instruction, and the length codes make its lengths legal. -/
theorem sourceRequestsAreWellFormed : Obligations.SourceRequestsAreWellFormed := by
  intro c si hf
  obtain ⟨row, hrow, hop⟩ := exists_row_of_sourceFormat hf
  obtain ⟨hreqOp, hcc, hres⟩ := toRequest_fields c si
  let word : Request :=
    { si.toRequest c with regIn := (si.toRequest c).sharedValue, valIn := (si.toRequest c).sharedValue }
  obtain ⟨hrowOp, hrowCc, hwf⟩ := row_spec hrow word
  refine ⟨row.2 word, ?_, ?_, hrowOp.trans hop, hrowCc.trans hcc⟩
  · rw [decode_toWord]
    exact Request.toInstr_ok.2 ⟨hres, row, hrow, hop.trans hreqOp.symm, rfl⟩
  · rw [hwf si.format (hop ▸ hf)]
    exact lengthsLegal_toRequest c si

/-- Settles O4: each word reads as its instruction, field by field. -/
theorem sampleRequestWordsDecode : Obligations.SampleRequestWordsDecode :=
  ⟨decode_of_readsAs rfl ⟨rfl, rfl, rfl, rfl, rfl, rfl⟩, decode_of_readsAs rfl ⟨rfl, rfl, rfl, rfl, rfl, rfl⟩,
    decode_of_readsAs rfl ⟨rfl, rfl, rfl, rfl, rfl, rfl⟩, decode_of_readsAs rfl ⟨rfl, rfl, rfl, rfl⟩⟩

end Sys2Proof
end

section
/-! The statements about SRP (R49, R92 to R94): its shift amount, the shifted magnitude, and what it stores. -/

namespace Sys2Proof.Machine

variable {s : State} {a1 : Addr} {l1 : Len1} {sh : ShiftField} {i3 : Nibble} {cc : CondCode}
variable {m k r len : Nat} {n v : Int}

/-! ## The shift amount (R49) -/

/-- The shift amount is the residue of SH for the width, less the width's modulus from half of it on. -/
theorem shiftAmount_eq (w : ShiftWidth) (sh : ShiftField) :
    shiftAmount w sh =
      if 2 * (sh.toNat % 2 ^ shiftBits w) < 2 ^ shiftBits w then ((sh.toNat % 2 ^ shiftBits w : Nat) : Int)
      else ((sh.toNat % 2 ^ shiftBits w : Nat) : Int) - (2 ^ shiftBits w : Nat) := by
  rw [shiftAmount, BitVec.toInt_eq_toNat_cond, BitVec.extractLsb'_toNat, Nat.shiftRight_zero]

/-! ## The shifted magnitude (R92, R93) -/

/-- A right shift adds the rounding digit at the leftmost position shifted out, and drops what is shifted out (R92). -/
theorem shiftRight_eq (hk : 1 ≤ k) (hr : r ≤ 9) : shiftRight m k r = (m + r * 10 ^ (k - 1)) / 10 ^ k := by
  rw [shiftRight, ← pow_sub_one_mul (Nat.ne_of_gt hk), ← Nat.div_div_eq_div_mul, ← Nat.div_div_eq_div_mul,
    Nat.add_mul_div_right _ _ (Nat.pow_pos (by decide))]
  generalize m / 10 ^ (k - 1) = x
  split <;> omega

/-- A right shift of a field's magnitude fits the field. -/
theorem roundedQuotient_lt {c : Nat} (hk : 1 ≤ k) (hr : r ≤ 9) (hm : m < 10 ^ c) :
    (m + r * 10 ^ (k - 1)) / 10 ^ k < 10 ^ c := by
  rw [Nat.div_lt_iff_lt_mul (Nat.pow_pos (by decide)), ← pow_sub_one_mul (Nat.ne_of_gt hk)]
  have hp : 1 ≤ 10 ^ (k - 1) := Nat.one_le_pow _ _ (by decide)
  generalize 10 ^ (k - 1) = p at *
  generalize 10 ^ c = q at *
  nlinarith

/-- The shifted magnitude fits the field. -/
theorem shiftedMagnitude_lt (hr : r ≤ 9) (hm : m < 10 ^ capacity len) :
    (shiftedMagnitude m n r len).1 < 10 ^ capacity len := by
  unfold shiftedMagnitude
  split
  · exact Nat.mod_lt _ (Nat.pow_pos (by decide))
  · exact roundedQuotient_lt (by omega) hr hm

/-- A zero stays zero under every shift, without overflow: a rounding digit of at most 9 carries nothing. -/
theorem shiftedMagnitude_zero_left (hr : r ≤ 9) : shiftedMagnitude 0 n r len = (0, false) := by
  unfold shiftedMagnitude
  split
  · simp
  · have hlt := roundedQuotient_lt (m := 0) (k := (-n).toNat) (c := 0) (by omega) hr (by decide)
    rw [Nat.lt_one_iff.1 hlt]

/-- From 0 on the shift is SRP's left shift (R93). -/
theorem shiftedMagnitude_of_nonneg (h : 0 ≤ n) : shiftedMagnitude m n r len = shiftLeft m n.toNat (capacity len) :=
  if_pos h

/-- A shift by 0 leaves a magnitude that fits as it is. -/
theorem shiftedMagnitude_zero_right (hm : m < 10 ^ capacity len) : shiftedMagnitude m 0 r len = (m, false) := by
  rw [shiftedMagnitude_of_nonneg (le_refl 0), shiftLeft]
  simpa using ⟨Nat.mod_eq_of_lt hm, hm⟩

/-- Below 0 the shift is SRP's right shift (R92). -/
theorem shiftedMagnitude_of_neg (h : n < 0) (hr : r ≤ 9) :
    shiftedMagnitude m n r len = (shiftRight m (-n).toNat r, false) := by
  rw [shiftRight_eq (by omega) hr]
  exact if_neg (by omega)

/-! ## What SRP stores (R94) -/

/-- The sign code SRP stores: plus for a zero without overflow, else the operand's sign (R94). -/
def shiftSign (res : Nat) (ovf neg : Bool) : Nibble :=
  if neg = true ∧ (res ≠ 0 ∨ ovf = true) then minusCode else plusCode

theorem storeShifted_eq (res : Nat) (ovf neg : Bool) :
    storeShifted s a1 l1 res ovf neg =
      .next (s.completed (s.mem.writeBytes a1.toNat (packField res (shiftSign res ovf neg) l1.toNat))
        (ccShift res ovf neg)) := by
  have hsign : (if res = 0 ∧ !ovf then plusCode else if neg then minusCode else plusCode) = shiftSign res ovf neg := by
    unfold shiftSign
    cases ovf <;> cases neg <;> simp
  rw [← hsign]
  rfl

/-- The window a packed field was written to, read back. -/
theorem readBytes_writeBytes_packField (mem : Memory) (t a len : Nat) (sign : Nibble) :
    (mem.writeBytes a (packField t sign len)).readBytes a len = packField t sign len := by
  simpa using Memory.readBytes_writeBytes mem a (packField t sign len)

theorem validSign_shiftSign (res : Nat) (ovf neg : Bool) : validSign (shiftSign res ovf neg) = true := by
  unfold shiftSign
  split <;> decide

/-- The stored sign is minus for a negative operand, but for a zero without overflow. -/
theorem minusSign_shiftSign (res : Nat) (ovf neg : Bool) :
    minusSign (shiftSign res ovf neg) = (neg && (res != 0 || ovf)) := by
  unfold shiftSign
  split <;> simp_all [minusSign, minusCode, plusCode]

/-- A stored magnitude that fits the field decodes with the operand's sign, which a zero has either way. -/
theorem packedDecode_shiftSign (mem : Memory) (a : Nat) (ovf neg : Bool) (hlen : 1 ≤ len)
    (hm : m < 10 ^ capacity len) :
    packedDecode (mem.writeBytes a (packField m (shiftSign m ovf neg) len)) a len =
      some ((if neg then -1 else 1) * (m : Int)) := by
  rw [packedDecode_packField _ _ _ hlen (validSign_shiftSign _ _ _), Nat.mod_eq_of_lt hm, minusSign_shiftSign]
  by_cases h0 : m = 0
  · subst h0
    simp
  · cases neg <;> simp [h0]

/-- Inside the interface, with an operand that decodes and a rounding digit of at most 9, SRP stores the shifted magnitude
with the value's sign: a zero operand is stored as plus whatever its sign code. -/
theorem exec_srp_of_decode (hin : (Instr.srp a1 l1 sh i3 cc).InsideInterface s.cfg) (hdigit : i3.toNat ≤ 9)
    (hdec : packedDecode s.mem a1.toNat l1.toNat = some v) :
    let res := shiftedMagnitude v.natAbs (shiftAmount s.cfg.shiftWidth sh) i3.toNat l1.toNat
    exec (.srp a1 l1 sh i3 cc) s = storeShifted s a1 l1 res.1 res.2 (decide (v < 0)) := by
  have hr : refusalOneField s a1 l1 = none := (refusalBefore_eq_none (.srp a1 l1 sh i3 cc) s).2 hin
  obtain ⟨hvalid, hv⟩ := packedDecode_eq_some.1 hdec
  have hlt : v.natAbs < 10 ^ capacity l1.toNat := natAbs_lt_of_packedDecode hdec
  have hmag : fieldMagnitude (s.mem.readBytes a1.toNat l1.toNat) = v.natAbs := by rw [hv, natAbs_fieldValue]
  have hneg : v ≠ 0 → minusSign (signNib (s.mem.readBytes a1.toNat l1.toNat)) = decide (v < 0) := by
    intro h0
    rw [Bool.eq_iff_iff, decide_eq_true_eq, hv, fieldValue_neg_iff, ← hv]
    exact (and_iff_right h0).symm
  dsimp only
  rw [exec, execSrp, hr, unlessRefused_none, hvalid, if_neg (by decide), if_neg (by omega)]
  simp only [hmag]
  generalize shiftAmount s.cfg.shiftWidth sh = n
  by_cases h0 : v = 0
  · subst h0
    rw [Int.natAbs_zero, if_pos rfl, shiftedMagnitude_zero_left hdigit]
    rfl
  · rw [if_neg (Int.natAbs_ne_zero.2 h0), hneg h0]
    rcases lt_trichotomy n 0 with hn | rfl | hn
    · rw [if_neg (by omega), if_neg (by omega), shiftedMagnitude_of_neg hn hdigit]
    · rw [if_pos rfl, shiftedMagnitude_zero_right hlt]
    · rw [if_neg (by omega), if_pos hn, shiftedMagnitude_of_nonneg hn.le]

end Sys2Proof.Machine

namespace Sys2Proof

open Machine

/-- Settles O35: the residue of SH is that of the width, and it is negative from half the modulus on. -/
theorem shiftAmountIsSignExtended : Obligations.ShiftAmountIsSignExtended := by
  intro sh
  rw [shiftAmount_eq, shiftAmount_eq]
  simp only [shiftBits, Nat.reducePow]
  constructor <;> split_ifs <;> omega

/-- Settles O37: what SRP stores is the shifted magnitude, which fits the field and decodes with the sign of R94. -/
theorem shiftAndRoundResults : Obligations.ShiftAndRoundResults := by
  intro a1 l1 sh i3 cc s v hin hdigit hdec res
  have hlen : 1 ≤ l1.toNat := (of_decide_eq_true hin.lengths).1
  have hres : res.1 < 10 ^ capacity l1.toNat := shiftedMagnitude_lt hdigit (natAbs_lt_of_packedDecode hdec)
  refine ⟨_, (exec_srp_of_decode hin hdigit hdec).trans (storeShifted_eq _ _ _), ?_, ?_, ?_, rfl, rfl, fun a ha => ?_⟩
  · simp only [completed_response, ccShift, decide_eq_true_eq]
    rfl
  · rw [completed_mem, packedDecode_shiftSign _ _ _ _ hlen hres]
    simp only [decide_eq_true_eq]
  · rw [completed_mem, readBytes_writeBytes_packField, signNib_packField _ _ hlen]
    simp only [shiftSign, decide_eq_true_eq]
    rfl
  · exact Memory.read_writeBytes_outside s.mem _ (by simpa using ha)

end Sys2Proof
end

section
/-! The statements about the codec (R59 to R69): what encode leaves of a value, which fields decode takes, and where
unpack places the digits of its source. -/

namespace Sys2Proof.Machine

variable {m mem : Memory} {v : Int} {a b len n r k : Nat} {fill : Nibble} {keep : Bool}

/-! ## The field of a value (R64 to R66) -/

theorem encodeOverflow_eq_true_iff : encodeOverflow v len = true ↔ 10 ^ capacity len ≤ v.natAbs := decide_eq_true_iff

theorem encodeOverflow_eq_false_iff : encodeOverflow v len = false ↔ v.natAbs < 10 ^ capacity len :=
  decide_eq_false_iff_not.trans not_le

theorem preferredSign_eq (v : Int) : preferredSign v = if v < 0 then 0xD else 0xC := rfl

theorem preferredSign_eq_D_iff : preferredSign v = 0xD ↔ v < 0 := by
  rw [preferredSign_eq]
  split <;> simp [*]

theorem signNib_encodeField (v : Int) (h : 1 ≤ len) : signNib (encodeField v len) = preferredSign v :=
  signNib_packField _ _ h

/-- The magnitude of the written field is what its digits hold of the value's. -/
theorem fieldMagnitude_encodeField (v : Int) (len : Nat) :
    fieldMagnitude (encodeField v len) = v.natAbs % 10 ^ capacity len := by
  rw [encodeField, fieldMagnitude_packField, Nat.mod_mod]

/-- A value other than zero whose digits in the field are all zero does not fit. -/
theorem encodeOverflow_of_mod_eq_zero (hv : v ≠ 0) (h : v.natAbs % 10 ^ capacity len = 0) :
    encodeOverflow v len = true :=
  encodeOverflow_eq_true_iff.2 (Nat.le_of_dvd (Int.natAbs_pos.2 hv) (Nat.dvd_of_mod_eq_zero h))

theorem read_packedEncode_outside (m : Memory) (v : Int) (h : b < a ∨ a + len ≤ b) :
    (packedEncode m v a len).read b = m.read b :=
  (packedEncode_touches m v a len).frame b (by rw [Window.holds_mk]; omega)

/-- Encode then decode, for a value that fits (R67). -/
theorem packedDecode_packedEncode_of_fits (m : Memory) (a : Nat) (hlen : 1 ≤ len) (h : encodeOverflow v len = false) :
    packedDecode (packedEncode m v a len) a len = some v := by
  rw [packedDecode_packedEncode m v a hlen, Nat.mod_eq_of_lt (encodeOverflow_eq_false_iff.1 h)]
  congr 1
  split <;> omega

/-! ## The fields decode refuses (R61) -/

theorem packedDecode_eq_none_iff :
    packedDecode m a len = none ↔
      (∃ p < capacity len, 9 < (nib (m.readBytes a len) p).toNat) ∨ (signNib (m.readBytes a len)).toNat < 10 := by
  rw [packedDecode_eq_none, packedIsValid, ← Bool.not_eq_true, fieldValid_iff, Memory.length_readBytes]
  simp only [not_and_or, not_forall, not_le, exists_prop]

/-! ## Unpack on windows that are apart (R68)

The zoned window is the n + 1 bytes at b, the source the k + 1 bytes at a. -/

/-- A store outside the source leaves its digits. -/
theorem unpackDigit_write {x : Nat} (w : Byte) (h : x < a ∨ a + k ≤ x) :
    unpackDigit (mem.write x w) a k r = unpackDigit mem a k r := by
  rw [unpackDigit, unpackDigit, fromRight_write _ w h]

/-- Two digits further left, with a byte more on the right. -/
theorem unpackDigit_succ_add_two (mem : Memory) (a k r : Nat) :
    unpackDigit mem a (k + 1) (r + 2) = unpackDigit mem a k r := by
  rw [unpackDigit, unpackDigit, Nat.add_mod_right, Nat.add_div_right r (by decide), fromRight_succ]

/-- The source's rightmost nibble is its sign (R59). -/
theorem unpackDigit_zero (mem : Memory) (a k : Nat) :
    unpackDigit mem a (k + 1) 0 = signNib (mem.readBytes a (k + 1)) := by
  rw [signNib_readBytes _ _ (Nat.succ_pos k)]
  rfl

theorem unpackZoned_read_apart (h : a + (k + 1) ≤ b ∨ b + (n + 1) ≤ a) (hr : r ≤ n) :
    (unpackZoned mem a (k + 1) b (n + 1) fill keep).1.read (b + (n - r)) =
      mkByte (if r = 0 ∧ keep = true then unpackDigit mem a (k + 1) 0 else fill) (unpackDigit mem a (k + 1) (r + 1)) := by
  cases r with
  | zero =>
    have first : (unpackZoned mem a (k + 1) b (n + 1) fill keep).1.read (b + n) =
        mkByte (if keep then loNib (mem.read (a + k)) else fill) (hiNib (mem.read (a + k))) :=
      ((unpackLoop_touches a b fill n k none _).frame _ (by rw [Window.holds_mk]; omega)).trans
        (Memory.read_write_same _ _ _)
    rw [Nat.sub_zero, first]
    simp [unpackDigit, fromRight_zero]
  | succ r =>
    rw [show n - (r + 1) = n - 1 - r by omega, if_neg (by simp), unpackDigit_succ_add_two]
    exact (unpackLoop_read (by omega) (by omega)).trans (congrArg _ (unpackDigit_write _ (by omega)))

end Sys2Proof.Machine

namespace Sys2Proof

open Machine

/-- Settles O21: a number is below 10^N exactly when it has at most N digits. -/
theorem fitIsTheDigitCount : Obligations.FitIsTheDigitCount := fun _ _ =>
  encodeOverflow_eq_false_iff.trans (Nat.digits_length_le_iff (by decide) _).symm

/-- Settles O22: of a value that fits, the field keeps every digit. -/
theorem packedRoundTrip : Obligations.PackedRoundTrip := by
  intro m v a len hlen hdigits
  have hfits := (fitIsTheDigitCount v len).2 hdigits
  exact ⟨hfits, packedDecode_packedEncode_of_fits m a hlen hfits⟩

/-- Settles O23: the sign is that of the value itself, and a negative value is not zero, so zero digits are cut ones. -/
theorem encodedSignIsPreferred : Obligations.EncodedSignIsPreferred := by
  intro m v a len hlen field
  have hsign : signNib field = preferredSign v := by
    rw [← signNib_encodeField v hlen, ← readBytes_packedEncode m v a len]
  have hmag : fieldMagnitude field = v.natAbs % 10 ^ capacity len := by
    rw [← fieldMagnitude_encodeField, ← readBytes_packedEncode m v a len]
  rw [hsign, hmag, preferredSign_eq_D_iff]
  exact ⟨preferredSign_eq v, and_comm, fun hzero hneg => encodeOverflow_of_mod_eq_zero hneg.ne hzero⟩

/-- Settles O24: what validity asks of each nibble, negated, and the bound of a valid field's magnitude. -/
theorem decodeRejectsExactlyMalformedFields : Obligations.DecodeRejectsExactlyMalformedFields :=
  fun _ _ _ _ => ⟨packedDecode_eq_none_iff, fun _ hv => Nat.le_pred_of_lt (natAbs_lt_of_packedDecode hv)⟩

/-- Settles O25: encode and unpack touch their window only, and unpack keeps two memories in agreement. -/
theorem codecStaysInItsWindows : Obligations.CodecStaysInItsWindows := by
  refine ⟨fun m v _ _ _ => read_packedEncode_outside m v, fun m ap lp az lz b fill keep hlz hb => ?_,
    fun m m' ap lp az lz fill keep hlp hlz hagree => ?_⟩
  · exact (unpackZoned_touches m ap lp az lz fill keep hlz).frame b (by rw [Window.holds_mk]; omega)
  · obtain ⟨hsign, hbytes⟩ := Agree.unpackZoned (az := az) (fill := fill) (keep := keep) hagree hlp hlz
      fun b h1 h2 => Or.inl ⟨h1, h2⟩
    exact ⟨hsign, fun b h1 h2 => hbytes b (Or.inr ⟨h1, h2⟩)⟩

/-- Settles O26: no store of unpack reaches a source byte of a window apart, so each zoned byte takes its digit as it
was. -/
theorem unpackPlacesTheDigits : Obligations.UnpackPlacesTheDigits := by
  intro m ap lp az lz fill keep hlp hlz hapart
  refine ⟨(signNib_readBytes m ap hlp).symm, fun r hr => ?_⟩
  obtain ⟨k, rfl⟩ := Nat.exists_eq_add_of_le' hlp
  obtain ⟨n, rfl⟩ := Nat.exists_eq_add_of_le' hlz
  rw [Nat.add_sub_cancel, unpackZoned_read_apart hapart (Nat.le_of_lt_succ hr), unpackDigit_zero,
    unpackDigit_eq_nibFromRight, nibFromRight, Memory.length_readBytes,
    show 2 * (k + 1) - 1 - (r + 1) = 2 * (k + 1) - 2 - r by omega,
    if_congr (show r + 1 < 2 * (k + 1) ↔ r ≤ 2 * (k + 1) - 2 by omega) rfl rfl]

/-- Settles O53: the field read back is the one encode writes, digit by digit and with its sign. -/
theorem encodePlacesTheDigits : Obligations.EncodePlacesTheDigits := by
  intro m v a len hlen after t
  have hfield : after.readBytes a len = encodeField v len := readBytes_packedEncode m v a len
  refine ⟨hfield, fun p hp => ?_, ?_, fun _ => read_packedEncode_outside m v, encodeOverflow_eq_true_iff⟩
  · rw [nibbleAt_eq (len := len) (by omega), hfield, encodeField, nib_packField_digit _ _ _ _ hp, capacity,
      show 2 * len - 1 - 1 - p = 2 * len - 2 - p by omega]
  · rw [nibbleAt_sign hlen, hfield, signNib_encodeField v hlen, preferredSign_eq, apply_ite BitVec.toNat]
    rfl

end Sys2Proof
end

section
/-! The statements about the decimal operations (R70 to R75, R79): what AP, SP and ZAP store, what CP compares, and DATA
for an operand that does not decode. -/

namespace Sys2Proof.Machine

variable {s : State} {a1 a2 : Addr} {l1 : Len1} {l2 : Len2} {sh : ShiftField} {i3 : Nibble} {cc : CondCode}

/-! ## Inside the interface: what AP, SP, CP and ZAP do with their operands -/

section
variable (hr : refusalTwoFields s a1 l1 a2 l2 = none)
include hr

theorem exec_ap_of_fields :
    exec (.ap a1 l1 a2 l2 cc) s = withDecoded s cc a1 l1 a2 l2 fun v1 v2 => storeArith s a1 l1 (v1 + v2) := by
  rw [exec, execAp, hr, unlessRefused_none]

theorem exec_sp_of_fields :
    exec (.sp a1 l1 a2 l2 cc) s = withDecoded s cc a1 l1 a2 l2 fun v1 v2 => storeArith s a1 l1 (v1 - v2) := by
  rw [exec, execSp, hr, unlessRefused_none]

theorem exec_cp_of_fields :
    exec (.cp a1 l1 a2 l2 cc) s = withDecoded s cc a1 l1 a2 l2 fun v1 v2 => complete s s.mem (ccCompare v1 v2) := by
  rw [exec, execCp, hr, unlessRefused_none]

theorem exec_zap_of_fields :
    exec (.zap a1 l1 a2 l2 cc) s = withDecoded s cc a1 l1 a2 l2 fun _ v2 => storeArith s a1 l1 v2 := by
  rw [exec, execZap, hr, unlessRefused_none]

/-- With legal lengths DP decodes its operands next (R79). -/
theorem exec_dp_of_legal (hl : illegalLengths l1 l2 = false) :
    exec (.dp a1 l1 a2 l2 cc) s =
      withDecoded s cc a1 l1 a2 l2 fun v1 v2 =>
        if v2 = 0 then raise s .decimalDivide cc
        else if quotientOverflow (v1.tdiv v2) l1 l2 then raise s .decimalDivide cc
        else complete s (storeQuotient s.mem (v1.tdiv v2) (v1.tmod v2) a1 l1 l2) cc := by
  rw [exec, execDp, hr, unlessRefused_none, hl, if_neg Bool.false_ne_true]

/-- With legal lengths and leading zero bytes MP decodes its operands next (R79). -/
theorem exec_mp_of_legal (hl : illegalLengths l1 l2 = false) (hz : leadingNonzero s.mem a1.toNat l2.toNat = false) :
    exec (.mp a1 l1 a2 l2 cc) s =
      withDecoded s cc a1 l1 a2 l2 fun v1 v2 => complete s (packedEncode s.mem (v1 * v2) a1.toNat l1.toNat) cc := by
  rw [exec, execMp, hr, unlessRefused_none, hl, hz, if_neg Bool.false_ne_true, if_neg Bool.false_ne_true]

end

/-! ## The checks before decoding (R76, R77) -/

theorem illegalLengths_eq_false_iff : illegalLengths l1 l2 = false ↔ l2.toNat ≤ 8 ∧ l2.toNat < l1.toNat := by
  rw [illegalLengths, decide_eq_false_iff_not, not_or, not_lt, not_le]

theorem leadingNonzero_eq_false_iff {m : Memory} {a n : Nat} :
    leadingNonzero m a n = false ↔ ∀ j < n, m.read (a + j) = 0 := by
  rw [leadingNonzero, List.any_eq_false, List.forall_mem_iff_forall_getElem]
  simp [Memory.getElem_readBytes]

/-! ## One operand that does not decode (R94, R95) -/

theorem exec_cvb_of_decode_none (hin : (Instr.cvb a2 cc).InsideInterface s.cfg)
    (h : packedDecode s.mem a2.toNat 8 = none) : exec (.cvb a2 cc) s = .next (s.raised .data cc) := by
  have hr : refusalConvert s a2 = none := (refusalBefore_eq_none (.cvb a2 cc) s).2 hin
  rw [exec, execCvb, hr, unlessRefused_none, h, raise_eq]

/-- SRP raises DATA for its operand and for its rounding digit alike. -/
theorem exec_srp_data (hin : (Instr.srp a1 l1 sh i3 cc).InsideInterface s.cfg)
    (h : packedDecode s.mem a1.toNat l1.toNat = none ∨ 9 < i3.toNat) :
    exec (.srp a1 l1 sh i3 cc) s = .next (s.raised .data cc) := by
  have hr : refusalOneField s a1 l1 = none := (refusalBefore_eq_none (.srp a1 l1 sh i3 cc) s).2 hin
  rw [packedDecode_eq_none] at h
  rw [exec, execSrp, hr, unlessRefused_none]
  cases hvalid : packedIsValid s.mem a1.toNat l1.toNat with
  | false => rfl
  | true =>
    have hdigit : 9 < i3.toNat := h.resolve_left (by rw [hvalid]; decide)
    rw [if_neg (by decide), if_pos hdigit, raise_eq]

/-! ## What AP, SP and ZAP store (R71) -/

theorem ccArith_eq (r : Int) (len : Nat) :
    ccArith r (encodeOverflow r len) =
      if 10 ^ capacity len ≤ r.natAbs then 3 else if r = 0 then 0 else if r < 0 then 1 else 2 := by
  rw [ccArith, if_congr encodeOverflow_eq_true_iff rfl rfl, ccSign]

theorem storeArith_eq (r : Int) : storeArith s a1 l1 r = .next (arithAnswer s a1 l1 r) := by
  rw [storeArith, ccArith_eq]
  rfl

/-- The field of an answer decodes to the digits that fit, with the result's sign (R64, R71). -/
theorem packedDecode_arithAnswer (hlen : 1 ≤ l1.toNat) (r : Int) :
    packedDecode (arithAnswer s a1 l1 r).mem a1.toNat l1.toNat = some (truncatedValue r l1.toNat) := by
  refine (packedDecode_packedEncode s.mem r a1.toNat hlen).trans (congrArg some ?_)
  rw [truncatedValue, capacity]
  split
  · rw [neg_one_mul]
  · rw [one_mul]

end Sys2Proof.Machine

namespace Sys2Proof

open Machine

/-- Settles O27: both operands are decoded before the store, so the answer is one store of the result and its code. -/
theorem arithmeticResults : Obligations.ArithmeticResults := by
  intro a1 l1 a2 l2 cc s v1 v2 hin h1 h2
  obtain ⟨hlengths, -⟩ := Bool.and_eq_true_iff.1 hin.lengths
  have hr : refusalTwoFields s a1 l1 a2 l2 = none := (refusalBefore_eq_none (.ap a1 l1 a2 l2 cc) s).2 hin
  rw [exec_ap_of_fields hr, exec_sp_of_fields hr, exec_zap_of_fields hr, withDecoded_some h1 h2,
    withDecoded_some h1 h2, withDecoded_some h1 h2]
  exact ⟨storeArith_eq _, storeArith_eq _, storeArith_eq _, packedDecode_arithAnswer (of_decide_eq_true hlengths).1⟩

/-- Settles O28: CP completes with the memory it read and the code of the comparison. -/
theorem compareResults : Obligations.CompareResults := by
  intro a1 l1 a2 l2 cc s hin
  have hr : refusalTwoFields s a1 l1 a2 l2 = none := (refusalBefore_eq_none (.cp a1 l1 a2 l2 cc) s).2 hin
  rw [exec_cp_of_fields hr]
  refine ⟨⟨congrArg Request.op (Request.ofWord_toWord (Instr.cp a1 l1 a2 l2 cc).toRequest), rfl⟩,
    fun v1 v2 h1 h2 => ?_, withDecoded_none⟩
  rw [withDecoded_some h1 h2]
  rfl

/-- Settles O29: the two-operand meanings come to decoding once the checks R79 puts before it have passed. -/
theorem malformedOperandsRaiseData : Obligations.MalformedOperandsRaiseData := by
  intro a1 l1 a2 l2 sh i3 cc s dataAnswer
  refine ⟨fun hin hbad => ?_, exec_cvb_of_decode_none, exec_srp_data⟩
  have hr : refusalTwoFields s a1 l1 a2 l2 = none := (refusalBefore_eq_none (.ap a1 l1 a2 l2 cc) s).2 hin
  have hdata (k : Int → Int → Result) : withDecoded s cc a1 l1 a2 l2 k = dataAnswer := withDecoded_none hbad
  refine ⟨(exec_ap_of_fields hr).trans (hdata _), (exec_sp_of_fields hr).trans (hdata _),
    (exec_cp_of_fields hr).trans (hdata _), (exec_zap_of_fields hr).trans (hdata _), fun h8 hlt => ?_⟩
  have hl : illegalLengths l1 l2 = false := illegalLengths_eq_false_iff.2 ⟨h8, hlt⟩
  exact ⟨(exec_dp_of_legal hr hl).trans (hdata _), fun hzero =>
    (exec_mp_of_legal hr hl (leadingNonzero_eq_false_iff.2 hzero)).trans (hdata _)⟩

end Sys2Proof
end

section
/-! The statements about multiply and divide (R76 to R79): the checks before decoding, the product that always fits, and
the quotient and the remainder in their two fields. -/

namespace Sys2Proof.Machine

variable {s : State} {a1 a2 : Addr} {l1 : Len1} {l2 : Len2} {cc : CondCode} {m : Memory} {v v1 v2 : Int} {a len n : Nat}

/-! ## The checks before decoding (R76, R77) -/

theorem illegalLengths_eq_true_iff : illegalLengths l1 l2 = true ↔ 8 < l2.toNat ∨ l1.toNat ≤ l2.toNat :=
  decide_eq_true_iff

theorem leadingNonzero_eq_true_iff : leadingNonzero m a n = true ↔ ∃ j < n, m.read (a + j) ≠ 0 := by
  rw [← Bool.not_eq_false, leadingNonzero_eq_false_iff]
  simp only [not_forall, exists_prop, ne_eq]

theorem zeroCheckCode_eq (z : ZeroCheckExc) :
    zeroCheckCode z = if z = .specification then .specification else .data := by
  cases z <;> rfl

section
variable (hr : refusalTwoFields s a1 l1 a2 l2 = none)
include hr

theorem exec_mp_of_illegal (hl : illegalLengths l1 l2 = true) :
    exec (.mp a1 l1 a2 l2 cc) s = .next (s.raised .specification cc) := by
  rw [exec, execMp, hr, unlessRefused_none, if_pos hl, raise_eq]

theorem exec_dp_of_illegal (hl : illegalLengths l1 l2 = true) :
    exec (.dp a1 l1 a2 l2 cc) s = .next (s.raised .specification cc) := by
  rw [exec, execDp, hr, unlessRefused_none, if_pos hl, raise_eq]

/-- With legal lengths MP looks at the leading bytes before it decodes (R79). -/
theorem exec_mp_of_leadingNonzero (hl : illegalLengths l1 l2 = false)
    (hz : leadingNonzero s.mem a1.toNat l2.toNat = true) :
    exec (.mp a1 l1 a2 l2 cc) s = .next (s.raised (zeroCheckCode s.cfg.mpZeroCheck) cc) := by
  rw [exec, execMp, hr, unlessRefused_none, hl, if_neg Bool.false_ne_true, if_pos hz, raise_eq]

end

/-! ## The product fits (R77) -/

/-- Behind k leading zeros, n digits spell a number below 10^n. -/
theorem decimalValue_lt_of_leading_zeros {d : Nat → Nat} {k n : Nat} (hzero : ∀ p < k, d p = 0)
    (hd : ∀ p < k + n, d p ≤ 9) : decimalValue d (k + n) < 10 ^ n := by
  induction n with
  | zero =>
    have hsum : decimalValue d k = 0 := by
      refine List.sum_eq_zero fun x hx => ?_
      obtain ⟨p, hp, rfl⟩ := List.mem_map.1 hx
      rw [hzero p (List.mem_range.1 hp), Nat.zero_mul]
    rw [Nat.add_zero, hsum, pow_zero]
    exact Nat.one_pos
  | succ n ih =>
    have hfront := ih fun p hp => hd p (by omega)
    have hlast := hd (k + n) (by omega)
    rw [← Nat.add_assoc, decimalValue_succ, pow_succ]
    omega

/-- Each leading zero byte takes two digits from a decoded value. -/
theorem natAbs_lt_of_leading_zeros (h : packedDecode m a len = some v) (hn : n < len)
    (hzero : ∀ j < n, m.read (a + j) = 0) : v.natAbs < 10 ^ (capacity len - 2 * n) := by
  obtain ⟨hvalid, rfl⟩ := packedDecode_eq_some.1 h
  obtain ⟨hdigits, -⟩ := (fieldValid_iff _).1 hvalid
  have hsplit : capacity len = 2 * n + (capacity len - 2 * n) := by rw [capacity]; omega
  have hlead (p : Nat) (hp : p < 2 * n) : (nib (m.readBytes a len) p).toNat = 0 := by
    rw [nib_readBytes m a len p (by omega), hzero (p / 2) (by omega)]
    split <;> rfl
  rw [Memory.length_readBytes, hsplit] at hdigits
  rw [natAbs_fieldValue, fieldMagnitude_eq_decimalValue, Memory.length_readBytes, hsplit, Nat.add_sub_cancel_left]
  exact decimalValue_lt_of_leading_zeros hlead hdigits

/-- With as many leading zero bytes as the multiplier has bytes, the product fits operand 1 (R77). -/
theorem encodeOverflow_mul_of_leading_zeros {b : Nat} (h1 : packedDecode m a len = some v1)
    (h2 : packedDecode m b n = some v2) (hn : n < len) (hzero : ∀ j < n, m.read (a + j) = 0) :
    encodeOverflow (v1 * v2) len = false := by
  rw [encodeOverflow_eq_false_iff, Int.natAbs_mul]
  calc v1.natAbs * v2.natAbs
      < 10 ^ (capacity len - 2 * n) * 10 ^ capacity n :=
        Nat.mul_lt_mul'' (natAbs_lt_of_leading_zeros h1 hn hzero) (natAbs_lt_of_packedDecode h2)
    _ = 10 ^ (capacity len - 2 * n + capacity n) := (pow_add ..).symm
    _ ≤ 10 ^ capacity len := Nat.pow_le_pow_right (by decide) (by simp only [capacity]; omega)

/-! ## Truncated division (R9) -/

/-- The quotient of the magnitudes, with the product of the signs. -/
theorem tdiv_eq_sign_mul (v1 v2 : Int) :
    v1.tdiv v2 = v1.sign * v2.sign * ((v1.natAbs / v2.natAbs : Nat) : Int) := by
  rw [← Int.sign_mul_natAbs (v1.tdiv v2), Int.sign_tdiv, Int.natAbs_tdiv]
  split
  · rw [Nat.div_eq_of_lt ‹_›, zero_mul, Nat.cast_zero, mul_zero]
  · rfl

theorem tmod_eq_zero_or_sign (v1 v2 : Int) : v1.tmod v2 = 0 ∨ (v1.tmod v2).sign = v1.sign := by
  rw [← Int.sign_eq_zero_iff_zero, Int.sign_tmod]
  split
  · exact Or.inl rfl
  · exact Or.inr rfl

theorem natAbs_tmod_lt (v1 : Int) (h : v2 ≠ 0) : (v1.tmod v2).natAbs < v2.natAbs := by
  rw [Int.natAbs_tmod]
  exact Nat.mod_lt _ (Int.natAbs_pos.2 h)

/-- A remainder fits the divisor's field (R78). -/
theorem encodeOverflow_tmod (v1 : Int) (h : packedDecode m a len = some v2) (hne : v2 ≠ 0) :
    encodeOverflow (v1.tmod v2) len = false :=
  encodeOverflow_eq_false_iff.2 ((natAbs_tmod_lt v1 hne).trans (natAbs_lt_of_packedDecode h))

/-- The quotient leaves its field by its digits (R65, R78). -/
theorem quotientOverflow_eq_false_iff :
    quotientOverflow (v1.tdiv v2) l1 l2 = false ↔
      (Nat.digits 10 (v1.natAbs / v2.natAbs)).length ≤ 2 * (l1.toNat - l2.toNat) - 1 := by
  rw [quotientOverflow, fitIsTheDigitCount, Int.natAbs_tdiv]
  rfl

theorem quotientOverflow_eq_true_iff :
    quotientOverflow (v1.tdiv v2) l1 l2 = true ↔
      2 * (l1.toNat - l2.toNat) - 1 < (Nat.digits 10 (v1.natAbs / v2.natAbs)).length := by
  rw [← Bool.not_eq_false, quotientOverflow_eq_false_iff, not_le]

/-! ## What DP stores (R78) -/

/-- A field that holds the encoding of a value that fits decodes to it (R67). -/
theorem packedDecode_of_encoded (hfield : m.readBytes a len = encodeField v len) (hlen : 1 ≤ len)
    (hfits : encodeOverflow v len = false) : packedDecode m a len = some v := by
  rw [← packedDecode_packedEncode_of_fits m a hlen hfits, packedDecode, packedDecode, packedIsValid, packedIsValid,
    hfield, readBytes_packedEncode]

/-- Its last nibble is D for a negative value, else C (R66). -/
theorem nibbleAt_sign_of_encoded (hfield : m.readBytes a len = encodeField v len) (hlen : 1 ≤ len) :
    nibbleAt m a (2 * len - 1) = if v < 0 then 0xD else 0xC := by
  rw [nibbleAt_sign hlen, hfield, signNib_encodeField v hlen, preferredSign_eq, apply_ite BitVec.toNat]
  rfl

/-- The remainder is stored beyond the quotient's field. -/
theorem readBytes_storeQuotient_left (m : Memory) (q r : Int) (a1 : Addr) (l1 : Len1) (l2 : Len2) :
    (storeQuotient m q r a1 l1 l2).readBytes a1.toNat (l1.toNat - l2.toNat) =
      encodeField q (l1.toNat - l2.toNat) :=
  (Memory.readBytes_congr fun _ _ => read_packedEncode_outside _ r (by omega)).trans
    (readBytes_packedEncode m q _ _)

theorem readBytes_storeQuotient_right (m : Memory) (q r : Int) (a1 : Addr) (l1 : Len1) (l2 : Len2) :
    (storeQuotient m q r a1 l1 l2).readBytes (a1.toNat + (l1.toNat - l2.toNat)) l2.toNat = encodeField r l2.toNat :=
  readBytes_packedEncode _ r _ _

/-- DP on two operands that decode: DECIMAL_DIVIDE for a zero divisor or a quotient that does not fit, else the quotient
and the remainder. -/
theorem exec_dp_of_decode (hin : (Instr.dp a1 l1 a2 l2 cc).InsideInterface s.cfg) (h8 : l2.toNat ≤ 8)
    (hlt : l2.toNat < l1.toNat) (h1 : packedDecode s.mem a1.toNat l1.toNat = some v1)
    (h2 : packedDecode s.mem a2.toNat l2.toNat = some v2) :
    exec (.dp a1 l1 a2 l2 cc) s =
      if v2 = 0 ∨ 2 * (l1.toNat - l2.toNat) - 1 < (Nat.digits 10 (v1.natAbs / v2.natAbs)).length then
        .next (s.raised .decimalDivide cc)
      else .next (s.completed (storeQuotient s.mem (v1.tdiv v2) (v1.tmod v2) a1 l1 l2) cc) := by
  have hr : refusalTwoFields s a1 l1 a2 l2 = none := (refusalBefore_eq_none (.dp a1 l1 a2 l2 cc) s).2 hin
  rw [exec_dp_of_legal hr (illegalLengths_eq_false_iff.2 ⟨h8, hlt⟩), withDecoded_some h1 h2, ite_or,
    if_congr quotientOverflow_eq_true_iff rfl rfl]
  rfl

end Sys2Proof.Machine

namespace Sys2Proof

open Machine

/-- Settles O32: the leading zero bytes leave room for the multiplier's digits. -/
theorem multiplyStoresTheExactProduct : Obligations.MultiplyStoresTheExactProduct := by
  intro a1 l1 a2 l2 cc s v1 v2 hin h8 hlt hzero h1 h2
  have hr : refusalTwoFields s a1 l1 a2 l2 = none := (refusalBefore_eq_none (.mp a1 l1 a2 l2 cc) s).2 hin
  rw [exec_mp_of_legal hr (illegalLengths_eq_false_iff.2 ⟨h8, hlt⟩) (leadingNonzero_eq_false_iff.2 hzero),
    withDecoded_some h1 h2]
  exact ⟨rfl, packedDecode_packedEncode_of_fits s.mem a1.toNat (Nat.zero_lt_of_lt hlt)
    (encodeOverflow_mul_of_leading_zeros h1 h2 hlt hzero)⟩

/-- Settles O33: the quotient fits by hypothesis and the remainder because it is smaller than the divisor, so each field
decodes to what was encoded there. -/
theorem divideStoresQuotientAndRemainder : Obligations.DivideStoresQuotientAndRemainder := by
  intro a1 l1 a2 l2 cc s v1 v2 hin h8 hlt h1 h2 hne hdigits
  have hleft := readBytes_storeQuotient_left s.mem (v1.tdiv v2) (v1.tmod v2) a1 l1 l2
  have hright := readBytes_storeQuotient_right s.mem (v1.tdiv v2) (v1.tmod v2) a1 l1 l2
  have hlenL : 1 ≤ l1.toNat - l2.toNat := by omega
  have hlenR : 1 ≤ l2.toNat := (of_decide_eq_true (Bool.and_eq_true_iff.1 hin.lengths).2).1
  refine ⟨s.completed (storeQuotient s.mem (v1.tdiv v2) (v1.tmod v2) a1 l1 l2) cc, v1.tdiv v2, v1.tmod v2,
    ?_, rfl, rfl, rfl,
    packedDecode_of_encoded hleft hlenL (quotientOverflow_eq_false_iff.2 hdigits),
    packedDecode_of_encoded hright hlenR (encodeOverflow_tmod v1 h2 hne), hleft, hright,
    nibbleAt_sign_of_encoded hleft hlenL, nibbleAt_sign_of_encoded hright hlenR,
    (Int.mul_tdiv_add_tmod v1 v2).symm, natAbs_tmod_lt v1 hne, tmod_eq_zero_or_sign v1 v2, tdiv_eq_sign_mul v1 v2,
    fun b hb => (storeQuotient_touches s.mem _ _ a1 l1 l2 hlt).frame b ?_⟩
  · rw [exec_dp_of_decode hin h8 hlt h1 h2, if_neg (not_or.2 ⟨hne, not_lt.2 hdigits⟩)]
  · rw [windowOf, Window.holds_mk]
    omega

/-- Settles O34: DP's one other answer on operands that decode has no interruption code. -/
theorem decimalDivideConditions : Obligations.DecimalDivideConditions := by
  intro a1 l1 a2 l2 cc s v1 v2 hin h8 hlt h1 h2
  rw [exec_dp_of_decode hin h8 hlt h1 h2]
  split
  · exact iff_of_true rfl ‹_›
  · exact iff_of_false (fun h => nomatch congrArg State.response (Host.Outcome.next.inj h)) ‹_›

/-- Settles O30: both operations check their lengths before anything else. -/
theorem illegalLengthsRaiseSpecification : Obligations.IllegalLengthsRaiseSpecification := by
  intro a1 l1 a2 l2 cc s hin hlengths
  have hr : refusalTwoFields s a1 l1 a2 l2 = none := (refusalBefore_eq_none (.mp a1 l1 a2 l2 cc) s).2 hin
  have hl : illegalLengths l1 l2 = true := illegalLengths_eq_true_iff.2 hlengths
  exact ⟨exec_mp_of_illegal hr hl, exec_dp_of_illegal hr hl⟩

/-- Settles O31: MP's zero check comes before it decodes, and raises what the parameter names. -/
theorem multiplyNeedsLeadingZeroBytes : Obligations.MultiplyNeedsLeadingZeroBytes := by
  intro a1 l1 a2 l2 cc s hin h8 hlt hnonzero
  have hr : refusalTwoFields s a1 l1 a2 l2 = none := (refusalBefore_eq_none (.mp a1 l1 a2 l2 cc) s).2 hin
  rw [← zeroCheckCode_eq]
  exact exec_mp_of_leadingNonzero hr (illegalLengths_eq_false_iff.2 ⟨h8, hlt⟩) (leadingNonzero_eq_true_iff.2 hnonzero)

end Sys2Proof
end

section
/-! The statements about one pattern byte of an edit, the source digit it takes, and the two scans they settle: one stopped
by DATA, and one without selectors (R80 to R91). -/

namespace Sys2Proof.Machine

variable {s : State} {a1 a2 : Addr} {l1 : Len1} {reg : Word}
variable {cfg : Config} {a n memSize sp : Nat} {e : EditState} {p b : Byte}

/-! ## The pattern byte's class (R80) -/

theorem isSelector_iff : isSelector p = true ↔ p = 0x20 ∨ p = 0x21 := by
  rw [isSelector, Bool.or_eq_true, beq_iff_eq, beq_iff_eq]

theorem patternClass_message (hds : p ≠ 0x20) (hss : p ≠ 0x21) (hfs : p ≠ 0x22) : patternClass p = .message := by
  rw [patternClass, if_neg hds, if_neg hss, if_neg hfs]

theorem editByte_of_selector (h : e.mem.read (a + e.k) = 0x20 ∨ e.mem.read (a + e.k) = 0x21) :
    editByte cfg reg a e = editSelector cfg reg a (decide (e.mem.read (a + e.k) = 0x21)) e := by
  unfold editByte
  rcases h with h | h
  · rw [h]; rfl
  · rw [h]; rfl

theorem editByte_of_separator (h : e.mem.read (a + e.k) = 0x22) :
    editByte cfg reg a e = .more (editSeparator a e) := by
  unfold editByte
  rw [h]
  rfl

theorem editByte_of_message (h : patternClass (e.mem.read (a + e.k)) = .message) :
    editByte cfg reg a e = .more (editMessage a (e.mem.read (a + e.k)) e) := by
  unfold editByte
  rw [h]

/-- A message byte stays while significance is on, and becomes the fill byte while it is off (R87). -/
theorem read_editMessage (x : Nat) :
    (editMessage a (e.mem.read (a + e.k)) e).mem.read x =
      if x = a + e.k ∧ e.sig = false then e.fill else e.mem.read x := by
  rw [editMessage, Memory.read_write]
  by_cases hx : x = a + e.k
  · subst hx
    cases e.sig <;> simp
  · rw [if_neg hx, if_neg fun h => hx h.1]

/-! ## Taking a source digit (R83) -/

theorem nextDigit_of_low (h : e.half = .low b) : nextDigit memSize e = .more ⟨loNib b, none, e.sp + 1, .high⟩ := by
  rw [nextDigit, h]

theorem nextDigit_of_high (h : e.half = .high) (hin : e.sp < memSize) :
    nextDigit memSize e = digitOfByte (e.mem.read e.sp) e.sp := by
  rw [nextDigit, h]
  exact if_pos hin

theorem hiNib_eq_ofNat (b : Byte) : hiNib b = BitVec.ofNat 4 (b.toNat / 16) := by
  rw [← hiNib_toNat, BitVec.ofNat_toNat, BitVec.setWidth_eq]

theorem loNib_eq_ofNat (b : Byte) : loNib b = BitVec.ofNat 4 (b.toNat % 16) := by
  rw [← loNib_toNat, BitVec.ofNat_toNat, BitVec.setWidth_eq]

theorem digitOfByte_bad (h : 9 < b.toNat / 16) : digitOfByte b sp = .badDigit := by
  rw [digitOfByte, hiNib_toNat, if_pos h]

theorem digitOfByte_signed (hd : b.toNat / 16 ≤ 9) (hs : 9 < b.toNat % 16) :
    digitOfByte b sp = .more ⟨hiNib b, some (loNib b), sp + 1, .high⟩ := by
  rw [digitOfByte, hiNib_toNat, loNib_toNat, if_neg hd.not_gt, if_pos hs]

theorem digitOfByte_unsigned (hd : b.toNat / 16 ≤ 9) (hs : b.toNat % 16 ≤ 9) :
    digitOfByte b sp = .more ⟨hiNib b, none, sp, .low b⟩ := by
  rw [digitOfByte, hiNib_toNat, loNib_toNat, if_neg hd.not_gt, if_neg hs.not_gt]

/-! ## What a selector does with its digit (R84, R85, R88) -/

section Digit

variable (policy : MarkPolicy) (starter : Bool) (d : Nibble) (sign : Option Nibble)

/-- The zoned digit (R84). -/
theorem mkByte_zone : mkByte zone d = BitVec.ofNat 8 (0xF0 + d.toNat) := by
  revert d
  decide

/-- A plus sign clears significance; nothing else changes it (R85). -/
theorem signEffect_sig : (signEffect sign e).sig = (e.sig && !sign.any plusSign) := by
  cases sign with
  | none => simp [signEffect]
  | some c => cases hc : plusSign c <;> simp [signEffect, hc]

theorem any_plusSign : sign.any plusSign =
    (decide (sign = some 10) || decide (sign = some 12) || decide (sign = some 14) || decide (sign = some 15)) := by
  cases sign with
  | none => rfl
  | some c => simp only [Option.any_some, plusSign, Option.some.injEq, beq_eq_decide]

theorem editDigit_sig :
    (editDigit policy reg a starter d sign e).sig =
      ((e.sig || decide (d ≠ 0) || starter) && !sign.any plusSign) := by
  rw [editDigit, signEffect_sig]
  cases e.sig <;> by_cases hd : d = 0#4 <;> simp [hd]

theorem editDigit_fz :
    (editDigit policy reg a starter d sign e).fz = (e.fz && decide (d = 0)) := by
  rw [editDigit, signEffect_fz, beq_eq_decide]

/-- A selector that takes d records its address in the register: a mark event that the policy records (R88). -/
def recordsMark (policy : MarkPolicy) (d : Nibble) (e : EditState) : Bool :=
  !e.sig && decide (d ≠ 0) && (decide (policy = .everyStart) || e.armed)

theorem recordsMark_of_mark (hsig : e.sig = false) (hd : d ≠ 0) :
    recordsMark policy d e = (decide (policy = .everyStart) || e.armed) := by
  rw [recordsMark, hsig, decide_eq_true hd, Bool.not_false, Bool.true_and, Bool.true_and]

theorem recordsMark_of_not_mark (h : ¬ (e.sig = false ∧ d ≠ 0)) : recordsMark policy d e = false := by
  cases hsig : e.sig with
  | true => rw [recordsMark, hsig, Bool.not_true, Bool.false_and, Bool.false_and]
  | false => rw [recordsMark, decide_eq_false fun hd => h ⟨hsig, hd⟩, Bool.and_false, Bool.false_and]

theorem editDigit_reg_eq :
    (editDigit policy reg a starter d sign e).reg = if recordsMark policy d e then markReg reg a e.k else e.reg := by
  obtain ⟨hmark, hnone⟩ := editDigit_mark policy reg a starter d sign e
  by_cases h : e.sig = false ∧ d ≠ 0
  · rw [(hmark h).1, recordsMark_of_mark _ _ h.1 h.2]
    simp only [Bool.or_eq_true, decide_eq_true_eq]
  · rw [(hnone h).1, recordsMark_of_not_mark _ _ h]
    rfl

/-- Under FIRST_PER_FIELD a recorded mark disarms the next; an unarmed one stays so (R88). -/
theorem editDigit_armed :
    (editDigit policy reg a starter d sign e).armed =
      (e.armed && !(recordsMark policy d e && decide (policy = .firstPerField))) := by
  obtain ⟨hmark, hnone⟩ := editDigit_mark policy reg a starter d sign e
  by_cases h : e.sig = false ∧ d ≠ 0
  · rw [(hmark h).2, recordsMark_of_mark _ _ h.1 h.2, decide_not]
    cases e.armed <;> simp
  · rw [(hnone h).2, recordsMark_of_not_mark _ _ h, Bool.false_and, Bool.not_false, Bool.and_true]

end Digit

/-- A selector that takes a source digit goes on, with the digit edited (R84). -/
theorem editByte_of_digit {x : SourceDigit} (h : e.mem.read (a + e.k) = 0x20 ∨ e.mem.read (a + e.k) = 0x21)
    (hx : nextDigit cfg.memSize e = .more x) :
    editByte cfg reg a e =
      .more (editDigit cfg.markPolicy reg a (decide (e.mem.read (a + e.k) = 0x21)) x.digit x.sign
        { e with sp := x.sp, half := x.half }) := by
  rw [editByte_of_selector h, editSelector, hx]

/-! ## A scan stopped by DATA (R90) -/

/-- A pattern byte stops with DATA exactly when it is a selector and the source byte it reads has a high nibble above 9. -/
theorem editByte_eq_badDigit_iff :
    editByte cfg reg a e = .badDigit ↔
      isSelector (e.mem.read (a + e.k)) = true ∧ e.half = .high ∧ e.sp < cfg.memSize ∧
        9 < (e.mem.read e.sp).toNat / 16 := by
  constructor
  · intro h
    obtain ⟨hsel, hhalf, hin, hbad⟩ := editByte_badDigit h
    exact ⟨isSelector_iff.2 hsel, hhalf, hin, hiNib_toNat _ ▸ hbad⟩
  · rintro ⟨hsel, hhalf, hin, hbad⟩
    rw [editByte_of_selector (isSelector_iff.1 hsel), editSelector, nextDigit_of_high hhalf hin, digitOfByte_bad hbad]

/-- EDMK's scan stands at a selector whose source byte has a high nibble above 9 (R83, R90). -/
def BadDigitAt (s : State) (a1 : Addr) (l1 : Len1) (a2 : Addr) (reg : Word) (e : EditState) : Prop :=
  e.k < l1.toNat ∧ ScanReaches s a1 a2 reg e ∧ SelectorAt s a1 e.k ∧ e.half = .high ∧ e.sp < s.cfg.memSize ∧
    9 < (e.mem.read e.sp).toNat / 16

/-- A scan ends with DATA exactly where it comes to a selector that takes no digit. -/
theorem editLoop_eq_data_iff :
    editLoop s.cfg reg a1.toNat l1.toNat (editStart s.mem a1.toNat a2.toNat reg) = .data e ↔
      BadDigitAt s a1 l1 a2 reg e := by
  constructor
  · intro h
    obtain ⟨hlt, hreach, hbad⟩ := editLoop_data h
    simp only [editStart, Nat.zero_add, Nat.sub_zero] at hlt hreach
    obtain ⟨hsel, hsource⟩ := editByte_eq_badDigit_iff.1 hbad
    exact ⟨hlt, hreach, (scanReaches_selectorAt hreach).2 hsel, hsource⟩
  · rintro ⟨hlt, hreach, hsel, hsource⟩
    have hbad : editByte s.cfg reg a1.toNat e = .badDigit :=
      editByte_eq_badDigit_iff.2 ⟨(scanReaches_selectorAt hreach).1 hsel, hsource⟩
    obtain ⟨m, hm⟩ : ∃ m, l1.toNat = e.k + (m + 1) := ⟨l1.toNat - e.k - 1, by omega⟩
    rw [hm, editLoop_add hreach, editLoop, hbad]

/-! ## A scan without selectors (R91) -/

/-- With significance off, a byte that takes no digit becomes the fill byte, and the edit stays as it was but for the
position: significance off, field-zero on, the register unmarked (R86, R87). -/
theorem editByte_fills (h : isSelector (e.mem.read (a + e.k)) = false) (hsig : e.sig = false) (hfz : e.fz = true) :
    ∃ e', editByte cfg reg a e = .more e' ∧ e'.mem = e.mem.write (a + e.k) e.fill ∧ e'.sig = false ∧ e'.fz = true ∧
      e'.reg = e.reg := by
  unfold editByte
  rcases patternClass_not_selector h with hc | hc
  · rw [hc]
    exact ⟨_, rfl, rfl, rfl, rfl, rfl⟩
  · rw [hc]
    refine ⟨_, rfl, ?_, hsig, hfz, rfl⟩
    rw [editMessage, hsig]
    rfl

/-- A scan of bytes that take no digit, begun with significance off, fills them all. -/
theorem editLoop_fills (hcount : selectorCount e.mem (a + e.k) n = 0) (hsig : e.sig = false) (hfz : e.fz = true) :
    ∃ e', editLoop cfg reg a n e = .done e' ∧ e'.fz = true ∧ e'.reg = e.reg ∧
      ∀ x, e'.mem.read x = if a + e.k ≤ x ∧ x < a + e.k + n then e.fill else e.mem.read x := by
  induction n generalizing e with
  | zero => exact ⟨e, rfl, hfz, rfl, fun x => (if_neg (by omega)).symm⟩
  | succ n ih =>
    rw [selectorCount_succ] at hcount
    have hsel : isSelector (e.mem.read (a + e.k)) = false := by
      by_contra h
      rw [if_pos (Bool.not_eq_false _ ▸ h)] at hcount
      omega
    obtain ⟨e₁, h₁, hmem, hsig₁, hfz₁, hreg₁⟩ := editByte_fills (cfg := cfg) (reg := reg) hsel hsig hfz
    obtain ⟨_, hk, hfill, _⟩ := editByte_more h₁
    obtain ⟨e', hend, hfz', hreg', hread⟩ := ih (e := e₁) (by rw [editByte_later h₁]; omega) hsig₁ hfz₁
    refine ⟨e', by rw [editLoop, h₁]; exact hend, hfz', hreg'.trans hreg₁, fun x => ?_⟩
    rw [hread, hfill, hmem, hk, Memory.read_write]
    by_cases hx : x = a + e.k
    · rw [if_neg (by omega), if_pos hx, if_pos (by omega)]
    · rw [if_neg hx]
      exact if_congr (by omega) rfl rfl

end Sys2Proof.Machine

namespace Sys2Proof

open Machine

/-- Settles O45: the fields of a selector's edit, one lemma each. -/
theorem editSelectorTransition : Obligations.EditSelectorTransition := by
  intro cfg regIn a1 e x hsel hx starter shown marks plus
  refine ⟨_, editByte_of_digit hsel hx, ?_, ?_, editDigit_fz .., ?_, editDigit_armed .., editDigit_k .., editDigit_sp ..,
    editDigit_half .., editDigit_fill ..⟩
  · rw [editDigit_mem, mkByte_zone, bne, beq_eq_decide, ← decide_not]
  · rw [editDigit_sig, any_plusSign]
  · rw [editDigit_reg_eq, apply_ite BitVec.toNat, markReg_toNat]
    rfl

/-- Settles O46: the classes other than selectors take no source digit. -/
theorem editSeparatorAndMessage : Obligations.EditSeparatorAndMessage := by
  intro cfg regIn a1 e
  refine ⟨editByte_of_separator, fun hds hss hfs => ?_⟩
  have hmessage := editByte_of_message (cfg := cfg) (reg := regIn) (patternClass_message hds hss hfs)
  exact ⟨_, hmessage, read_editMessage, rfl, rfl, rfl, rfl, rfl, rfl, rfl, rfl⟩

/-- Settles O47: a byte just read gives its high nibble, and waits with its low one where that is a digit. -/
theorem editTakesSourceDigits : Obligations.EditTakesSourceDigits := by
  intro memSize e hhalf hin b
  rw [nextDigit_of_high hhalf hin, ← hiNib_eq_ofNat, ← loNib_eq_ofNat]
  refine ⟨digitOfByte_bad, digitOfByte_signed, fun hd hs => ?_⟩
  refine ⟨_, digitOfByte_unsigned hd hs, rfl, rfl, rfl, fun e' hhalf' hsp' => ?_⟩
  rw [nextDigit_of_low hhalf', hsp']

/-- Settles O49: the scan ends with DATA exactly where it comes to a bad digit, having left the pattern from there on. -/
theorem editDataStopsAtTheFault : Obligations.EditDataStopsAtTheFault := by
  intro a1 l1 a2 reg cc s stopsAt
  constructor
  · intro e hin hstop
    have hreach : ScanReaches s a1 a2 reg e := hstop.2.1
    exact ⟨(editStartsFresh a1 l1 a2 reg cc s hin).2.1 e (editLoop_eq_data_iff.2 hstop),
      fun j hj _ => scanReaches_frame hreach hj⟩
  · intro t r h hresp hic
    rcases execEdmk_next h with ⟨e, _, rfl⟩ | ⟨e, hend, rfl⟩
    · obtain rfl := Option.some.inj hresp
      cases hic
    · exact ⟨e, editLoop_eq_data_iff.1 hend, rfl⟩

/-- Settles O51: the scan fills the whole pattern and ends with field-zero on and the register unmarked. -/
theorem editWithoutSelectorsFills : Obligations.EditWithoutSelectorsFills := by
  intro a1 l1 a2 reg cc s hin hcount
  obtain ⟨e, hend, hfz, hreg, hread⟩ :=
    editLoop_fills (cfg := s.cfg) (reg := reg) (e := editStart s.mem a1.toNat a2.toNat reg) hcount rfl rfl
  refine ⟨_, (editStartsFresh a1 l1 a2 reg cc s hin).1 e hend, ?_, hread⟩
  rw [if_pos hfz, hreg]
  rfl

end Sys2Proof
end

section
/-! The bounds of SRP's right shift (R92): what is left of a magnitude no longer than the shift. -/

namespace Sys2Proof.Machine

variable {m k r : Nat}

/-- A magnitude with fewer digits than the shift has a zero at the leftmost position shifted out, so nothing carries. -/
theorem shiftRight_of_lt_pow_sub_one (hm : m < 10 ^ (k - 1)) : shiftRight m k r = 0 := by
  have hdigit : m / 10 ^ (k - 1) % 10 = 0 := by rw [Nat.div_eq_of_lt hm]
  have hquotient : m / 10 ^ k = 0 := Nat.div_eq_of_lt (hm.trans_le (Nat.pow_le_pow_right (by decide) (Nat.sub_le k 1)))
  rw [shiftRight, hdigit, hquotient, if_neg (by omega)]

/-- Of a magnitude with no more digits than the shift only the carry is left. -/
theorem shiftRight_le_one (hm : m < 10 ^ k) : shiftRight m k r ≤ 1 := by
  rw [shiftRight, Nat.div_eq_of_lt hm]
  split <;> decide

end Sys2Proof.Machine

namespace Sys2Proof

open Machine

/-- Settles O36: the carry is that of the sum, and a magnitude no longer than the shift leaves at most the carry. -/
theorem rightShiftRounds : Obligations.RightShiftRounds := by
  intro m k r hk hr
  have hsum : shiftRight m k r = (m + r * 10 ^ (k - 1)) / 10 ^ k := shiftRight_eq hk hr
  have hdigits (n : Nat) : (Nat.digits 10 m).length ≤ n ↔ m < 10 ^ n := Nat.digits_length_le_iff (by decide) m
  refine ⟨hsum, fun n _ hm => ?_, fun hlen => ?_, fun hlen => ?_⟩
  · rw [hsum]
    exact roundedQuotient_lt hk hr hm
  · exact shiftRight_of_lt_pow_sub_one ((hdigits _).1 (Nat.le_sub_one_of_lt hlen))
  · exact shiftRight_le_one ((hdigits _).1 hlen.le)

end Sys2Proof
end

section
/-! The statements about the binary conversions (R95, R96) and about UNPK undone by PACK (R98, R99). -/

namespace Sys2Proof.Machine

variable {s : State} {a2 : Addr} {val : Word} {cc cc' : CondCode} {cfg : Config} {v : Int}
variable {mem : Memory} {p z d k : Nat} {fill : Nibble}

/-! ## Conversion requests -/

/-- A request word carries its instruction's OP value (R47). -/
theorem encode_op (i : Instr) : (encode i).extractLsb' 152 8 = i.toRequest.op :=
  congrArg Request.op (Request.ofWord_toWord i.toRequest)

/-- CVD and CVB of one address lie inside the interface alike: both have the 8 bytes there as their one window (R34). -/
theorem cvb_inside_of_cvd (h : (Instr.cvd a2 val cc).InsideInterface cfg) :
    (Instr.cvb a2 cc').InsideInterface cfg :=
  ⟨rfl, h.windows, h.overlap⟩

/-! ## CVB and CVD inside the interface -/

/-- On a field that decodes CVB answers the low 32 bits, with FIXED_POINT_DIVIDE where they are not the whole value
(R95). -/
theorem exec_cvb_of_decode_some (hin : (Instr.cvb a2 cc).InsideInterface s.cfg)
    (h : packedDecode s.mem a2.toNat 8 = some v) :
    exec (.cvb a2 cc) s =
      .next (s.respond s.mem
        ⟨if outsideWord v then .fixedPointDivide else .none, cc, none, some (BitVec.ofInt 32 v)⟩) := by
  have hr : refusalConvert s a2 = none := (refusalBefore_eq_none (.cvb a2 cc) s).2 hin
  rw [exec, execCvb, hr, unlessRefused_none, h]
  dsimp only
  cases outsideWord v <;> rfl

theorem exec_cvd_of_inside (hin : (Instr.cvd a2 val cc).InsideInterface s.cfg) :
    exec (.cvd a2 val cc) s = .next (s.completed (packedEncode s.mem val.toInt a2.toNat 8) cc) := by
  have hr : refusalConvert s a2 = none := (refusalBefore_eq_none (.cvd a2 val cc) s).2 hin
  rw [exec, execCvd, hr, unlessRefused_none, complete_eq]

theorem outsideWord_eq_true_iff : outsideWord v = true ↔ v < -(2 ^ 31) ∨ 2 ^ 31 - 1 < v := decide_eq_true_iff

theorem toInt_mem_range (val : Word) : -(2 ^ 31) ≤ val.toInt ∧ val.toInt ≤ 2 ^ 31 - 1 :=
  ⟨BitVec.le_toInt val, Int.le_sub_one_of_lt (BitVec.toInt_lt (x := val))⟩

/-- Fifteen digits hold every 32-bit signed value (R96). -/
theorem encodeOverflow_toInt (val : Word) : encodeOverflow val.toInt 8 = false := by
  have hrange := toInt_mem_range val
  rw [encodeOverflow_eq_false_iff, capacity]
  omega

/-! ## PACK after UNPK -/

/-- Two fields of one length with the same nibbles are the same. -/
theorem field_ext_nibFromRight {f g : List Byte} (hlen : f.length = g.length)
    (h : ∀ r < 2 * f.length, nibFromRight f r = nibFromRight g r) : f = g := by
  have hnib : ∀ q < 2 * f.length, nib f q = nib g q := by
    intro q hq
    have hq' := h (2 * f.length - 1 - q) (by omega)
    rwa [nibFromRight, nibFromRight, ← hlen, show 2 * f.length - 1 - (2 * f.length - 1 - q) = q by omega] at hq'
  refine List.ext_getElem hlen fun j hf hg => ?_
  rw [← List.getD_eq_getElem f 0 hf, ← List.getD_eq_getElem g 0 hg]
  refine byte_ext ?_ ?_
  · rw [← nib_even, ← nib_even, hnib _ (by omega)]
  · rw [← nib_odd, ← nib_odd, hnib _ (by omega)]

/-- PACK of the 2k + 1 zoned bytes that UNPK made of k + 1 packed bytes: nibble r of the result is the low nibble of
zoned byte r − 1, which is nibble r of the source, and the sign is the zone of zoned byte 0. -/
theorem packMemory_unpackZoned (hunpk : p + k < z ∨ z + 2 * k < p) (hpack : z + 2 * k < d ∨ d + k < z) :
    (packMemory (unpackZoned mem p (k + 1) z (2 * k + 1) fill true).1 d (k + 1) z (2 * k + 1)).readBytes d (k + 1) =
      mem.readBytes p (k + 1) := by
  refine field_ext_nibFromRight (by simp) fun r hr => ?_
  rw [Memory.length_readBytes] at hr
  rw [packMemory_nibFromRight (by omega) hr, ← unpackDigit_of_lt hr]
  cases r with
  | zero =>
    have hfirst := unpackZoned_read_before (mem := mem) (fill := fill) (Or.inr hunpk) (Nat.zero_le (2 * k))
    rw [Nat.sub_zero, if_pos rfl] at hfirst
    rw [if_pos rfl, hfirst, hiNib_mkByte]
  | succ r =>
    rw [if_neg (Nat.succ_ne_zero r), Nat.add_sub_cancel, fromRight, if_pos (by omega), Nat.add_sub_cancel,
      unpackZoned_read_before (Or.inr hunpk) (by omega), loNib_mkByte]

end Sys2Proof.Machine

namespace Sys2Proof

open Machine

/-- Settles O38: decoding decides between DATA and a value, and the value's range between the two codes. -/
theorem convertToBinaryResults : Obligations.ConvertToBinaryResults := by
  intro a2 cc s hin
  refine ⟨⟨encode_op _, rfl⟩, fun v hdec => ?_, exec_cvb_of_decode_none hin⟩
  rw [exec_cvb_of_decode_some hin hdec]
  refine ⟨fun hrange => ?_, fun hrange => ?_⟩
  · rw [if_neg (mt outsideWord_eq_true_iff.1 (by omega))]
    rfl
  · rw [if_pos (outsideWord_eq_true_iff.2 hrange)]
    rfl

/-- Settles O39: CVD stores an encoding that has room for every 32-bit signed value. -/
theorem convertToDecimalResults : Obligations.ConvertToDecimalResults := by
  intro a2 val cc s hin
  have hfits := encodeOverflow_toInt val
  exact ⟨⟨encode_op _, rfl⟩, exec_cvd_of_inside hin, hfits,
    packedDecode_packedEncode_of_fits s.mem a2.toNat (by decide) hfits⟩

/-- Settles O40: the field CVD stored decodes to the value itself, which lies in CVB's range. -/
theorem binaryDecimalRoundTrip : Obligations.BinaryDecimalRoundTrip := by
  intro a2 val cc cc' s t h
  have hin : (Instr.cvd a2 val cc).InsideInterface s.cfg := inside_of_next h
  have hstored : t = s.completed (packedEncode s.mem val.toInt a2.toNat 8) cc := execCvd_next h
  have hdec : packedDecode t.mem a2.toNat 8 = some val.toInt := by
    rw [hstored]
    exact packedDecode_packedEncode_of_fits s.mem a2.toNat (by decide) (encodeOverflow_toInt val)
  have hcfg : t.cfg = s.cfg := by rw [hstored, completed_cfg]
  obtain ⟨_, hvalue, _⟩ := convertToBinaryResults a2 cc' t (hcfg ▸ cvb_inside_of_cvd hin)
  rw [(hvalue _ hdec).1 (toInt_mem_range val), BitVec.ofInt_toInt]

/-- Settles O44: UNPK spreads the nibbles of the packed field over the zoned bytes, and PACK collects them in order. -/
theorem packRestoresUnpackedField : Obligations.PackRestoresUnpackedField := by
  intro p z d lp lz lz' ld cc cc' s t u hlz hlz' hld hzp hdz ht hu
  obtain ⟨_, k, _, hk⟩ := exists_succ_of_isFieldLength (inside_of_next ht).lengths
  have h1 : lz.toNat = 2 * k + 1 := by omega
  have h2 : lz'.toNat = 2 * k + 1 := by omega
  have h3 : ld.toNat = k + 1 := by omega
  have hwindow : windowOf z lz = windowOf z lz' := congrArg (Window.mk z.toNat) hlz'.symm
  rw [execPack_next hu, execUnpk_next ht, completed_mem, completed_mem, h1, h2, h3, hk]
  exact packMemory_unpackZoned (apart_of_not_meets h1 hk hzp) (apart_of_not_meets h3 h2 (hwindow ▸ hdz))

end Sys2Proof
end

section
/-! The statements about exceptions (R100 to R106): the condition code and the interruption code an exception answers, and
the memory it leaves. -/

namespace Sys2Proof.Machine

variable {s t : State} {i : Instr} {r : Response}

/-- An exception answers the request's condition code (R105). -/
theorem Answers.cc_of_exception (h : Answers i r) (hic : r.ic ≠ .none) : r.cc = i.ccIn := by
  cases h with
  | raised | converted | editStopped => rfl
  | passed | computed | compared | edited => exact absurd rfl hic

/-- A response carries no code but those of the operation (R100). -/
theorem Answers.ic_none_or_mayRaise (h : Answers i r) : r.ic = .none ∨ r.ic ∈ i.mayRaise := by
  cases h with
  | raised code => exact Or.inr code
  | passed | computed | compared | edited => exact Or.inl rfl
  | converted _ code => exact code.imp_right fun hfix => by simp [hfix, Instr.mayRaise]
  | editStopped => exact Or.inr (by simp [Instr.mayRaise])

/-- An operation other than EDMK answers over the memory it found, or completes: it stores only when it completes
(R106). -/
theorem exec_keeps_mem_or_completes (h : exec i s = .next t) (hi : i.isEdmk = false) :
    (∃ r, t = s.respond s.mem r) ∨ ∃ m cc, t = s.completed m cc := by
  cases i with
  | ap => exact (execAp_next h).imp (⟨_, ·⟩) fun ⟨_, ht⟩ => ⟨_, _, ht⟩
  | sp => exact (execSp_next h).imp (⟨_, ·⟩) fun ⟨_, ht⟩ => ⟨_, _, ht⟩
  | cp => exact (execCp_next h).imp (⟨_, ·⟩) fun ⟨_, _, ht⟩ => ⟨_, _, ht⟩
  | zap => exact (execZap_next h).imp (⟨_, ·⟩) fun ⟨_, ht⟩ => ⟨_, _, ht⟩
  | mp =>
    rcases execMp_next h with ht | ht | ⟨_, ht⟩
    · exact Or.inl ⟨_, ht⟩
    · exact Or.inl ⟨_, ht⟩
    · exact Or.inr ⟨_, _, ht⟩
  | dp =>
    rcases execDp_next h with ht | ht | ht | ⟨_, _, _, ht⟩
    · exact Or.inl ⟨_, ht⟩
    · exact Or.inl ⟨_, ht⟩
    · exact Or.inl ⟨_, ht⟩
    · exact Or.inr ⟨_, _, ht⟩
  | edmk => cases hi
  | srp => exact (execSrp_next h).imp (⟨_, ·⟩) fun ⟨_, _, _, _, ht⟩ => ⟨_, _, ht⟩
  | cvb =>
    rcases execCvb_next h with ht | ⟨_, _, _, ht⟩
    · exact Or.inl ⟨_, ht⟩
    · exact Or.inl ⟨_, ht⟩
  | cvd => exact Or.inr ⟨_, _, execCvd_next h⟩
  | mvo => exact Or.inr ⟨_, _, execMvo_next h⟩
  | pack => exact Or.inr ⟨_, _, execPack_next h⟩
  | unpk => exact Or.inr ⟨_, _, execUnpk_next h⟩

end Sys2Proof.Machine

namespace Sys2Proof

open Machine

/-- Settles O14, by the kinds of response. -/
theorem exceptionsKeepTheConditionCode : Obligations.ExceptionsKeepTheConditionCode :=
  fun _ _ _ _ h hr hic => (answers_of_response h hr).cc_of_exception hic

/-- Settles O15: an operation other than EDMK that stored has completed, and a completion carries no interruption code. -/
theorem suppressingExceptionsLeaveMemory : Obligations.SuppressingExceptionsLeaveMemory := by
  intro i s t r h hr hic hi
  rcases exec_keeps_mem_or_completes h hi with ⟨r', rfl⟩ | ⟨m, cc, rfl⟩
  · exact State.respond_mem ..
  · obtain rfl : ⟨.none, cc, none, none⟩ = r := Option.some.inj hr
    exact absurd rfl hic

/-- Settles O16: the five values are those of the definition, and the codes go by the kinds of response. -/
theorem interruptionCodesPerOperation : Obligations.InterruptionCodesPerOperation :=
  ⟨⟨rfl, rfl, rfl, rfl, rfl⟩, fun _ _ _ _ h hr => (answers_of_response h hr).ic_none_or_mayRaise⟩

end Sys2Proof
end

section
/-! The statements about encodings read back: the request word of an instruction (R47, R51) and the bytes of a source
instruction (R53 to R57). Then those about a machine that nothing is asked of (R114, R116). -/

namespace Sys2Proof

variable {op : BitVec 8} {f : SourceFormat}

/-! ## The request word of an instruction -/

/-- The record read back from an instruction's request word, bits 59:28 under both their names, stands for the
instruction: the one name it uses is the one it was encoded under (R47). -/
theorem toInstr_readBack (i : Instr) :
    { i.toRequest with regIn := i.toRequest.sharedValue, valIn := i.toRequest.sharedValue : Request }.toInstr =
      .ok i := by
  cases i <;> rfl

/-! ## The bytes of a source instruction -/

/-- A base and displacement comes back from its two bytes. -/
theorem BaseDisp.ofBytes_toBytes (s : BaseDisp) :
    BaseDisp.ofBytes (s.b ++ s.d.extractLsb' 8 4) (s.d.extractLsb' 0 8) = s := by
  have hb : (s.b ++ s.d.extractLsb' 8 4).extractLsb' 4 4 = s.b := BitVec.extractLsb'_append_eq_left
  have hd : (s.b ++ s.d.extractLsb' 8 4).extractLsb' 0 4 ++ s.d.extractLsb' 0 8 = s.d := by
    rw [BitVec.extractLsb'_append_eq_right]
    exact BitVec.extractLsb'_append_extractLsb'
  rw [BaseDisp.ofBytes, hb, hd]

/-- Source bytes are read back under the format of their opcode. -/
theorem sourceDecode_sourceEncode {si : SourceInstr} (hf : sourceFormat si.op = some si.format) (rest : List Byte) :
    sourceDecode (sourceEncode si ++ rest) = some (si, rest) := by
  cases si
  all_goals
    simp only [SourceInstr.op, SourceInstr.format] at hf
    simp only [sourceEncode, BaseDisp.toBytes, List.cons_append, List.nil_append, sourceDecode, hf,
      BitVec.extractLsb'_append_eq_left, BitVec.extractLsb'_append_eq_right, BaseDisp.ofBytes_toBytes]

/-- The bytes of an instruction of that source format (R53 to R56). -/
def SourceFormat.length : SourceFormat → Nat
  | .rx => 4
  | .ssTwo | .ssOne | .ssSrp => 6

theorem length_sourceEncode (si : SourceInstr) : (sourceEncode si).length = si.format.length := by
  cases si <;> rfl

/-- The first two bits of an opcode tell the length of its format (R57). -/
theorem sourceLength_of_sourceFormat (h : sourceFormat op = some f) : sourceLength op = f.length := by
  have hall : ∀ op : BitVec 8, ∀ f ∈ sourceFormat op, sourceLength op = f.length := by decide
  exact hall op f h

/-! ## The idle step -/

/-- A step with no request pending changes nothing. -/
theorem Machine.step_of_idle {s : Machine.State} (h : s.request = none) : Machine.step s = .next s := by
  rw [Machine.step, h]

end Sys2Proof

namespace Sys2Proof

open Machine

/-- Settles O1: the record comes back from the word, and the instruction from the record. -/
theorem decodeInvertsEncode : Obligations.DecodeInvertsEncode := fun i =>
  (decode_toWord i.toRequest).trans (toInstr_readBack i)

/-- Settles O5: each format reads its own bytes, and their number is the one the opcode tells. -/
theorem sourceDecodeInvertsSourceEncode : Obligations.SourceDecodeInvertsSourceEncode := fun si rest hf =>
  ⟨sourceDecode_sourceEncode hf rest, (length_sourceEncode si).trans (sourceLength_of_sourceFormat hf).symm⟩

/-- Settles O8: a request is the first thing a step asks for. -/
theorem nothingStartsWithoutARequest : Obligations.NothingStartsWithoutARequest := fun _ => step_of_idle

/-- Settles O9, field by field, by the laws of the two resets. -/
theorem resetSetsNothingElse : Obligations.ResetSetsNothingElse :=
  ⟨State.resetWith_request _, State.resetWith_response _, fun s =>
    ⟨s.afterReset_request, s.afterReset_response, s.afterReset_mem, s.afterReset_cfg⟩⟩

end Sys2Proof
end
